-- ==== Sys2Proof/Word.lean ====
section
/-! DEFINITION. The two word types of the block: a byte of a memory (20_memory R46, R48) and a 32-bit host register word
(10_state R17, R18). -/

namespace Sys2Proof

/-- One byte of F or one unsigned 8-bit sample of G (R46, R48; `SAMPLE_W` = 8, R6). -/
abbrev Byte := BitVec 8

/-- One host register word (`REG_W` = 32, R7, R18). -/
abbrev Word := BitVec 32

end Sys2Proof
end

