-- ==== Sys2Proof/Config.lean ====
section
/-! DEFINITION. What the spec leaves to the platform (00_scope R7, 20_memory R45) and the free values (93 U1, U3, U5). -/

namespace Sys2Proof

/-- The `OPEN` parameters of R7 and R45: the three window bases and the two memory sizes. -/
structure Params where
  /-- `REG_BASE`: bus address of the 64-byte register window. -/
  regBase : Nat := 0
  /-- `F_BASE`: bus address of the frame memory window. -/
  fBase : Nat := 64
  /-- `G_BASE`: bus address of the grid memory window. -/
  gBase : Nat := 68
  /-- `FRAME_BYTES`. -/
  frameBytes : Nat := 4
  /-- `GRID_BYTES`. -/
  gridBytes : Nat := 0
deriving DecidableEq, Repr

/-- Two bus windows `[a, a + n)` and `[b, b + m)` do not overlap: one of them is empty, or one ends before the other
begins. DESIGN CHOICE, log 3: R45 says only that they do not overlap, and an empty grid window (GRID_BYTES = 0, legal by
R7) has no address to share, so its base may lie anywhere, strictly inside another window too. -/
def windowsApart (a n b m : Nat) : Bool :=
  decide (n = 0) || decide (m = 0) || decide (a + n ≤ b) || decide (b + m ≤ a)

/-- The bounds of R7 (`4 <= FRAME_BYTES <= 2^32 - 1`, `GRID_BYTES <= 4 * (2^16 - 1)^2`) and R45 (the three windows do
not overlap; what that asks of an empty grid window: log 3). -/
def Params.wf (p : Params) : Bool :=
  decide (4 ≤ p.frameBytes) && decide (p.frameBytes ≤ 2 ^ 32 - 1) &&
  decide (p.gridBytes ≤ 4 * (2 ^ 16 - 1) ^ 2) &&
  windowsApart p.regBase 64 p.fBase p.frameBytes && windowsApart p.regBase 64 p.gBase p.gridBytes &&
  windowsApart p.fBase p.frameBytes p.gBase p.gridBytes

/-- A parameter choice that meets its bounds. The default values only show that one exists; nothing rests on them. -/
structure Platform where
  params : Params := {}
  ok : params.wf = true := by decide
deriving Inhabited

/-- The platform's parameters, `OPEN` in R7 and R45: only their bounds are known. DESIGN CHOICE, log 3. -/
opaque Config.platform : Platform

/-- The byte of F at an address nobody has written since the memories were last lost (first argument: which loss), R43,
U1. Log 5. -/
opaque Config.unwrittenF : Nat → Nat → Byte

/-- The sample of G at an address nobody has written since the memories were last lost, R43, U1. Log 5. -/
opaque Config.unwrittenG : Nat → Nat → Byte

/-- What the n-th free read answers when it is a host read of F or G while BUSY = 1 (R144, U3). Log 8. -/
opaque Config.busyRead : Nat → Byte

/-- What the n-th free read answers when it is made while `rst` is held (R137, U5). Log 9. -/
opaque Config.heldRead : Nat → Word

end Sys2Proof
end

