-- ==== Sys2Proof/Machine/Bus.lean ====
section
/-! DEFINITION. What the outside world can do to the block: bus accesses of the one host (20_memory R45, R56, R58;
30_encoding R71), the reset input (70_reset R137), and the order in which host and engine move (60_exceptions R129). -/

namespace Sys2Proof.Machine

/-- One host bus transaction at an absolute bus address: the widths of R56, 32 bits or one byte. -/
inductive BusOp where
  | write32 (addr : Nat) (v : Word)
  | read32 (addr : Nat)
  | write8 (addr : Nat) (b : Byte)
  | read8 (addr : Nat)
deriving DecidableEq, Repr

/-- The same transaction as the block sees it: the triples (kind, offset or address, data) of R71. -/
inductive Access where
  /-- (W32, offset, v). -/
  | writeReg (off : Nat) (v : Word)
  /-- (R32, offset, -). -/
  | readReg (off : Nat)
  /-- (W8F, a, b). -/
  | writeF (a : Nat) (b : Byte)
  /-- (R8F, a, -). -/
  | readF (a : Nat)
  /-- (W8G, a, b). -/
  | writeG (a : Nat) (b : Byte)
  /-- (R8G, a, -). -/
  | readG (a : Nat)
deriving DecidableEq, Repr

/-- Why a bus transaction is no access of the block. -/
inductive BadAccess where
  /-- The address lies in none of the three windows (R58). -/
  | outside
  /-- A width or alignment the model gives the host no move for (R18, R56, U8). -/
  | unsupported
deriving DecidableEq, Repr

/-- The ten host registers of R17. -/
inductive Reg where
  | cmd | status | irqen | height | width | channels | plen | flen | xbitsLo | xbitsHi
deriving DecidableEq, Repr

/-- What becomes of F and G when `rst` is asserted (R43, R137, R138; log 6, log 7). -/
inductive MemoryAtReset where
  /-- The memories keep what they hold (R137); of a command that was running, exactly the bytes of F at the addresses
  `landedF` and the samples of G at the addresses `landedG` had been written (R138). -/
  | kept (landedF landedG : List Nat)
  /-- Every byte is unspecified again (R43). -/
  | lost
deriving DecidableEq, Repr

/-- One event: which agent moves next, and how. -/
inductive Event where
  /-- The host makes one bus transaction. -/
  | host (op : BusOp)
  /-- The engine takes a step. -/
  | engine
  /-- The input `rst` is asserted. -/
  | assertRst (m : MemoryAtReset)
  /-- The input `rst` is released. -/
  | releaseRst
deriving DecidableEq, Repr

/-- The offset of a register in the window (R17). -/
def Reg.offset : Reg → Nat
  | .cmd => 0x00
  | .status => 0x04
  | .irqen => 0x08
  | .height => 0x0C
  | .width => 0x10
  | .channels => 0x14
  | .plen => 0x18
  | .flen => 0x1C
  | .xbitsLo => 0x20
  | .xbitsHi => 0x24

/-- The register at an offset; offsets 0x28 to 0x3C are unmapped (R17, R19). -/
def regAt (off : Nat) : Option Reg :=
  match off with
  | 0x00 => some .cmd
  | 0x04 => some .status
  | 0x08 => some .irqen
  | 0x0C => some .height
  | 0x10 => some .width
  | 0x14 => some .channels
  | 0x18 => some .plen
  | 0x1C => some .flen
  | 0x20 => some .xbitsLo
  | 0x24 => some .xbitsHi
  | _ => none

/-- The address lies in the window `[base, base + size)`. -/
def inWindow (base size addr : Nat) : Bool := decide (base ≤ addr) && decide (addr < base + size)

/-- A 32-bit access: a multiple of 4 inside the register window, or no access of the block (R18, R56). -/
def word32 (p : Params) (addr : Nat) (k : Nat → Access) : Except BadAccess Access :=
  if inWindow p.regBase 64 addr then
    if (addr - p.regBase) % 4 = 0 then .ok (k (addr - p.regBase)) else .error .unsupported
  else if inWindow p.fBase p.frameBytes addr || inWindow p.gBase p.gridBytes addr then .error .unsupported
  else .error .outside

/-- A byte access: any address inside the window of F or of G, or no access of the block (R46, R48, R56). -/
def byte8 (p : Params) (addr : Nat) (kf kg : Nat → Access) : Except BadAccess Access :=
  if inWindow p.fBase p.frameBytes addr then .ok (kf (addr - p.fBase))
  else if inWindow p.gBase p.gridBytes addr then .ok (kg (addr - p.gBase))
  else if inWindow p.regBase 64 addr then .error .unsupported
  else .error .outside

/-- The access of the block a bus transaction is (R58 gives the windows, R56 the widths). -/
def busAccess (p : Params) : BusOp → Except BadAccess Access
  | .write32 addr v => word32 p addr (fun off => .writeReg off v)
  | .read32 addr => word32 p addr .readReg
  | .write8 addr b => byte8 p addr (fun a => .writeF a b) (fun a => .writeG a b)
  | .read8 addr => byte8 p addr .readF .readG

end Sys2Proof.Machine
end

