-- ==== Sys2Proof/Syntax.lean ====
section
/-! DEFINITION. The commands of the block: one constructor per row of spec/opcode_table.json (30_encoding R65). -/

namespace Sys2Proof

/-- A command. Commands have no immediate fields (R68): every operand comes from a register latched at accept. -/
inductive Instr where
  /-- OP 0x1, 40_framer R75. -/
  | serialize
  /-- OP 0x2, 40_framer R76. -/
  | deserialize
  /-- OP 0x3, 42_lsb_codec R104. -/
  | embed
  /-- OP 0x4, 42_lsb_codec R106. -/
  | extractLength
  /-- OP 0x5, 42_lsb_codec R108. -/
  | extractBits
  /-- OP 0x6, 42_lsb_codec R110. -/
  | decode
  /-- OP 0x7, 42_lsb_codec R112. -/
  | encode
deriving DecidableEq, Repr

end Sys2Proof
end

