-- ==== Sys2Proof/WellFormed.lean ====
section
/-! DEFINITION. Well-formedness of what the outside hands the block: commands, bus transactions, parameters. -/

namespace Sys2Proof

/-- A command is well formed as soon as it is one of the seven: it has no field that could be out of range (R65, R68).
The check over words is the decoder's (R67). -/
def Instr.wellFormed (i : Instr) : Bool :=
  match i with
  | .serialize => true
  | .deserialize => true
  | .embed => true
  | .extractLength => true
  | .extractBits => true
  | .decode => true
  | .encode => true

/-- A bus transaction the model gives the host a move for (R18, R56, U8). -/
def Machine.BusOp.wellFormed (p : Params) (op : Machine.BusOp) : Bool :=
  match Machine.busAccess p op with
  | .ok _ => true
  | .error _ => false

end Sys2Proof
end

