-- ==== Sys2Proof/Decode.lean ====
section
/-! DEFINITION. The decoder of a command word (30_encoding R64 to R67), total, and the encoder beside it. -/

namespace Sys2Proof

/-- Why a command word is illegal (R66, R67). -/
inductive IllegalWord where
  /-- Some bit of RSV (bits 31..4) is set, whatever OP says (R66). -/
  | reservedBits
  /-- RSV is 0 and OP is 0x0 or one of 0x8 to 0xF (R67). -/
  | reservedOp
deriving DecidableEq, Repr

/-- Field OP of a command word: bits 3..0 (R64). -/
def opField (w : Word) : BitVec 4 := w.extractLsb' 0 4

/-- Field RSV of a command word: bits 31..4, must be 0 (R64). -/
def rsvField (w : Word) : BitVec 28 := w.extractLsb' 4 28

/-- The opcode map of R65. -/
def commandOf (op : BitVec 4) : Option Instr :=
  match op.toNat with
  | 1 => some .serialize
  | 2 => some .deserialize
  | 3 => some .embed
  | 4 => some .extractLength
  | 5 => some .extractBits
  | 6 => some .decode
  | 7 => some .encode
  | _ => none

/-- The decoder of R67: total, illegal words by name. -/
def decode (w : Word) : Except IllegalWord Instr :=
  if rsvField w ≠ 0#28 then .error .reservedBits
  else
    match commandOf (opField w) with
    | some i => .ok i
    | none => .error .reservedOp

/-- The command word of each row of R65. -/
def encode : Instr → Word
  | .serialize => 0x00000001#32
  | .deserialize => 0x00000002#32
  | .embed => 0x00000003#32
  | .extractLength => 0x00000004#32
  | .extractBits => 0x00000005#32
  | .decode => 0x00000006#32
  | .encode => 0x00000007#32

/-- The command word whose lowest `nbits` bits are those of `w` and whose other bits are 0 (one 32-bit word, R70). -/
def tableWord (nbits w : Nat) : Word := BitVec.ofNat 32 (w % 2 ^ nbits)

/-- The command this decoder reads from an opcode-table word. -/
def decodeTableWord (nbits w : Nat) : Option Instr :=
  match decode (tableWord nbits w) with
  | .ok i => some i
  | .error _ => none

end Sys2Proof
end

