-- ==== Sys2Proof/Machine/State.lean ====
section
/-! DEFINITION. The state of the block: the host registers and flags (10_state R17 to R34), the hidden engine state (R38),
the two memories (20_memory R46, R48), the reset input, the platform's parameters, and the model's own fields. -/

namespace Sys2Proof.Machine

/-- A memory: its written bytes, addresses strictly rising. An unlisted address holds no written byte (log 5). -/
abbrev Memory := List Host.Cell

/-- The errors a command can raise (60_exceptions R118). An error ends the command with its code in STATUS.ERRCODE; it
is a next state, never a stop of the model. -/
inductive CmdError where
  | capacityExceeded
  | indexOutOfBounds
  | outOfRange
  | shortFrame
  | frameOverflow
  | geometry
  | badOperand
  | illegalCmd
deriving DecidableEq, Repr

/-- Why the machine stops with a fault. -/
inductive Fault where
  /-- Raised by a host bus transaction whose address lies in none of the three windows (R58): the block has no such
  address. Safe: no claim about a run goes past it. Log 14. -/
  | noSuchAddress (addr : Nat)
deriving DecidableEq, Repr

/-- Why the machine gives a move no meaning. -/
inductive Refusal where
  /-- The name the interface asks for; no arm and no meaning of this model answers with it. Safe. -/
  | notModelled (mnemonic : String)
  /-- Raised by a host bus transaction of a width or alignment the spec gives the host no move for (R18, R56, U8).
  Safe: a claim says nothing of a run that makes one. Log 14. -/
  | unsupportedAccess (op : BusOp)
deriving DecidableEq, Repr

/-- The state. -/
@[ext]
structure State where
  /-- The platform's `OPEN` parameters (R7, R45); no step writes them. -/
  params : Params
  /-- STATUS.BUSY, and with it the hidden `eng_state` (R22, R38). -/
  busy : Bool
  /-- STATUS.DONE (R23). -/
  done : Bool
  /-- STATUS.TRUNC (R25). -/
  trunc : Bool
  /-- STATUS.HAZ (R26). -/
  haz : Bool
  /-- STATUS.ERRCODE (R24, R118). -/
  errcode : BitVec 4
  /-- IRQEN.IE (R27). -/
  ie : Bool
  /-- HEIGHT.H (R28). -/
  height : BitVec 16
  /-- WIDTH.W (R29). -/
  width : BitVec 16
  /-- CHANNELS.C (R30). -/
  channels : BitVec 3
  /-- PLEN.L (R31). -/
  plen : Word
  /-- FLEN.N (R32). -/
  flen : Word
  /-- XBITS_LO.T_LO (R33). -/
  xbitsLo : Word
  /-- XBITS_HI.T_HI (R34). -/
  xbitsHi : BitVec 4
  /-- Hidden `eng_op`: the command word latched at accept (R38, R119; log 12). -/
  engOp : Word
  /-- Hidden `i`: the engine's bit index, 36 bits (R36, R38). -/
  bitIdx : BitVec 36
  /-- Hidden `acc`: the byte assembly register (R38, R96). -/
  acc : Byte
  /-- Latched operand H (R38, R68). -/
  opH : BitVec 16
  /-- Latched operand W (R38, R68). -/
  opW : BitVec 16
  /-- Latched operand C (R38, R68). -/
  opC : BitVec 3
  /-- Latched operand L (R38, R68). -/
  opL : Word
  /-- Latched operand N (R38, R68). -/
  opN : Word
  /-- Latched operand T (R38, R68). -/
  opT : BitVec 36
  /-- Frame memory F (R46). -/
  fmem : Memory
  /-- Grid memory G (R48). -/
  gmem : Memory
  /-- Level of the reset input `rst` (R45, R137). -/
  rst : Bool
  /-- The model's own: the data the last answered host read returned (log 10). -/
  rdata : Word
  /-- The model's own: the events still to come, the next one first (log 1). -/
  inputs : List Event
  /-- The model's own: how many resets lost the memories (log 11). -/
  epoch : Nat
  /-- The model's own: how many free reads were answered (log 11). -/
  draws : Nat
deriving DecidableEq, Repr

/-- The machine right after reset: the registers as in R41, the engine idle (R42), nothing written in F and G (R43),
`rst` released, nothing pending. The hidden engine fields (log 4) and the model's own fields (log 1, 10, 11, 18) hold the
values the log names. -/
def State.reset : State where
  params := Config.platform.params
  busy := false
  done := false
  trunc := false
  haz := false
  errcode := 0#4
  ie := false
  height := 0#16
  width := 0#16
  channels := 3#3
  plen := 0#32
  flen := 0#32
  xbitsLo := 0#32
  xbitsHi := 0#4
  engOp := 0#32
  bitIdx := 0#36
  acc := 0#8
  opH := 0#16
  opW := 0#16
  opC := 0#3
  opL := 0#32
  opN := 0#32
  opT := 0#36
  fmem := []
  gmem := []
  rst := false
  rdata := 0#32
  inputs := []
  epoch := 0
  draws := 0

end Sys2Proof.Machine
end

