-- ==== Sys2Proof/Machine/Flags.lean ====
section
/-! DEFINITION. STATUS, IRQEN and the interrupt line: every flag's word, its host write, and the error codes
(10_state R21 to R27, R40; 60_exceptions R118, R127). -/

namespace Sys2Proof.Machine

/-- The code of an error in STATUS.ERRCODE (R118). -/
def CmdError.code : CmdError → BitVec 4
  | .capacityExceeded => 1#4
  | .indexOutOfBounds => 2#4
  | .outOfRange => 3#4
  | .shortFrame => 4#4
  | .frameOverflow => 5#4
  | .geometry => 6#4
  | .badOperand => 7#4
  | .illegalCmd => 8#4

/-- The word a host read of STATUS returns: reserved bits 0, ERRCODE in bits 11..8, HAZ 3, TRUNC 2, DONE 1, BUSY 0
(R21). -/
def statusWord (s : State) : Word :=
  (0#20 ++ s.errcode ++ 0#4 ++ BitVec.ofBool s.haz ++ BitVec.ofBool s.trunc ++ BitVec.ofBool s.done ++
    BitVec.ofBool s.busy : BitVec 32)

/-- A host write of STATUS: bit 1 clears DONE, bit 3 clears HAZ, every other bit is ignored (R21). -/
def writeStatus (v : Word) (s : State) : State :=
  { s with done := s.done && !v.getLsbD 1, haz := s.haz && !v.getLsbD 3 }

/-- A host write of IRQEN: bit 0 is IE, the other bits are ignored (R27). -/
def writeIrqen (v : Word) (s : State) : State := { s with ie := v.getLsbD 0 }

/-- A host access broke the busy-ownership protocol (R26, R143, R144). -/
def setHaz (s : State) : State := { s with haz := true }

/-- The level of the interrupt output (R127). -/
def State.irq (s : State) : Bool := s.done && s.ie

/-- The level of the hidden `eng_state`: BUSY (R38). -/
def State.engineBusy (s : State) : Bool := s.busy

end Sys2Proof.Machine
end

