-- ==== Sys2Proof/Machine/Ops.lean ====
section
/-! DEFINITION. The named operations over the memories (00_scope R11, 20_memory R46, R48) and the two ways a command ends:
success and a raised error (00_scope R12, 60_exceptions R121), each ONE operation every command shares. -/

namespace Sys2Proof.Machine

/-- The byte a memory lists at an address, if something has written it. -/
def Memory.byteAt (m : Memory) (a : Nat) : Option Byte :=
  match m with
  | [] => none
  | (k, v) :: rest => if a = k then some v else if a < k then none else Memory.byteAt rest a

/-- The memory with byte `b` written at address `a`; the addresses stay strictly rising. -/
def Memory.put (m : Memory) (a : Nat) (b : Byte) : Memory :=
  match m with
  | [] => [(a, b)]
  | (k, v) :: rest =>
    if a < k then (a, b) :: (k, v) :: rest else if a = k then (a, b) :: rest else (k, v) :: Memory.put rest a b

/-- The canonical form: addresses strictly rising. An unlisted address holds no written byte, so no listed byte equals
what an unlisted address holds. -/
def Memory.wf (m : Memory) : Bool := decide (m.Pairwise (fun x y => x.1 < y.1))

/-- Every listed address is below `n`, the size of the memory (R46, R48). -/
def Memory.below (n : Nat) (m : Memory) : Bool := m.all (fun c => decide (c.1 < n))

/-- The memory `old`, with each byte of `new` at the addresses in `landed` written over it (R138). -/
def Memory.mix (old new : Memory) (landed : List Nat) : Memory :=
  match new with
  | [] => old
  | (a, b) :: rest => Memory.mix (if landed.contains a then Memory.put old a b else old) rest landed

/-- `MemRead(F, a, 1)`: the byte last written, or the free value of a byte nobody has written (R43, R46). -/
def readF (s : State) (a : Nat) : Byte := (Memory.byteAt s.fmem a).getD (Config.unwrittenF s.epoch a)

/-- `MemRead(G, a, 1)` (R43, R48). -/
def readG (s : State) (a : Nat) : Byte := (Memory.byteAt s.gmem a).getD (Config.unwrittenG s.epoch a)

/-- `MemWrite(F, a, 1, b)` (R11, R46). -/
def writeF (s : State) (a : Nat) (b : Byte) : State := { s with fmem := Memory.put s.fmem a b }

/-- `MemWrite(G, a, 1, b)` (R11, R48). -/
def writeG (s : State) (a : Nat) (b : Byte) : State := { s with gmem := Memory.put s.gmem a b }

/-- The bytes F[0, n), in order. -/
def frame (s : State) (n : Nat) : List Byte := (List.range n).map (readF s)

/-- `MemWrite` of successive bytes of F from address `a` on. -/
def writeFBytes (s : State) (a : Nat) (bytes : List Byte) : State :=
  match bytes with
  | [] => s
  | b :: rest => writeFBytes (writeF s a b) (a + 1) rest

/-- A command's result into PLEN (R31). -/
def setPlen (v : Word) (s : State) : State := { s with plen := v }

/-- A command's result into FLEN (R32). -/
def setFlen (v : Word) (s : State) : State := { s with flen := v }

/-- DESERIALIZE's result into STATUS.TRUNC (R25). -/
def setTrunc (b : Bool) (s : State) : State := { s with trunc := b }

/-- Completion of a command that raised no error (R121): ERRCODE 0, BUSY 0, DONE 1, the engine idle. -/
def complete (s : State) : State := { s with errcode := 0#4, busy := false, done := true }

/-- `raise E` (R12): the command ends at once and completes with the code of E (R121). The block has no trap (R116):
this is what taking an exception is here, and there is no return from one (R125). -/
def raiseError (e : CmdError) (s : State) : State := { s with errcode := e.code, busy := false, done := true }

/-- The first of a command's checks that fails, in the order of its rule (R12 `check cond else E`, R120). -/
def firstFailing (checks : List (Bool × CmdError)) : Option CmdError :=
  match checks with
  | [] => none
  | (ok, e) :: rest => if ok then firstFailing rest else some e

/-- A command: its checks first, all before its first write (R12, R123), then its effect, then completion (R121). -/
def command (checks : List (Bool × CmdError)) (effect : State → State) (s : State) : State :=
  match firstFailing checks with
  | some e => raiseError e s
  | none => complete (effect s)

end Sys2Proof.Machine
end

