-- ==== Sys2Proof/Machine/Operands.lean ====
section
/-! DEFINITION. Operand assembly and the accept of a command (30_encoding R68; 60_exceptions R119). -/

namespace Sys2Proof.Machine

/-- Operand T: XBITS_HI[3:0] * 2^32 + XBITS_LO, 36 bits (R68). -/
def operandT (s : State) : BitVec 36 := (s.xbitsHi ++ s.xbitsLo : BitVec 36)

/-- Every operand of R68 latched from its register, held for the whole command (R38). -/
def latchOperands (s : State) : State :=
  { s with opH := s.height, opW := s.width, opC := s.channels, opL := s.plen, opN := s.flen, opT := operandT s }

/-- Accept of command word `w` (R119): BUSY 1, DONE 0, TRUNC 0, ERRCODE 0, HAZ unchanged; the word and the operands are
latched. The bit index starts at 0 for each command (R36; log 13). -/
def accept (w : Word) (s : State) : State :=
  latchOperands { s with
    busy := true, done := false, trunc := false, errcode := 0#4, engOp := w, bitIdx := 0#36 }

end Sys2Proof.Machine
end

