-- ==== Sys2Proof/Machine/Framer.lean ====
section
/-! DEFINITION. FRAMER (40_framer): its two functions, and the commands SERIALIZE and DESERIALIZE. -/

namespace Sys2Proof.Machine

/-- `BE32(v)` (R10). -/
def be32 (v : Word) : List Byte :=
  [v.extractLsb' 24 8, v.extractLsb' 16 8, v.extractLsb' 8 8, v.extractLsb' 0 8]

/-- `fromBE(s)`: the sum of `s[k] * 256^(len(s)-1-k)` (R10). -/
def fromBE (bytes : List Byte) : Nat :=
  match bytes with
  | [] => 0
  | b :: rest => 256 ^ rest.length * b.toNat + fromBE rest

/-- The framer's function serialize (R73). -/
def serialize (p : List Byte) : Except CmdError (List Byte) :=
  if p.length ≥ 2 ^ 32 then .error .outOfRange else .ok (be32 (BitVec.ofNat 32 p.length) ++ p)

/-- The framer's function deserialize: `fb[4, min(4 + L, len(fb)))` (R74). DESIGN CHOICE, log 22: R74 defines it for four
bytes or more; on fewer this total function answers the empty payload, which the source does not say (N11). DESERIALIZE
raises SHORT_FRAME first (R76), and no statement rests on it. -/
def deserialize (fb : List Byte) : List Byte := (fb.take (min (4 + fromBE (fb.take 4)) fb.length)).drop 4

/-- The prefix in F: `fromBE(F[0, 4))` (R53, R76). -/
def prefixF (s : State) : Nat := fromBE (frame s 4)

/-- The checks of SERIALIZE (R75). The first is always met: PLEN has 32 bits. -/
def serializeChecks (s : State) : List (Bool × CmdError) :=
  [(decide (s.opL.toNat ≤ 2 ^ 32 - 1), .outOfRange),
   (decide (4 + s.opL.toNat ≤ s.params.frameBytes), .frameOverflow)]

/-- The prefix into F[0, 4) (R75, R112). -/
def writePrefix (s : State) : State := writeFBytes s 0 (be32 s.opL)

/-- SERIALIZE (R75). -/
def execSerialize (s : State) : Host.Outcome State Fault Refusal :=
  .next (command (serializeChecks s) (fun s => setFlen (BitVec.ofNat 32 (4 + s.opL.toNat)) (writePrefix s)) s)

/-- The checks of DESERIALIZE (R76). -/
def deserializeChecks (s : State) : List (Bool × CmdError) :=
  [(decide (4 ≤ s.opN.toNat), .shortFrame), (decide (s.opN.toNat ≤ s.params.frameBytes), .frameOverflow)]

/-- PLEN and TRUNC from the prefix (R76). -/
def deserializeEffect (s : State) : State :=
  if prefixF s ≤ s.opN.toNat - 4 then setTrunc false (setPlen (BitVec.ofNat 32 (prefixF s)) s)
  else setTrunc true (setPlen (BitVec.ofNat 32 (s.opN.toNat - 4)) s)

/-- DESERIALIZE (R76). -/
def execDeserialize (s : State) : Host.Outcome State Fault Refusal :=
  .next (command (deserializeChecks s) deserializeEffect s)

end Sys2Proof.Machine
end

