-- ==== Sys2Proof/Machine/Sequencer.lean ====
section
/-! DEFINITION. SEQ, the coordinate sequencer (41_sequencer), and the layout of G it addresses (20_memory R49, R51). -/

namespace Sys2Proof.Machine

/-- The sample bit `i` is carried by, as (row, column, channel), for an image of width `w` > 0 (R84). With
`w` = 0, where no bit has a sample, the function still answers something: DESIGN CHOICE, log 23. -/
def coord (i w : Nat) : Nat × Nat × Nat := ((i / 3) / w, (i / 3) % w, i % 3)

/-- The byte address in G of a sample of an image of width `w` with `c` samples a pixel (R49). -/
def gaddr (w c row col ch : Nat) : Nat := (row * w + col) * c + ch

/-- The address generator: the grid address of bit `i` (R86). The one coordinate function of every grid command (R89). -/
def seqAddr (c i : Nat) : Nat := (i / 3) * c + i % 3

/-- The capacity of an image of `h` rows and `w` columns, in bit slots (R81). -/
def capacity (h w : Nat) : Nat := h * w * 3

/-- `CAP` of the running command: from the latched H and W (R68, R81). -/
def cap (s : State) : Nat := capacity s.opH.toNat s.opW.toNat

/-- `geom_ok` of the running command: from the latched H, W and C (R51, R103). -/
def geomOk (s : State) : Bool :=
  (s.opC == 3#3 || s.opC == 4#3) && decide (s.opH.toNat * s.opW.toNat * s.opC.toNat ≤ s.params.gridBytes)

/-- The address in G of the bit the engine's index stands at. -/
def curAddr (s : State) : Nat := seqAddr s.opC.toNat s.bitIdx.toNat

/-- The bit index goes up by 1 per bit moved (R36). -/
def nextBit (s : State) : State := { s with bitIdx := s.bitIdx + 1#36 }

/-- The bit index at the start of a walk (R36). -/
def startWalk (s : State) : State := { s with bitIdx := 0#36 }

end Sys2Proof.Machine
end

