-- ==== Sys2Proof/Machine/Lsb.lean ====
section
/-! DEFINITION. LSBX, the bit-level datapath between bitstream and samples (42_lsb_codec R91 to R97). -/

namespace Sys2Proof.Machine

/-- The read path: the value of `s & 0x01` (R92). -/
def lsbRead (s : Byte) : Bool := (s &&& 0x01#8) == 0x01#8

/-- A bit as a byte. -/
def bitByte (b : Bool) : Byte := if b then 0x01#8 else 0x00#8

/-- The write path: `(s & 0xFE) | b` (R93). -/
def lsbWrite (s : Byte) (b : Bool) : Byte := (s &&& 0xFE#8) ||| bitByte b

/-- The bits of a byte, most significant first (R9, R54). -/
def byteBits (b : Byte) : List Bool :=
  [b.getLsbD 7, b.getLsbD 6, b.getLsbD 5, b.getLsbD 4, b.getLsbD 3, b.getLsbD 2, b.getLsbD 1, b.getLsbD 0]

/-- The serializer: bytes in order, most significant bit first within each (R54, R95). -/
def bitstream (bytes : List Byte) : List Bool := bytes.flatMap byteBits

/-- One shift of the packer: `((acc << 1) | bit)[7:0]` (R96). -/
def shiftIn (acc : Byte) (b : Bool) : Byte := (acc <<< 1) ||| bitByte b

/-- The packer: every consecutive group of 8 bits, most significant first, into a byte (R96). DESIGN CHOICE, log 21: R96
defines it on multiples of 8 only; bits after the last whole group are dropped here, and no command reaches that
(EXTRACT_BITS raises BAD_OPERAND first, R108), nor does a statement rest on it. -/
def pack (bits : List Bool) : List Byte :=
  match bits with
  | b7 :: b6 :: b5 :: b4 :: b3 :: b2 :: b1 :: b0 :: rest =>
    [b7, b6, b5, b4, b3, b2, b1, b0].foldl shiftIn 0x00#8 :: pack rest
  | _ => []

/-- Bit slot `i` of the grid, for the latched C: `lsb_read(MemRead(G, seq_addr(i), 1))` (R92, R97). -/
def slot (s : State) (i : Nat) : Bool := lsbRead (readG s (seqAddr s.opC.toNat i))

/-- Extraction of the first `n` bit slots, in index order (R97). Defined for `n` up to CAP; beyond it the formula goes on:
DESIGN CHOICE, log 23. -/
def extract (s : State) (n : Nat) : List Bool := (List.range n).map (slot s)

/-- `embed_bit(i, b)` at the engine's index: a read-modify-write of one sample (R52, R93). -/
def embedBit (s : State) (b : Bool) : State := nextBit (writeG s (curAddr s) (lsbWrite (readG s (curAddr s)) b))

/-- The bits of F[0, n) into the grid, in increasing index from 0 (R104, R105). -/
def embedFrame (n : Nat) (s : State) : State := (bitstream (frame s n)).foldl embedBit (startWalk s)

/-- The next `n` bit slots from the engine's index on (R92, R97). -/
def slotsFrom (s : State) (n : Nat) : List Bool := (List.range n).map (fun m => slot s (s.bitIdx.toNat + m))

/-- The bit index after `n` more bits are moved (R36). -/
def skipBits (n : Nat) (s : State) : State := { s with bitIdx := s.bitIdx + BitVec.ofNat 36 n }

/-- `acc <- 0`, then eight times `acc <- ((acc << 1) | bit)[7:0]` with the next bit slots (R96). -/
def assembleByte (s : State) : State := skipBits 8 { s with acc := (slotsFrom s 8).foldl shiftIn 0x00#8 }

/-- One byte assembled from the next 8 bit slots and written at F[k] (R96, R108). -/
def extractByte (s : State) (k : Nat) : State := writeF (assembleByte s) k (assembleByte s).acc

/-- The first 8 * n bit slots packed into F[0, n) (R108, R110). -/
def extractFrame (n : Nat) (s : State) : State := (List.range n).foldl extractByte (startWalk s)

/-- `v = 2 * v + lsb` over the first 32 bit slots, and the engine after them (R106, R110). -/
def readLength (s : State) : Nat × State :=
  ((slotsFrom (startWalk s) 32).foldl (fun v b => 2 * v + b.toNat) 0, skipBits 32 (startWalk s))

end Sys2Proof.Machine
end

