-- ==== Sys2Proof/Machine/Codec.lean ====
section
/-! DEFINITION. The five grid commands (42_lsb_codec R103 to R112). Each checks `geom_ok` first. -/

namespace Sys2Proof.Machine

/-- The checks of EMBED, the capacity test strict (R104, R88). -/
def embedChecks (s : State) : List (Bool × CmdError) :=
  [(geomOk s, .geometry),
   (decide (8 * s.opN.toNat < cap s), .capacityExceeded),
   (decide (s.opN.toNat ≤ s.params.frameBytes), .frameOverflow)]

/-- EMBED (R104). -/
def execEmbed (s : State) : Host.Outcome State Fault Refusal :=
  .next (command (embedChecks s) (embedFrame s.opN.toNat) s)

/-- The checks of EXTRACT_LENGTH (R106), and the first two of DECODE (R110). -/
def lengthChecks (s : State) : List (Bool × CmdError) :=
  [(geomOk s, .geometry), (decide (32 ≤ cap s), .indexOutOfBounds)]

/-- PLEN from the first 32 bit slots (R106). -/
def extractLengthEffect (s : State) : State :=
  setPlen (BitVec.ofNat 32 (readLength s).1) (readLength s).2

/-- EXTRACT_LENGTH (R106). -/
def execExtractLength (s : State) : Host.Outcome State Fault Refusal :=
  .next (command (lengthChecks s) extractLengthEffect s)

/-- The checks of EXTRACT_BITS (R108). -/
def extractBitsChecks (s : State) : List (Bool × CmdError) :=
  [(geomOk s, .geometry),
   (decide (s.opT.toNat % 8 = 0), .badOperand),
   (decide (s.opT.toNat ≤ cap s), .indexOutOfBounds),
   (decide (s.opT.toNat / 8 ≤ s.params.frameBytes), .frameOverflow)]

/-- EXTRACT_BITS (R108). -/
def execExtractBits (s : State) : Host.Outcome State Fault Refusal :=
  .next (command (extractBitsChecks s)
    (fun s => setFlen (BitVec.ofNat 32 (s.opT.toNat / 8)) (extractFrame (s.opT.toNat / 8) s)) s)

/-- The checks of DECODE that follow the 32 prefix reads, for a prefix `l` (R110, R120). -/
def decodeChecks (l : Nat) (s : State) : List (Bool × CmdError) :=
  [(decide (32 + 8 * l ≤ cap s), .indexOutOfBounds), (decide (4 + l ≤ s.params.frameBytes), .frameOverflow)]

/-- PLEN and FLEN from the prefix now in F, the deserialize step of DECODE (R110). -/
def finishDecode (s : State) : State :=
  setFlen (BitVec.ofNat 32 (4 + prefixF s)) (setPlen (BitVec.ofNat 32 (prefixF s)) s)

/-- DECODE after its first two checks: the prefix reads, the last two checks, the extraction (R110). -/
def decodeBody (s : State) : State :=
  let l := (readLength s).1
  command (decodeChecks l s) (fun t => finishDecode (extractFrame (4 + l) t)) (readLength s).2

/-- DECODE (R110). -/
def execDecode (s : State) : Host.Outcome State Fault Refusal :=
  .next (match firstFailing (lengthChecks s) with
    | some e => raiseError e s
    | none => decodeBody s)

/-- The checks of ENCODE (R112). The second is always met: PLEN has 32 bits. -/
def encodeChecks (s : State) : List (Bool × CmdError) :=
  [(geomOk s, .geometry),
   (decide (s.opL.toNat ≤ 2 ^ 32 - 1), .outOfRange),
   (decide (8 * (4 + s.opL.toNat) < cap s), .capacityExceeded),
   (decide (4 + s.opL.toNat ≤ s.params.frameBytes), .frameOverflow)]

/-- ENCODE (R112). -/
def execEncode (s : State) : Host.Outcome State Fault Refusal :=
  .next (command (encodeChecks s)
    (fun s => setFlen (BitVec.ofNat 32 (4 + s.opL.toNat)) (embedFrame (4 + s.opL.toNat) (writePrefix s))) s)

end Sys2Proof.Machine
end

