-- ==== Sys2Proof/Machine/Engine.lean ====
section
/-! DEFINITION. The engine agent (00_scope R13, 10_state R38, R39; 60_exceptions R121, R136). -/

namespace Sys2Proof.Machine

/-- The running command, from its latched word: the command of R65, or ILLEGAL_CMD (R66, R67). -/
def runCommandWord (w : Word) (s : State) : Host.Outcome State Fault Refusal :=
  match decode w with
  | .ok i => exec i s
  | .error _ => .next (raiseError .illegalCmd s)

/-- One engine step: while BUSY the running command is performed and completed (R39, R121); while idle nothing happens
(R136). -/
def engineStep (s : State) : Host.Outcome State Fault Refusal :=
  if s.busy then runCommandWord s.engOp s else .next s

end Sys2Proof.Machine
end

