-- ==== Sys2Proof/Machine/HostPort.lean ====
section
/-! DEFINITION. The host bus target: reads and writes of the register window and of F and G (10_state R17 to R34,
20_memory R46, R48, R57), the busy rules (70_reset R143 to R145), and accesses while `rst` is held (R137). -/

namespace Sys2Proof.Machine

/-- The word a host read of a register returns: the fields, reserved bits 0, CMD 0 (R20 to R34). -/
def regWord (s : State) : Reg → Word
  | .cmd => 0#32
  | .status => statusWord s
  | .irqen => (BitVec.ofBool s.ie).setWidth 32
  | .height => s.height.setWidth 32
  | .width => s.width.setWidth 32
  | .channels => s.channels.setWidth 32
  | .plen => s.plen
  | .flen => s.flen
  | .xbitsLo => s.xbitsLo
  | .xbitsHi => s.xbitsHi.setWidth 32

/-- A host write that BUSY forbids: while BUSY = 1 it is dropped and sets HAZ (R143, R144). -/
def whenIdle (f : State → State) (s : State) : State := if s.busy then setHaz s else f s

/-- A host write of a register (R20 to R34, R143). -/
def writeReg (r : Reg) (v : Word) (s : State) : State :=
  match r with
  | .cmd => whenIdle (accept v) s
  | .status => writeStatus v s
  | .irqen => writeIrqen v s
  | .height => whenIdle (fun s => { s with height := v.setWidth 16 }) s
  | .width => whenIdle (fun s => { s with width := v.setWidth 16 }) s
  | .channels => whenIdle (fun s => { s with channels := v.setWidth 3 }) s
  | .plen => whenIdle (fun s => { s with plen := v }) s
  | .flen => whenIdle (fun s => { s with flen := v }) s
  | .xbitsLo => whenIdle (fun s => { s with xbitsLo := v }) s
  | .xbitsHi => whenIdle (fun s => { s with xbitsHi := v.setWidth 4 }) s

/-- The answer to a host read, on the model's read data field (log 10). -/
def answer (v : Word) (s : State) : State := { s with rdata := v }

/-- One more free read answered (log 11). -/
def nextDraw (s : State) : State := { s with draws := s.draws + 1 }

/-- A host read of a byte of F or G: the byte, or while BUSY = 1 an unspecified byte and HAZ (R144; log 8). -/
def readByte (b : Byte) (s : State) : State :=
  if s.busy then setHaz (nextDraw (answer ((Config.busyRead s.draws).setWidth 32) s))
  else answer (b.setWidth 32) s

/-- A host access while `rst` is released. An unmapped offset reads 0 and ignores writes (R19). -/
def hostAccess (a : Access) (s : State) : State :=
  match a with
  | .writeReg off v =>
    match regAt off with
    | some r => writeReg r v s
    | none => s
  | .readReg off =>
    match regAt off with
    | some r => answer (regWord s r) s
    | none => answer 0#32 s
  | .writeF addr b => whenIdle (fun s => writeF s addr b) s
  | .readF addr => readByte (readF s addr) s
  | .writeG addr b => whenIdle (fun s => writeG s addr b) s
  | .readG addr => readByte (readG s addr) s

/-- A host access while `rst` is held: no effect, and a read returns an unspecified value of its width (R137; log 9). -/
def heldAccess (a : Access) (s : State) : State :=
  match a with
  | .writeReg _ _ => s
  | .readReg _ => nextDraw (answer (Config.heldRead s.draws) s)
  | .writeF _ _ => s
  | .readF _ => nextDraw (answer (((Config.heldRead s.draws).setWidth 8).setWidth 32) s)
  | .writeG _ _ => s
  | .readG _ => nextDraw (answer (((Config.heldRead s.draws).setWidth 8).setWidth 32) s)

/-- One host bus transaction (R56, R58, U8; log 14). -/
def hostStep (op : BusOp) (s : State) : Host.Outcome State Fault Refusal :=
  match busAccess s.params op with
  | .ok a => .next (if s.rst then heldAccess a s else hostAccess a s)
  | .error .unsupported => .refused (.unsupportedAccess op)
  | .error .outside =>
    match op with
    | .write32 addr _ => .fault (.noSuchAddress addr)
    | .read32 addr => .fault (.noSuchAddress addr)
    | .write8 addr _ => .fault (.noSuchAddress addr)
    | .read8 addr => .fault (.noSuchAddress addr)

end Sys2Proof.Machine
end

