-- ==== Sys2Proof/Machine/Reset.lean ====
section
/-! DEFINITION. The reset input `rst` (70_reset R137 to R139; 10_state R41 to R43). -/

namespace Sys2Proof.Machine

/-- The memories that stay when a reset comes: an idle block's as they are (R137); of a running command each byte it
would have written holds its old or its new value, as `landedF` and `landedG` say, and every other byte is unchanged
(R138; log 7). -/
def abortedMemories (landedF landedG : List Nat) (s : State) : Memory × Memory :=
  if s.busy then
    match runCommandWord s.engOp s with
    | .next t => (Memory.mix s.fmem t.fmem landedF, Memory.mix s.gmem t.gmem landedG)
    | .fault _ => (s.fmem, s.gmem)
    | .refused _ => (s.fmem, s.gmem)
  else (s.fmem, s.gmem)

/-- What becomes of F and G, and of the epoch of their unwritten bytes (R43, R137, R138; log 6). -/
def memoriesAfterReset (m : MemoryAtReset) (s : State) : Memory × Memory × Nat :=
  match m with
  | .kept landedF landedG =>
    ((abortedMemories landedF landedG s).1, (abortedMemories landedF landedG s).2, s.epoch)
  | .lost => ([], [], s.epoch + 1)

/-- `rst` is asserted: every register, flag and hidden field as in `State.reset`, and `rst` is held from now on
(R137, R41, R42). The parameters, the pending events and the model's own fields stay. -/
def assertReset (m : MemoryAtReset) (s : State) : State :=
  { State.reset with
    params := s.params
    fmem := (memoriesAfterReset m s).1
    gmem := (memoriesAfterReset m s).2.1
    epoch := (memoriesAfterReset m s).2.2
    rst := true
    rdata := s.rdata
    inputs := s.inputs
    draws := s.draws }

/-- `rst` is released: the block is idle and waits for a write of CMD (R139; log 18). -/
def releaseReset (s : State) : State := { s with rst := false }

end Sys2Proof.Machine
end

