-- ==== Sys2Proof/Machine/React.lean ====
section
/-! DEFINITION. What the machine does with one event: the move of the agent it names (60_exceptions R129; log 1). -/

namespace Sys2Proof.Machine

/-- The machine after one event. While `rst` is held the engine does not move (R137). -/
def react (e : Event) (s : State) : Host.Outcome State Fault Refusal :=
  match e with
  | .host op => hostStep op s
  | .engine => if s.rst then .next s else engineStep s
  | .assertRst m => .next (assertReset m s)
  | .releaseRst => .next (releaseReset s)

end Sys2Proof.Machine
end

