-- ==== Sys2Proof/Machine/Step.lean ====
section
/-! DEFINITION. One step of the machine: the next event of the state's list, one agent's move (60_exceptions R129; log 1).
With no event pending the engine moves, so a busy engine completes (70_reset R151). -/

namespace Sys2Proof.Machine

/-- One step. -/
def step (s : State) : Host.Outcome State Fault Refusal :=
  match s.inputs with
  | [] => react .engine s
  | e :: rest => react e { s with inputs := rest }

/-- The state in which the command word `w` has been accepted and the engine moves next: the block fetches no code (R36),
a command runs because the host wrote its word to CMD (R64; log 15). -/
def State.withFetchWord (s : State) (nbits w : Nat) : State :=
  { accept (tableWord nbits w) s with rst := false, inputs := .engine :: s.inputs }

end Sys2Proof.Machine
end

