-- ==== Sys2Proof/Machine/Notation.lean ====
section
/-! DEFINITION. The host program notation of 30_encoding R71 and R72, as bus transactions of a platform with parameters
`p`. -/

namespace Sys2Proof.Machine

/-- `WR <reg>, <v>` (R71). -/
def busWR (p : Params) (r : Reg) (v : Word) : BusOp := .write32 (p.regBase + r.offset) v

/-- `RD <reg>` (R71). -/
def busRD (p : Params) (r : Reg) : BusOp := .read32 (p.regBase + r.offset)

/-- `WRF <a>, <b>` (R71). -/
def busWRF (p : Params) (a : Nat) (b : Byte) : BusOp := .write8 (p.fBase + a) b

/-- `RDF <a>` (R71). -/
def busRDF (p : Params) (a : Nat) : BusOp := .read8 (p.fBase + a)

/-- `WRG <a>, <b>` (R71). -/
def busWRG (p : Params) (a : Nat) (b : Byte) : BusOp := .write8 (p.gBase + a) b

/-- `RDG <a>` (R71). -/
def busRDG (p : Params) (a : Nat) : BusOp := .read8 (p.gBase + a)

/-- `CMD <mnemonic>` (R72). -/
def busCMD (p : Params) (i : Instr) : BusOp := busWR p .cmd (encode i)

/-- `ACK` (R72). -/
def busACK (p : Params) : BusOp := busWR p .status 0x00000002#32

/-- `CLRHAZ` (R72). -/
def busCLRHAZ (p : Params) : BusOp := busWR p .status 0x00000008#32

/-- The end test of `POLL`: bit 1 (DONE) of the value the last `RD STATUS` read is 1 (R72). The loop is `hostPoll`. -/
def pollEnds (s : State) : Bool := s.rdata.getLsbD 1

end Sys2Proof.Machine
end

