-- ==== Sys2Proof/Machine/Program.lean ====
section
/-! DEFINITION. A host program at work: one transaction, and the pseudo-instructions POLL and RUN of 30_encoding R72, as
runs of the machine. The host decides each move by what it has read, so its transactions are made here one by one; what
the other agents do between them is `step`'s (log 1). -/

namespace Sys2Proof.Machine

/-- The next state of an outcome, if it is one. -/
def nextState (o : Host.Outcome State Fault Refusal) : Option State :=
  match o with
  | .next t => some t
  | .fault _ => none
  | .refused _ => none

/-- The host makes this transaction now, before every pending event (R71, R129). -/
def hostMove (op : BusOp) (s : State) : Option State :=
  nextState (step { s with inputs := .host op :: s.inputs })

/-- The next pending event is a transaction of the host: no move of another agent. -/
def hostIsNext (s : State) : Bool :=
  match s.inputs with
  | [] => false
  | .host _ :: _ => true
  | .engine :: _ => false
  | .assertRst _ :: _ => false
  | .releaseRst :: _ => false

/-- `n` steps of the agents other than the host: the pending events, and the engine when there are none. There is one
host (log 19), so a pending host transaction would be of another program: no such run. -/
def othersMove (n : Nat) (s : State) : Option State :=
  match n with
  | 0 => some s
  | n + 1 => if hostIsNext s then none else (nextState (step s)).bind (othersMove n)

/-- One round of `POLL`: `n` steps of the other agents, then `RD STATUS` (R72, R129). -/
def pollRound (n : Nat) (s : State) : Option State :=
  (othersMove n s).bind (fun t => hostMove (busRD t.params .status) t)

/-- `POLL`: repeat `RD STATUS` until bit 1 (DONE) of the value read is 1 (R72). `gaps` says how many steps of the other
agents come before each read, one number a read; `none` if no read it has room for ends the loop. R72 does not bound the
reads: POLL leads from `s` to `t` if some list of gaps gives `some t`, and while DONE stays 0 it is left by none. -/
def hostPoll (gaps : List Nat) (s : State) : Option State :=
  match gaps with
  | [] => none
  | n :: rest => (pollRound n s).bind (fun t => if pollEnds t then some t else hostPoll rest t)

/-- `RUN <mnemonic>`: `CMD <mnemonic>` then `POLL` (R72). -/
def hostRun (i : Instr) (gaps : List Nat) (s : State) : Option State :=
  (hostMove (busCMD s.params i) s).bind (hostPoll gaps)

end Sys2Proof.Machine
end

