-- ==== Sys2Proof/Machine/Source.lean ====
section
/-! DEFINITION. The source's own functions on a pixel grid (42_lsb_codec R98 to R101), which the grid commands implement:
written from their rules alone, over coordinates and not over addresses of G, so that statements can compare the two. -/

namespace Sys2Proof.Machine

/-- A pixel grid indexed row, column, channel (R15). No field of State: a view for statements. -/
abbrev Grid := Nat → Nat → Nat → Byte

/-- The pixel grid G holds for the latched W and C (R49). -/
def gridOf (s : State) : Grid := fun row col ch => readG s (gaddr s.opW.toNat s.opC.toNat row col ch)

/-- The sample a coordinate names. -/
def Grid.at (g : Grid) (p : Nat × Nat × Nat) : Byte := g p.1 p.2.1 p.2.2

/-- The grid with one sample set. -/
def Grid.set (g : Grid) (p : Nat × Nat × Nat) (b : Byte) : Grid :=
  fun row col ch => if (row, col, ch) = p then b else g row col ch

/-- The loop of Embed over the bits from index `i` on, image width `w` (R98). -/
def embedLoop (w : Nat) (bits : List Bool) (i : Nat) (g : Grid) : Grid :=
  match bits with
  | [] => g
  | b :: rest => embedLoop w rest (i + 1) (Grid.set g (coord i w) (lsbWrite (Grid.at g (coord i w)) b))

/-- `Embed(g, fb)` on an image of `h` rows and `w` columns (R98). -/
def sourceEmbed (h w : Nat) (g : Grid) (fb : List Byte) : Except CmdError Grid :=
  if (bitstream fb).length < h * w * 3 then .ok (embedLoop w (bitstream fb) 0 g) else .error .capacityExceeded

/-- The LSBs of the first `n` samples of the Coordinate Sequence (R97, R98). Beyond the capacity the formula goes on:
DESIGN CHOICE, log 23. -/
def sourceBits (w : Nat) (g : Grid) (n : Nat) : List Bool :=
  (List.range n).map (fun i => lsbRead (Grid.at g (coord i w)))

/-- `ExtractLength(g)` (R99). -/
def sourceLength (w : Nat) (g : Grid) : Nat := fromBE (pack (sourceBits w g 32))

/-- `ExtractLength(G)` over the engine's bit slots (R97, R99): what the grid of the running command spells as its prefix. -/
def prefixG (s : State) : Nat := fromBE (pack (extract s 32))

/-- `ExtractBits(g, total_bits)` (R100). On a count that is no multiple of 8 it answers the whole bytes: DESIGN CHOICE,
log 21. -/
def sourceExtract (h w : Nat) (g : Grid) (n : Nat) : Except CmdError (List Byte) :=
  if n ≤ h * w * 3 then .ok (pack (sourceBits w g n)) else .error .indexOutOfBounds

/-- `Decode(g)` (R101); the 32 prefix bits must exist, as R110 checks first. -/
def sourceDecode (h w : Nat) (g : Grid) : Except CmdError (List Byte) :=
  if 32 ≤ h * w * 3 then
    match sourceExtract h w g (32 + sourceLength w g * 8) with
    | .ok fb => .ok (deserialize fb)
    | .error e => .error e
  else .error .indexOutOfBounds

end Sys2Proof.Machine
end

