-- ==== Sys2Proof/Safety.lean ====
section
/-! DEFINITION. The terms claims use: a safe run, the invariant of the machine, and one host transaction as a step. -/

namespace Sys2Proof.Machine

/-- The memories are in canonical form and inside their sizes (R46, R48). -/
def State.memoriesOk (s : State) : Bool :=
  Memory.wf s.fmem && Memory.wf s.gmem && Memory.below s.params.frameBytes s.fmem &&
  Memory.below s.params.gridBytes s.gmem

/-- While BUSY = 1: DONE, TRUNC and ERRCODE are 0 (R145), and the operand registers still hold what was latched at
accept (R143). -/
def State.busyOk (s : State) : Bool :=
  !s.busy || (!s.done && !s.trunc && s.errcode == 0#4 && s.opH == s.height && s.opW == s.width &&
    s.opC == s.channels && s.opL == s.plen && s.opN == s.flen && s.opT == operandT s)

/-- ERRCODE holds one of the codes 0 to 8 (R24, R118), and a command that raised an error left TRUNC 0 (R122). -/
def State.codeOk (s : State) : Bool := decide (s.errcode.toNat ≤ 8) && (!s.trunc || s.errcode == 0#4)

/-- While `rst` is held the block is idle with every flag 0 (R137, R41). -/
def State.heldOk (s : State) : Bool :=
  !s.rst || (!s.busy && !s.done && !s.trunc && !s.haz && s.errcode == 0#4 && !s.ie)

/-- The invariant of the machine. -/
def State.Inv (s : State) : Prop :=
  s.params.wf = true ∧ s.memoriesOk = true ∧ s.busyOk = true ∧ s.codeOk = true ∧ s.heldOk = true

/-- A run in which no host access broke the busy-ownership protocol since HAZ was last cleared (R26; D21 asks claims to
take this as a premise). -/
def State.protocolKept (s : State) : Bool := !s.haz

/-- `s` as a command that completes with this code and changes nothing else leaves it (R121, R122). -/
def endedWith (code : BitVec 4) (s : State) : State := { s with errcode := code, busy := false, done := true }

/-- A command from the host's write of its word to CMD while idle to its completion, as one move: the accept (R119),
then the engine's step (R39). -/
def runCmd (i : Instr) (s : State) : Host.Outcome State Fault Refusal := exec i (accept (encode i) s)

/-- `n` steps, each to a next state, lead from `s` to `t`. -/
def reachesIn (n : Nat) (s t : State) : Prop :=
  match n with
  | 0 => s = t
  | n + 1 => ∃ m, step s = .next m ∧ reachesIn n m t

/-- The machine goes on. -/
def goesOn (o : Host.Outcome State Fault Refusal) : Bool :=
  match o with
  | .next _ => true
  | .fault _ => false
  | .refused _ => false

end Sys2Proof.Machine
end

