-- ==== Sys2Proof/Certificates/Slice0/Obligations.lean ====
section
/-! DEFINITION. The statements about the block, from the numbered rules of spec/. -/

open Sys2Proof Sys2Proof.Machine

/-! ### Encoding -/

/-- The seven words of R65 decode to their rows; OP 0, OP 8 and a reserved bit are illegal (R66, R67). -/
def Obligations.CommandWordsDecode : Prop :=
  Sys2Proof.decode 0x00000001#32 = .ok .serialize ∧
  Sys2Proof.decode 0x00000002#32 = .ok .deserialize ∧
  Sys2Proof.decode 0x00000003#32 = .ok .embed ∧
  Sys2Proof.decode 0x00000004#32 = .ok .extractLength ∧
  Sys2Proof.decode 0x00000005#32 = .ok .extractBits ∧
  Sys2Proof.decode 0x00000006#32 = .ok .decode ∧
  Sys2Proof.decode 0x00000007#32 = .ok .encode ∧
  Sys2Proof.decode 0x00000000#32 = .error .reservedOp ∧
  Sys2Proof.decode 0x00000008#32 = .error .reservedOp ∧
  Sys2Proof.decode 0x00000011#32 = .error .reservedBits

/-- The decoder is total (R67): a word with w[31:4] nonzero or w[3:0] outside 1..7 is illegal, and every other word is
the command word of exactly one command, the one it decodes to. -/
def Obligations.DecodeAndEncodeAgree : Prop :=
  (∀ (i : Instr) (w : Word), Sys2Proof.decode w = .ok i ↔ w = Sys2Proof.encode i) ∧
  (∀ w : Word, (∃ e, Sys2Proof.decode w = .error e) ↔
    (w.toNat / 16 ≠ 0 ∨ w.toNat % 16 = 0 ∨ 8 ≤ w.toNat % 16))

/-- R66, R67: an illegal word is accepted like any command and completes with ERRCODE 8; F, G and every register but
STATUS are as before. -/
def Obligations.IllegalWordCompletes : Prop :=
  ∀ (s : State) (w : Word), s.rst = false → s.busy = false →
    (w.toNat / 16 ≠ 0 ∨ w.toNat % 16 = 0 ∨ 8 ≤ w.toNat % 16) →
    s.inputs = [.host (busWR s.params .cmd w), .engine] →
    ∃ t u, step s = .next t ∧ t.busy = true ∧ step t = .next u ∧
      u.busy = false ∧ u.done = true ∧ u.trunc = false ∧ u.haz = s.haz ∧ u.errcode = 8#4 ∧
      u.fmem = s.fmem ∧ u.gmem = s.gmem ∧ u.epoch = s.epoch ∧
      ∀ r : Reg, r ≠ .status → regWord u r = regWord s r

/-! ### Datapath -/

/-- R92, R93: the read path gives bit 0 of a sample and the write path puts the bit there; the laws of the write path
(R94, which the spec marks as derived from R93). -/
def Obligations.LsbWriteLaws : Prop :=
  ∀ (s : Byte) (b : Bool),
    (lsbWrite s b).extractLsb' 1 7 = s.extractLsb' 1 7 ∧
    lsbRead (lsbWrite s b) = b ∧
    (lsbWrite s b = s ∨ lsbWrite s b = s ^^^ 0x01#8) ∧
    ((lsbWrite s b).toNat ≤ s.toNat + 1 ∧ s.toNat ≤ (lsbWrite s b).toNat + 1) ∧
    lsbRead s = s.getLsbD 0 ∧ (lsbWrite s b).getLsbD 0 = b

/-- Packing takes each group of 8 bits most significant first (R96), and undoes the serializer (R96's own inference from
R95). -/
def Obligations.PackIsMsbFirst : Prop :=
  (∀ bytes : List Byte, pack (bitstream bytes) = bytes) ∧
  (∀ (bits : List Bool) (n : Nat), bits.length = 8 * n →
    (pack bits).length = n ∧ ∀ k m, k < n → m < 8 →
      ((pack bits)[k]?.map (fun byte => byte.getLsbD (7 - m))) = bits[8 * k + m]?)

/-- R84, R86: the address generator is the layout's address of the coordinate; the identity for C = 3, never an address
4p + 3 for C = 4. -/
def Obligations.SeqAddrIsLayoutOfCoord : Prop :=
  (∀ i w c : Nat, 0 < w → seqAddr c i = gaddr w c (coord i w).1 (coord i w).2.1 (coord i w).2.2) ∧
  (∀ i : Nat, seqAddr 3 i = i) ∧
  (∀ i p : Nat, seqAddr 4 i = 4 * (i / 3) + i % 3 ∧ seqAddr 4 i ≠ 4 * p + 3)

/-- R85 (which the spec marks as derived from R84): on in-range indices coord is a bijection onto the used samples, with
inverse (row * W + col) * 3 + ch; distinct indices visit distinct samples, and n bits visit exactly the samples whose
inverse is below n. -/
def Obligations.CoordIsBijection : Prop :=
  ∀ h w : Nat,
    (∀ i, i < capacity h w → (coord i w).1 < h ∧ (coord i w).2.1 < w ∧ (coord i w).2.2 < 3 ∧
      ((coord i w).1 * w + (coord i w).2.1) * 3 + (coord i w).2.2 = i) ∧
    (∀ row col ch, row < h → col < w → ch < 3 →
      (row * w + col) * 3 + ch < capacity h w ∧ coord ((row * w + col) * 3 + ch) w = (row, col, ch)) ∧
    (∀ i j, i < capacity h w → j < capacity h w → coord i w = coord j w → i = j) ∧
    (∀ n row col ch, n ≤ capacity h w → row < h → col < w → ch < 3 →
      ((∃ i, i < n ∧ coord i w = (row, col, ch)) ↔ (row * w + col) * 3 + ch < n))

/-- geom_ok; every used sample of the image is then inside G (R51's own inference from R49); no rows or no columns is a
legal geometry, of capacity 0. -/
def Obligations.GeometryKeepsSamplesInside : Prop :=
  ∀ s : State,
    (geomOk s = true ↔ ((s.opC.toNat = 3 ∨ s.opC.toNat = 4) ∧
      s.opH.toNat * s.opW.toNat * s.opC.toNat ≤ s.params.gridBytes)) ∧
    (geomOk s = true → ∀ row col ch, row < s.opH.toNat → col < s.opW.toNat → ch < 3 →
      gaddr s.opW.toNat s.opC.toNat row col ch < s.params.gridBytes) ∧
    (s.opC = 3#3 ∨ s.opC = 4#3 → s.opH = 0#16 ∨ s.opW = 0#16 → geomOk s = true ∧ cap s = 0)

/-! ### Framer -/

/-- The length invariant (R77), of the function, and of a successful SERIALIZE (the spec's inference from R75). -/
def Obligations.FramerLengthInvariant : Prop :=
  (∀ p : List Byte, p.length < 2 ^ 32 → ∃ fb, serialize p = .ok fb ∧ fb.length = p.length + 4) ∧
  (∀ s t : State, s.params.wf = true → runCmd .serialize s = .next t → t.errcode = 0#4 →
    t.flen.toNat = t.plen.toNat + 4)

/-- The inverse law (R78), of the functions, and of a successful SERIALIZE followed by DESERIALIZE (the spec's inference
from R75 and R76). -/
def Obligations.FramerInverseLaw : Prop :=
  (∀ p : List Byte, p.length < 2 ^ 32 → ∃ fb, serialize p = .ok fb ∧ deserialize fb = p) ∧
  (∀ s t : State, s.params.wf = true → runCmd .serialize s = .next t → t.errcode = 0#4 →
    ∃ u, runCmd .deserialize t = .next u ∧ u.errcode = 0#4 ∧ u.plen = s.plen ∧ u.trunc = false ∧
      ∀ k, k < s.plen.toNat → readF u (4 + k) = readF s (4 + k))

/-- R73, R74: serialize puts the big-endian length in front, and refuses 2^32 bytes or more; deserialize returns at most
L bytes after the first four, as many as the buffer holds (the clamp is the spec's decision D15, log 20). -/
def Obligations.FramerFunctions : Prop :=
  (∀ p : List Byte, 2 ^ 32 ≤ p.length → serialize p = .error .outOfRange) ∧
  (∀ p : List Byte, p.length < 2 ^ 32 →
    ∃ fb, serialize p = .ok fb ∧ fromBE (fb.take 4) = p.length ∧ fb.drop 4 = p) ∧
  (∀ fb : List Byte, 4 ≤ fb.length → deserialize fb = (fb.drop 4).take (fromBE (fb.take 4)))

/-- R75: a SERIALIZE whose frame fits writes BE32(L) to F[0, 4) and 4 + L to FLEN, completes with ERRCODE 0, and changes
nothing else. -/
def Obligations.SerializeCompletes : Prop :=
  ∀ s : State, s.params.wf = true → 4 + s.opL.toNat ≤ s.params.frameBytes →
    ∃ t, exec .serialize s = .next t ∧
      t = { endedWith 0#4 s with fmem := t.fmem, flen := t.flen } ∧
      t.flen.toNat = 4 + s.opL.toNat ∧
      readF t 0 = s.opL.extractLsb' 24 8 ∧ readF t 1 = s.opL.extractLsb' 16 8 ∧
      readF t 2 = s.opL.extractLsb' 8 8 ∧ readF t 3 = s.opL.extractLsb' 0 8 ∧
      ∀ a, 4 ≤ a → readF t a = readF s a

/-- R76: a DESERIALIZE of a frame of 4 to FRAME_BYTES bytes sets PLEN to the smaller of the prefix and N - 4, TRUNC when
the prefix claims more, completes with ERRCODE 0, and changes nothing else. -/
def Obligations.DeserializeCompletes : Prop :=
  ∀ (s : State) (l : Nat), 4 ≤ s.opN.toNat → s.opN.toNat ≤ s.params.frameBytes →
    l = (readF s 0).toNat * 2 ^ 24 + (readF s 1).toNat * 2 ^ 16 + (readF s 2).toNat * 2 ^ 8 + (readF s 3).toNat →
    ∃ t, exec .deserialize s = .next t ∧
      t = { endedWith 0#4 s with plen := t.plen, trunc := t.trunc } ∧
      t.plen.toNat = min l (s.opN.toNat - 4) ∧ (t.trunc = true ↔ s.opN.toNat - 4 < l)

/-- R75, R76: when the two framer commands raise an error, which one, and that nothing but STATUS changes. -/
def Obligations.FramerCommandErrors : Prop :=
  ∀ s : State,
    (s.params.frameBytes < 4 + s.opL.toNat → exec .serialize s = .next (endedWith 5#4 s)) ∧
    (s.opN.toNat < 4 → exec .deserialize s = .next (endedWith 4#4 s)) ∧
    (4 ≤ s.opN.toNat → s.params.frameBytes < s.opN.toNat → exec .deserialize s = .next (endedWith 5#4 s))

/-- R74, R76 (log 20): after a successful DESERIALIZE the payload the source's function returns is F[4, 4 + PLEN), in
place. -/
def Obligations.DeserializePayloadInPlace : Prop :=
  ∀ s : State, 4 ≤ s.opN.toNat → s.opN.toNat ≤ s.params.frameBytes →
    ∃ t, exec .deserialize s = .next t ∧
      deserialize (frame s s.opN.toNat) = (List.range t.plen.toNat).map (fun k => readF t (4 + k))

/-! ### Grid commands -/

/-- R104, R105: an EMBED that passes its checks writes bit i of F[0, N), most significant bit of each byte first, into
the LSB of sample seq_addr(i), over the sample's own upper bits; every other sample, F, and every register but STATUS
are as before. -/
def Obligations.EmbedCompletes : Prop :=
  ∀ s : State, geomOk s = true → 8 * s.opN.toNat < cap s → s.opN.toNat ≤ s.params.frameBytes →
    ∃ t, exec .embed s = .next t ∧
      t = { endedWith 0#4 s with gmem := t.gmem, bitIdx := t.bitIdx } ∧
      (∀ i, i < 8 * s.opN.toNat → readG t (seqAddr s.opC.toNat i) =
        lsbWrite (readG s (seqAddr s.opC.toNat i)) ((readF s (i / 8)).getLsbD (7 - i % 8))) ∧
      (∀ a, (∀ i, i < 8 * s.opN.toNat → a ≠ seqAddr s.opC.toNat i) → readG t a = readG s a)

/-- R104, R120: the errors of EMBED, in their order; nothing but STATUS changes. -/
def Obligations.EmbedErrors : Prop :=
  ∀ s : State,
    (geomOk s = false → exec .embed s = .next (endedWith 6#4 s)) ∧
    (geomOk s = true → cap s ≤ 8 * s.opN.toNat → exec .embed s = .next (endedWith 1#4 s)) ∧
    (geomOk s = true → 8 * s.opN.toNat < cap s → s.params.frameBytes < s.opN.toNat →
      exec .embed s = .next (endedWith 5#4 s))

/-- R98, R104: EMBED computes the source's Embed: on success every sample of the image is that of Embed(g, F[0, N)),
alpha samples included. -/
def Obligations.EmbedRefinesSource : Prop :=
  ∀ s : State, geomOk s = true → 8 * s.opN.toNat < cap s → s.opN.toNat ≤ s.params.frameBytes →
    ∃ t g, exec .embed s = .next t ∧
      sourceEmbed s.opH.toNat s.opW.toNat (gridOf s) (frame s s.opN.toNat) = .ok g ∧
      ∀ row col ch, row < s.opH.toNat → col < s.opW.toNat → ch < s.opC.toNat →
        gridOf t row col ch = g row col ch

/-- R115 (the spec infers it from R104): at the command and in the source's function the capacity test is strict: CAP
bits or more fail, CAP - 1 bits succeed. -/
def Obligations.CapacityBoundary : Prop :=
  (∀ s : State, geomOk s = true → s.opN.toNat ≤ s.params.frameBytes →
    (cap s ≤ 8 * s.opN.toNat → ∃ t, exec .embed s = .next t ∧ t.errcode = 1#4 ∧ t.gmem = s.gmem) ∧
    (8 * s.opN.toNat + 1 = cap s → ∃ t, exec .embed s = .next t ∧ t.errcode = 0#4)) ∧
  (∀ (h w : Nat) (g : Grid) (fb : List Byte),
    (h * w * 3 ≤ (bitstream fb).length → sourceEmbed h w g fb = .error .capacityExceeded) ∧
    ((bitstream fb).length + 1 = h * w * 3 → ∃ g', sourceEmbed h w g fb = .ok g'))

/-- R106, R107: an EXTRACT_LENGTH on a grid of at least 32 slots sets PLEN to the first 32 bit slots, slot i being bit
31 - i, and changes nothing else but STATUS. -/
def Obligations.ExtractLengthCompletes : Prop :=
  ∀ s : State, geomOk s = true → 32 ≤ cap s →
    ∃ t, exec .extractLength s = .next t ∧
      t = { endedWith 0#4 s with plen := t.plen, bitIdx := t.bitIdx } ∧
      t.plen.toNat = prefixG s ∧ ∀ i, i < 32 → t.plen.getLsbD (31 - i) = slot s i

/-- R108: an EXTRACT_BITS that passes its checks packs bit slots 0 to T - 1, most significant bit first, into F[0, T /
8) and sets FLEN to T / 8; F from T / 8 on, G, PLEN and every other register but STATUS are as before. -/
def Obligations.ExtractBitsCompletes : Prop :=
  ∀ s : State, s.params.wf = true → geomOk s = true → s.opT.toNat % 8 = 0 → s.opT.toNat ≤ cap s →
    s.opT.toNat / 8 ≤ s.params.frameBytes →
    ∃ t, exec .extractBits s = .next t ∧
      t = { endedWith 0#4 s with fmem := t.fmem, flen := t.flen, acc := t.acc, bitIdx := t.bitIdx } ∧
      t.flen.toNat = s.opT.toNat / 8 ∧
      (∀ k m, k < s.opT.toNat / 8 → m < 8 → (readF t k).getLsbD (7 - m) = slot s (8 * k + m)) ∧
      (∀ a, s.opT.toNat / 8 ≤ a → readF t a = readF s a)

/-- R106, R108, R120: the errors of EXTRACT_LENGTH and EXTRACT_BITS, in their order; nothing but STATUS changes. -/
def Obligations.ExtractErrors : Prop :=
  ∀ s : State,
    (geomOk s = false → exec .extractLength s = .next (endedWith 6#4 s)) ∧
    (geomOk s = true → cap s < 32 → exec .extractLength s = .next (endedWith 2#4 s)) ∧
    (geomOk s = false → exec .extractBits s = .next (endedWith 6#4 s)) ∧
    (geomOk s = true → s.opT.toNat % 8 ≠ 0 → exec .extractBits s = .next (endedWith 7#4 s)) ∧
    (geomOk s = true → s.opT.toNat % 8 = 0 → cap s < s.opT.toNat →
      exec .extractBits s = .next (endedWith 2#4 s)) ∧
    (geomOk s = true → s.opT.toNat % 8 = 0 → s.opT.toNat ≤ cap s → s.params.frameBytes < s.opT.toNat / 8 →
      exec .extractBits s = .next (endedWith 5#4 s))

/-- R100, R108: EXTRACT_BITS computes the source's ExtractBits, and stops with its IndexOutOfBounds where it does. -/
def Obligations.ExtractBitsRefinesSource : Prop :=
  ∀ s : State, geomOk s = true → s.opT.toNat % 8 = 0 → s.opT.toNat / 8 ≤ s.params.frameBytes →
    ∃ t, exec .extractBits s = .next t ∧
      (t.errcode = 0#4 → sourceExtract s.opH.toNat s.opW.toNat (gridOf s) s.opT.toNat =
        .ok (frame t (s.opT.toNat / 8))) ∧
      (t.errcode ≠ 0#4 → t.errcode = 2#4 ∧
        sourceExtract s.opH.toNat s.opW.toNat (gridOf s) s.opT.toNat = .error .indexOutOfBounds)

/-- R110: a DECODE that passes its checks recovers the framed buffer into F[0, 4 + L), sets PLEN to L and FLEN to 4 + L,
and changes nothing else but STATUS: TRUNC in particular stays (R109). -/
def Obligations.DecodeCompletes : Prop :=
  ∀ s : State, s.params.wf = true → geomOk s = true → 32 + 8 * prefixG s ≤ cap s →
    4 + prefixG s ≤ s.params.frameBytes →
    ∃ t, exec .decode s = .next t ∧
      t = { endedWith 0#4 s with
            fmem := t.fmem, plen := t.plen, flen := t.flen, acc := t.acc, bitIdx := t.bitIdx } ∧
      t.plen.toNat = prefixG s ∧ t.flen.toNat = 4 + prefixG s ∧
      (∀ k m, k < 4 + prefixG s → m < 8 → (readF t k).getLsbD (7 - m) = slot s (8 * k + m)) ∧
      (∀ a, 4 + prefixG s ≤ a → readF t a = readF s a)

/-- R110, R120: the errors of DECODE, in their order; nothing but STATUS (and the hidden bit index) changes. -/
def Obligations.DecodeErrors : Prop :=
  ∀ s : State,
    (geomOk s = false → exec .decode s = .next (endedWith 6#4 s)) ∧
    (geomOk s = true → cap s < 32 → exec .decode s = .next (endedWith 2#4 s)) ∧
    (geomOk s = true → 32 ≤ cap s → cap s < 32 + 8 * prefixG s →
      ∃ t, exec .decode s = .next t ∧ t = { endedWith 2#4 s with bitIdx := t.bitIdx }) ∧
    (geomOk s = true → 32 + 8 * prefixG s ≤ cap s → s.params.frameBytes < 4 + prefixG s →
      ∃ t, exec .decode s = .next t ∧ t = { endedWith 5#4 s with bitIdx := t.bitIdx })

/-- R101, R110: DECODE computes the source's Decode: on success the payload is F[4, 4 + PLEN). -/
def Obligations.DecodeRefinesSource : Prop :=
  ∀ s : State, geomOk s = true → 32 + 8 * prefixG s ≤ cap s → 4 + prefixG s ≤ s.params.frameBytes →
    ∃ t, exec .decode s = .next t ∧ t.errcode = 0#4 ∧
      sourceDecode s.opH.toNat s.opW.toNat (gridOf s) =
        .ok ((List.range t.plen.toNat).map (fun k => readF t (4 + k)))

/-- R112: an ENCODE that passes its checks writes BE32(L) to F[0, 4), embeds F[0, 4 + L) as it then stands, sets FLEN to
4 + L, and changes nothing else but STATUS. -/
def Obligations.EncodeCompletes : Prop :=
  ∀ s : State, s.params.wf = true → geomOk s = true → 8 * (4 + s.opL.toNat) < cap s →
    4 + s.opL.toNat ≤ s.params.frameBytes →
    ∃ t, exec .encode s = .next t ∧
      t = { endedWith 0#4 s with fmem := t.fmem, gmem := t.gmem, flen := t.flen, bitIdx := t.bitIdx } ∧
      t.flen.toNat = 4 + s.opL.toNat ∧
      readF t 0 = s.opL.extractLsb' 24 8 ∧ readF t 1 = s.opL.extractLsb' 16 8 ∧
      readF t 2 = s.opL.extractLsb' 8 8 ∧ readF t 3 = s.opL.extractLsb' 0 8 ∧
      (∀ a, 4 ≤ a → readF t a = readF s a) ∧
      (∀ i, i < 8 * (4 + s.opL.toNat) → readG t (seqAddr s.opC.toNat i) =
        lsbWrite (readG s (seqAddr s.opC.toNat i)) ((readF t (i / 8)).getLsbD (7 - i % 8))) ∧
      (∀ a, (∀ i, i < 8 * (4 + s.opL.toNat) → a ≠ seqAddr s.opC.toNat i) → readG t a = readG s a)

/-- R112, R120: the errors of ENCODE, in their order; nothing but STATUS changes. -/
def Obligations.EncodeErrors : Prop :=
  ∀ s : State,
    (geomOk s = false → exec .encode s = .next (endedWith 6#4 s)) ∧
    (geomOk s = true → cap s ≤ 8 * (4 + s.opL.toNat) → exec .encode s = .next (endedWith 1#4 s)) ∧
    (geomOk s = true → 8 * (4 + s.opL.toNat) < cap s → s.params.frameBytes < 4 + s.opL.toNat →
      exec .encode s = .next (endedWith 5#4 s))

/-- R113 (which the spec marks as derived from R112, R104 and R75): ENCODE against SERIALIZE followed at once by EMBED,
from the same idle state with geom_ok true. -/
def Obligations.EncodeAgainstSerializeThenEmbed : Prop :=
  ∀ s : State, s.params.wf = true → geomOk (latchOperands s) = true →
    (∀ t u, runCmd .serialize s = .next t → t.errcode = 0#4 → runCmd .embed t = .next u → u.errcode = 0#4 →
      ∃ v, runCmd .encode s = .next v ∧ v.errcode = 0#4 ∧ v.fmem = u.fmem ∧ v.gmem = u.gmem ∧ v.flen = u.flen) ∧
    (cap (latchOperands s) ≤ 8 * (4 + s.plen.toNat) →
      (∃ v, runCmd .encode s = .next v ∧ v.errcode = 1#4 ∧ v.fmem = s.fmem ∧ v.gmem = s.gmem ∧
        v.plen = s.plen ∧ v.flen = s.flen) ∧
      (4 + s.plen.toNat ≤ s.params.frameBytes →
        ∃ t u, runCmd .serialize s = .next t ∧ t.errcode = 0#4 ∧ frame t 4 = be32 s.plen ∧
          t.flen.toNat = 4 + s.plen.toNat ∧ runCmd .embed t = .next u ∧ u.errcode = 1#4) ∧
      (s.params.frameBytes < 4 + s.plen.toNat →
        ∃ t, runCmd .serialize s = .next t ∧ t.errcode = 5#4)) ∧
    (8 * (4 + s.plen.toNat) < cap (latchOperands s) → s.params.frameBytes < 4 + s.plen.toNat →
      ∃ t v, runCmd .serialize s = .next t ∧ t.errcode = 5#4 ∧ t.fmem = s.fmem ∧ t.gmem = s.gmem ∧
        t.flen = s.flen ∧ runCmd .encode s = .next v ∧ v.errcode = 5#4 ∧ v.fmem = s.fmem ∧ v.gmem = s.gmem ∧
        v.flen = s.flen)

/-- R111, first sentence: Decode(Embed(g, serialize(p))) = p for every payload that fits. -/
def Obligations.SourceRoundTrip : Prop :=
  ∀ (h w : Nat) (g : Grid) (p : List Byte), p.length < 2 ^ 32 → 8 * (p.length + 4) < h * w * 3 →
    ∃ fb g', serialize p = .ok fb ∧ sourceEmbed h w g fb = .ok g' ∧ sourceDecode h w g' = .ok p

/-- R111 at the register level (the spec's inference from R94, R104, R107, R110 and R112): an ENCODE that succeeds,
then, with the grid, the platform, H, W and C as it left them and everything else as it may be, a DECODE: it succeeds
and F[4, 4 + PLEN) is the payload. -/
def Obligations.EncodeDecodeRoundTrip : Prop :=
  ∀ s t u : State, s.params.wf = true → runCmd .encode s = .next t → t.errcode = 0#4 →
    u.params = t.params → u.gmem = t.gmem → u.epoch = t.epoch → u.height = t.height → u.width = t.width →
    u.channels = t.channels →
    ∃ v, runCmd .decode u = .next v ∧ v.errcode = 0#4 ∧ v.trunc = false ∧ v.plen = s.plen ∧
      ∀ k, k < s.plen.toNat → readF v (4 + k) = readF s (4 + k)

/-- R107 (the spec's inference from R94 and R104): a grid written by a successful EMBED of at least four bytes gives
EXTRACT_LENGTH the prefix those bytes spell. -/
def Obligations.EmbedThenExtractLength : Prop :=
  ∀ s t : State, 4 ≤ s.flen.toNat → runCmd .embed s = .next t → t.errcode = 0#4 →
    ∃ u, runCmd .extractLength t = .next u ∧ u.errcode = 0#4 ∧ u.plen.toNat = fromBE (frame s 4)

/-- The empty payload (R114): of the functions, and of ENCODE with PLEN = 0 followed by DECODE (the spec's inference
from R110 and R112). -/
def Obligations.EmptyPayload : Prop :=
  serialize [] = .ok [0x00#8, 0x00#8, 0x00#8, 0x00#8] ∧
  (∀ (h w : Nat) (g : Grid), 33 ≤ h * w * 3 →
    ∃ g', sourceEmbed h w g [0x00#8, 0x00#8, 0x00#8, 0x00#8] = .ok g' ∧ sourceDecode h w g' = .ok []) ∧
  (∀ s : State, s.params.wf = true → geomOk (latchOperands s) = true → 33 ≤ cap (latchOperands s) →
    s.plen = 0#32 →
    ∃ t u, runCmd .encode s = .next t ∧ t.errcode = 0#4 ∧
      (∀ i, i < 32 → lsbRead (readG t (seqAddr s.channels.toNat i)) = false) ∧
      runCmd .decode t = .next u ∧ u.errcode = 0#4 ∧ u.plen = 0#32 ∧ u.flen = 4#32)

/-- R79 (the spec's inference from R75, R110 and R112): a successful SERIALIZE, DECODE or ENCODE leaves in F a frame
whose prefix is FLEN - 4. -/
def Obligations.PrefixInvariant : Prop :=
  ∀ (i : Instr) (s t : State), s.params.wf = true → i = .serialize ∨ i = .decode ∨ i = .encode →
    exec i s = .next t → t.errcode = 0#4 → fromBE (frame t 4) + 4 = t.flen.toNat

/-- R50 (the spec's inference from R49 and R84): with C = 4 no command writes an alpha sample, and none reads one:
whatever value an alpha sample holds, every register, F and every other sample come out the same. -/
def Obligations.AlphaSamplesNeverTouched : Prop :=
  ∀ (i : Instr) (s : State) (p : Nat) (b : Byte), s.opC = 4#3 →
    ∃ t u, exec i s = .next t ∧ exec i (writeG s (4 * p + 3) b) = .next u ∧
      readG t (4 * p + 3) = readG s (4 * p + 3) ∧ u = { t with gmem := u.gmem } ∧
      ∀ a, a ≠ 4 * p + 3 → readG u a = readG t a

/-! ### Every command -/

/-- R121, R116: every command, in every state, completes: BUSY 0, DONE 1, a code of R118, HAZ as it was. -/
def Obligations.EveryCommandCompletes : Prop :=
  ∀ (i : Instr) (s : State), ∃ t, exec i s = .next t ∧ t.busy = false ∧ t.done = true ∧ t.errcode.toNat ≤ 8 ∧
    t.haz = s.haz

/-- R123, R122 and R124 (the last two the spec's inferences from R121 and R123): a command that ends with an error has
written nothing: STATUS and the hidden bit index apart, the state
is that at its start. -/
def Obligations.ErrorLeavesNoMutation : Prop :=
  ∀ (i : Instr) (s t : State), exec i s = .next t → t.errcode ≠ 0#4 →
    t = { endedWith t.errcode s with bitIdx := t.bitIdx }

/-- R35, R25: what no command writes: HEIGHT, WIDTH, CHANNELS, XBITS, IRQEN, the latched operands, the reset input and
the model's own fields; TRUNC only by DESERIALIZE; F not by DESERIALIZE, EMBED and EXTRACT_LENGTH; G only by EMBED and
ENCODE; PLEN not by SERIALIZE, EMBED, EXTRACT_BITS and ENCODE; FLEN not by DESERIALIZE, EMBED and EXTRACT_LENGTH. -/
def Obligations.CommandsWriteOnlyTheirResults : Prop :=
  ∀ (i : Instr) (s t : State), exec i s = .next t →
    t = { s with
          busy := false, done := true, errcode := t.errcode, trunc := t.trunc, plen := t.plen, flen := t.flen,
          bitIdx := t.bitIdx, acc := t.acc, fmem := t.fmem, gmem := t.gmem } ∧
    (i ≠ .deserialize → t.trunc = s.trunc) ∧
    (i = .deserialize ∨ i = .embed ∨ i = .extractLength → t.fmem = s.fmem ∧ t.flen = s.flen) ∧
    (i ≠ .embed → i ≠ .encode → t.gmem = s.gmem) ∧
    (i = .serialize ∨ i = .embed ∨ i = .extractBits ∨ i = .encode → t.plen = s.plen)

/-- R118: which command can end with which code; OUT_OF_RANGE, ILLEGAL_CMD and the codes 9 to 15 with none of the seven.
-/
def Obligations.ErrorCodesByCommand : Prop :=
  ∀ (i : Instr) (s t : State), exec i s = .next t →
    t.errcode.toNat ∈ (match i with
      | .serialize => [0, 5]
      | .deserialize => [0, 4, 5]
      | .embed => [0, 1, 5, 6]
      | .extractLength => [0, 2, 6]
      | .extractBits => [0, 2, 5, 6, 7]
      | .decode => [0, 2, 5, 6]
      | .encode => [0, 1, 5, 6])

/-- R26, R68, R143: a running command sees neither HAZ nor any operand register (HEIGHT, WIDTH, CHANNELS, PLEN, FLEN,
XBITS_LO, XBITS_HI), only what was latched: with other values in them it ends in the same state, but for those values,
each left as it was where the command does not write it. A success of DESERIALIZE, EXTRACT_LENGTH and DECODE writes
PLEN, one of SERIALIZE, EXTRACT_BITS, DECODE and ENCODE writes FLEN. -/
def Obligations.RunningCommandUsesLatchedOperands : Prop :=
  ∀ (i : Instr) (s t : State) (hz : Bool) (h w : BitVec 16) (c : BitVec 3) (l n lo : Word) (hi : BitVec 4),
    exec i s = .next t →
    exec i { s with
        haz := hz, height := h, width := w, channels := c, plen := l, flen := n, xbitsLo := lo, xbitsHi := hi } =
      .next { t with
        haz := hz, height := h, width := w, channels := c, xbitsLo := lo, xbitsHi := hi,
        plen := if t.errcode = 0#4 ∧ (i = .deserialize ∨ i = .extractLength ∨ i = .decode) then t.plen else l,
        flen := if t.errcode = 0#4 ∧ (i = .serialize ∨ i = .extractBits ∨ i = .decode ∨ i = .encode) then t.flen
          else n }

/-! ### The step: engine -/

/-- A step runs the command whose word was accepted: at an engine event, or when no event is pending. The events are the
model's form of R129's interleaving (log 1), one step for a whole command that of R39 (log 2). -/
def Obligations.StepRunsAcceptedCommand : Prop :=
  ∀ (s : State) (i : Instr) (rest : List Event), s.rst = false → s.busy = true →
    Sys2Proof.decode s.engOp = .ok i →
    (s.inputs = .engine :: rest → step s = exec i { s with inputs := rest }) ∧
    (s.inputs = [] → step s = exec i s)

/-- R136, R137: an idle engine does nothing, and while rst is held the engine does not move. That a step with no event
pending is the engine's is log 1, the model's form of R151's fairness. -/
def Obligations.IdleEngineDoesNothing : Prop :=
  ∀ (s : State) (rest : List Event), s.rst = true ∨ s.busy = false →
    (s.inputs = .engine :: rest → step s = .next { s with inputs := rest }) ∧
    (s.inputs = [] → step s = .next s)

/-- R151, R132: no sequence of host transactions delays completion: after them all, one more step completes the running
command. R72: RUN of a command on an idle block with no event pending stays in POLL for as many reads as come before
the engine's step, and ends with the first read after it, in the state the command leaves and with STATUS, DONE set, as
the value read. That the engine moves when no event is pending is log 1, the model's form of R151's fairness; that its
one step completes the command is log 2. -/
def Obligations.HostCannotStopCompletion : Prop :=
  (∀ (ops : List BusOp) (s : State), s.rst = false → s.busy = true → s.inputs = ops.map .host →
    (∀ op ∈ ops, op.wellFormed s.params = true) →
    ∃ t, reachesIn (ops.length + 1) s t ∧ t.busy = false ∧ t.done = true ∧ t.inputs = []) ∧
  (∀ (i : Instr) (s : State) (k n : Nat) (gaps : List Nat), s.rst = false → s.busy = false → s.inputs = [] →
    hostRun i (List.replicate k 0) s = none ∧
    ∃ t, runCmd i s = .next t ∧
      hostRun i (List.replicate k 0 ++ (n + 1) :: gaps) s = some { t with rdata := statusWord t } ∧
      (statusWord t).getLsbD 1 = true)

/-! ### The step: host -/

/-- R119: accept. A host write of w to CMD while idle sets BUSY, clears DONE, TRUNC and ERRCODE, latches w and the
operands of R68, and leaves HAZ and every other register; while busy it is no accept (R143). -/
def Obligations.AcceptLatchesOperands : Prop :=
  ∀ (s : State) (w : Word) (rest : List Event), s.rst = false →
    s.inputs = .host (busWR s.params .cmd w) :: rest →
    (s.busy = false → ∃ t, step s = .next t ∧
      t = { s with
            inputs := rest, busy := true, done := false, trunc := false, errcode := 0#4, engOp := w,
            opH := s.height, opW := s.width, opC := s.channels, opL := s.plen, opN := s.flen, opT := t.opT,
            bitIdx := t.bitIdx } ∧
      t.opT.toNat = s.xbitsHi.toNat * 2 ^ 32 + s.xbitsLo.toNat) ∧
    (s.busy = true → step s = .next { s with inputs := rest, haz := true })

/-- R17, R21, R27 to R34: what a host write at each register's offset (but CMD's) does while idle: the field's bits are
taken, the other bits ignored; STATUS is write-1-to-clear on DONE and HAZ. -/
def Obligations.IdleRegisterWrites : Prop :=
  ∀ (s : State) (r : Reg) (off : Nat) (v : Word) (rest : List Event), s.rst = false → s.busy = false →
    (r, off) ∈ [(Reg.status, 0x04), (.irqen, 0x08), (.height, 0x0C), (.width, 0x10), (.channels, 0x14),
      (.plen, 0x18), (.flen, 0x1C), (.xbitsLo, 0x20), (.xbitsHi, 0x24)] →
    s.inputs = .host (.write32 (s.params.regBase + off) v) :: rest →
    ∃ t, step s = .next t ∧ t.inputs = rest ∧
      (r = .status → t = { s with inputs := rest, done := t.done, haz := t.haz } ∧
        (t.done = true ↔ s.done = true ∧ v.getLsbD 1 = false) ∧
        (t.haz = true ↔ s.haz = true ∧ v.getLsbD 3 = false)) ∧
      (r = .irqen → t = { s with inputs := rest, ie := v.getLsbD 0 }) ∧
      (r = .height → t = { s with inputs := rest, height := t.height } ∧ t.height.toNat = v.toNat % 2 ^ 16) ∧
      (r = .width → t = { s with inputs := rest, width := t.width } ∧ t.width.toNat = v.toNat % 2 ^ 16) ∧
      (r = .channels → t = { s with inputs := rest, channels := t.channels } ∧ t.channels.toNat = v.toNat % 8) ∧
      (r = .plen → t = { s with inputs := rest, plen := v }) ∧
      (r = .flen → t = { s with inputs := rest, flen := v }) ∧
      (r = .xbitsLo → t = { s with inputs := rest, xbitsLo := v }) ∧
      (r = .xbitsHi → t = { s with inputs := rest, xbitsHi := t.xbitsHi } ∧ t.xbitsHi.toNat = v.toNat % 16)

/-- R17, R20, R21, R27 to R34, R57, R145: the ten registers, each at its offset of R17, and what a host read there
answers, busy or not: CMD 0, STATUS its flags at their bits, every other register its field with reserved bits 0;
nothing but the answer changes. -/
def Obligations.RegisterReads : Prop :=
  ∀ (s : State) (r : Reg) (off : Nat) (rest : List Event), s.rst = false →
    (r, off) ∈ [(Reg.cmd, 0x00), (.status, 0x04), (.irqen, 0x08), (.height, 0x0C), (.width, 0x10), (.channels, 0x14),
      (.plen, 0x18), (.flen, 0x1C), (.xbitsLo, 0x20), (.xbitsHi, 0x24)] →
    s.inputs = .host (.read32 (s.params.regBase + off)) :: rest →
    Reg.offset r = off ∧ ∃ t, step s = .next t ∧ t = { s with inputs := rest, rdata := t.rdata } ∧
      t.rdata.toNat = (match r with
        | .cmd => 0
        | .status =>
          s.busy.toNat + 2 * s.done.toNat + 4 * s.trunc.toNat + 8 * s.haz.toNat + 256 * s.errcode.toNat
        | .irqen => s.ie.toNat
        | .height => s.height.toNat
        | .width => s.width.toNat
        | .channels => s.channels.toNat
        | .plen => s.plen.toNat
        | .flen => s.flen.toNat
        | .xbitsLo => s.xbitsLo.toNat
        | .xbitsHi => s.xbitsHi.toNat)

/-- R19: unmapped offsets read 0 and ignore writes, busy or not, without HAZ. -/
def Obligations.UnmappedOffsets : Prop :=
  ∀ (s : State) (off : Nat) (v : Word) (rest : List Event), s.rst = false →
    off ∈ [0x28, 0x2C, 0x30, 0x34, 0x38, 0x3C] →
    (s.inputs = .host (.read32 (s.params.regBase + off)) :: rest →
      step s = .next { s with inputs := rest, rdata := 0#32 }) ∧
    (s.inputs = .host (.write32 (s.params.regBase + off) v) :: rest → step s = .next { s with inputs := rest })

/-- R143: register writes while busy: dropped with HAZ, but STATUS and IRQEN act normally; the running command then
completes exactly as without the access, those flags apart. -/
def Obligations.BusyRegisterWrites : Prop :=
  ∀ (s t : State) (r : Reg) (v : Word) (rest : List Event), s.rst = false → s.busy = true →
    s.inputs = .host (busWR s.params r v) :: .engine :: rest →
    step { s with inputs := .engine :: rest } = .next t →
    ∃ m, step s = .next m ∧
      (r ≠ .status → r ≠ .irqen → m = { s with inputs := .engine :: rest, haz := true } ∧
        step m = .next { t with haz := true }) ∧
      (r = .status → m = { s with
          inputs := .engine :: rest, done := s.done && !v.getLsbD 1, haz := s.haz && !v.getLsbD 3 } ∧
        step m = .next { t with haz := s.haz && !v.getLsbD 3 }) ∧
      (r = .irqen → m = { s with inputs := .engine :: rest, ie := v.getLsbD 0 } ∧
        step m = .next { t with ie := v.getLsbD 0 })

/-- R144: accesses to F and G while busy: a write is dropped, a read answers an unspecified byte, each sets HAZ; the
running command then completes exactly as without the access. That the byte is the next free value, and one more is then
used up, is logs 8 and 11; that the upper 24 bits of the answer are 0 is log 10 (DESIGN CHOICE). -/
def Obligations.BusyMemoryAccesses : Prop :=
  ∀ (s t : State) (op : BusOp) (a : Nat) (b : Byte) (rest : List Event), s.params.wf = true → s.rst = false →
    s.busy = true → s.inputs = .host op :: .engine :: rest →
    step { s with inputs := .engine :: rest } = .next t →
    ((a < s.params.frameBytes ∧ op = busWRF s.params a b) ∨ (a < s.params.gridBytes ∧ op = busWRG s.params a b) →
      step s = .next { s with inputs := .engine :: rest, haz := true } ∧
      step { s with inputs := .engine :: rest, haz := true } = .next { t with haz := true }) ∧
    ((a < s.params.frameBytes ∧ op = busRDF s.params a) ∨ (a < s.params.gridBytes ∧ op = busRDG s.params a) →
      ∃ m, step s = .next m ∧
        m = { s with inputs := .engine :: rest, haz := true, rdata := m.rdata, draws := m.draws } ∧
        m.rdata.extractLsb' 0 8 = Config.busyRead s.draws ∧ m.rdata.extractLsb' 8 24 = 0#24 ∧
        m.draws = s.draws + 1 ∧ step m = .next { t with haz := true, rdata := m.rdata, draws := m.draws })

/-- R46, R48, R57: accesses to F and G while idle: a write changes that byte of that memory and nothing else, a read
answers the byte, in bits 7 to 0, and changes nothing. That the upper 24 bits of the answer are 0 is log 10 (DESIGN
CHOICE). -/
def Obligations.IdleMemoryAccesses : Prop :=
  ∀ (s : State) (op : BusOp) (a : Nat) (b : Byte) (rest : List Event), s.params.wf = true → s.rst = false →
    s.busy = false → s.inputs = .host op :: rest →
    (a < s.params.frameBytes → op = busWRF s.params a b →
      ∃ t, step s = .next t ∧ t = { s with inputs := rest, fmem := t.fmem } ∧ readF t a = b ∧
        ∀ x, x ≠ a → readF t x = readF s x) ∧
    (a < s.params.gridBytes → op = busWRG s.params a b →
      ∃ t, step s = .next t ∧ t = { s with inputs := rest, gmem := t.gmem } ∧ readG t a = b ∧
        ∀ x, x ≠ a → readG t x = readG s x) ∧
    (a < s.params.frameBytes → op = busRDF s.params a →
      ∃ t, step s = .next t ∧ t = { s with inputs := rest, rdata := t.rdata } ∧
        t.rdata.extractLsb' 0 8 = readF s a ∧ t.rdata.extractLsb' 8 24 = 0#24) ∧
    (a < s.params.gridBytes → op = busRDG s.params a →
      ∃ t, step s = .next t ∧ t = { s with inputs := rest, rdata := t.rdata } ∧
        t.rdata.extractLsb' 0 8 = readG s a ∧ t.rdata.extractLsb' 8 24 = 0#24)

/-- R18, R56, R58: which bus transactions have no meaning: a misaligned or byte access to the register window and a
32-bit access to F or G are refused; an address in none of the windows faults. The spec gives the host no such move;
that the model stops, and by these names, is log 14. -/
def Obligations.UnsupportedAccessesStop : Prop :=
  ∀ (s : State) (op : BusOp) (addr : Nat) (v : Word) (b : Byte) (rest : List Event), s.params.wf = true →
    s.inputs = .host op :: rest →
    (s.params.regBase ≤ addr → addr < s.params.regBase + 64 → (addr - s.params.regBase) % 4 ≠ 0 →
      op = .write32 addr v ∨ op = .read32 addr → step s = .refused (.unsupportedAccess op)) ∧
    (s.params.regBase ≤ addr → addr < s.params.regBase + 64 →
      op = .write8 addr b ∨ op = .read8 addr → step s = .refused (.unsupportedAccess op)) ∧
    ((s.params.fBase ≤ addr ∧ addr < s.params.fBase + s.params.frameBytes) ∨
      (s.params.gBase ≤ addr ∧ addr < s.params.gBase + s.params.gridBytes) →
      op = .write32 addr v ∨ op = .read32 addr → step s = .refused (.unsupportedAccess op)) ∧
    ((addr < s.params.regBase ∨ s.params.regBase + 64 ≤ addr) →
      (addr < s.params.fBase ∨ s.params.fBase + s.params.frameBytes ≤ addr) →
      (addr < s.params.gBase ∨ s.params.gBase + s.params.gridBytes ≤ addr) →
      op = .write32 addr v ∨ op = .read32 addr ∨ op = .write8 addr b ∨ op = .read8 addr →
      step s = .fault (.noSuchAddress addr))

/-! ### Flags and interrupt: only these events -/

/-- R22 (and R41, R137 for reset): BUSY rises only by the accept of a command, and falls only by its completion, in the
step that sets DONE, or by reset. -/
def Obligations.BusyChangesOnlyByAcceptAndCompletion : Prop :=
  ∀ s t : State, step s = .next t →
    (s.busy = false → t.busy = true →
      ∃ w rest, s.inputs = .host (busWR s.params .cmd w) :: rest) ∧
    (s.busy = true → t.busy = false →
      t.done = true ∨ ∃ m rest, s.inputs = .assertRst m :: rest)

/-- R26: HAZ rises only by a host access made while BUSY = 1 that R143 or R144 names, and falls only by a host write of
STATUS with bit 3 set or by reset. -/
def Obligations.HazChangesOnlyByProtocol : Prop :=
  ∀ s t : State, step s = .next t →
    (s.haz = false → t.haz = true → s.busy = true ∧ ∃ op a rest, s.inputs = .host op :: rest ∧
      busAccess s.params op = .ok a ∧
      ((∃ r v, a = .writeReg (Reg.offset r) v ∧ r ≠ .status ∧ r ≠ .irqen) ∨ (∃ x b, a = .writeF x b) ∨
        (∃ x, a = .readF x) ∨ (∃ x b, a = .writeG x b) ∨ (∃ x, a = .readG x))) ∧
    (s.haz = true → t.haz = false →
      (∃ v rest, s.inputs = .host (busWR s.params .status v) :: rest ∧ v.getLsbD 3 = true) ∨
      (∃ m rest, s.inputs = .assertRst m :: rest))

/-- R127: irq is DONE and IE; the completion of any accepted word leaves it equal to IE; once asserted it falls only
when DONE is cleared by a host write of STATUS bit 1, by an accept or by reset, or when IE is written 0. -/
def Obligations.InterruptLevel : Prop :=
  (∀ s : State, s.irq = true ↔ s.done = true ∧ s.ie = true) ∧
  (∀ (w : Word) (s t : State), runCommandWord w s = .next t → t.irq = s.ie) ∧
  (∀ s t : State, s.irq = true → step s = .next t → t.irq = false →
    (∃ v rest, s.inputs = .host (busWR s.params .status v) :: rest ∧ v.getLsbD 1 = true) ∨
    (∃ w rest, s.inputs = .host (busWR s.params .cmd w) :: rest) ∨
    (∃ v rest, s.inputs = .host (busWR s.params .irqen v) :: rest ∧ v.getLsbD 0 = false) ∨
    (∃ m rest, s.inputs = .assertRst m :: rest))

/-- R129 (events as in log 1): a host write of STATUS bit 1 and a completion are two steps in either order: write first
leaves DONE = 1, completion first leaves DONE = 0. -/
def Obligations.StatusWriteAgainstCompletion : Prop :=
  ∀ (s : State) (v : Word), s.rst = false → s.busy = true → v.getLsbD 1 = true →
    (s.inputs = [.host (busWR s.params .status v), .engine] →
      ∃ t, reachesIn 2 s t ∧ t.done = true ∧ t.busy = false) ∧
    (s.inputs = [.engine, .host (busWR s.params .status v)] →
      ∃ t, reachesIn 2 s t ∧ t.done = false ∧ t.busy = false)

/-! ### Reset -/

/-- R41: what every register reads after reset: STATUS, IRQEN and the operand registers 0, CHANNELS 3; in State.reset,
and after rst is asserted in any state. -/
def Obligations.ResetRegisterValues : Prop :=
  (∀ r : Reg, regWord State.reset r = if r = .channels then 3#32 else 0#32) ∧
  (∀ (s : State) (m : MemoryAtReset) (rest : List Event), s.inputs = .assertRst m :: rest →
    ∃ t, step s = .next t ∧ ∀ r : Reg, regWord t r = if r = .channels then 3#32 else 0#32)

/-- R137 (memories kept: log 6; reads while held: log 9): asserting rst on an idle block that keeps its memories writes
neither F nor G and deasserts irq; while rst is held a host access has no effect: only the answer of a read changes. R43:
after a reset that loses the memories (log 6), of a block idle or busy, every byte of F and G reads as a free value of
its own (log 5). R139: the release of rst changes nothing but rst (log 18). -/
def Obligations.ResetInputHeld : Prop :=
  (∀ (s : State) (lf lg : List Nat) (rest : List Event), s.busy = false →
    s.inputs = .assertRst (.kept lf lg) :: rest →
    ∃ t, step s = .next t ∧ t.rst = true ∧ t.busy = false ∧ t.irq = false ∧ t.inputs = rest ∧
      t.params = s.params ∧ (∀ a, readF t a = readF s a) ∧ (∀ a, readG t a = readG s a)) ∧
  (∀ (s : State) (op : BusOp) (rest : List Event), s.rst = true → op.wellFormed s.params = true →
    s.inputs = .host op :: rest →
    ∃ t, step s = .next t ∧ t = { s with inputs := rest, rdata := t.rdata, draws := t.draws }) ∧
  (∀ (s : State) (rest : List Event), s.inputs = .assertRst .lost :: rest →
    ∃ t, step s = .next t ∧ t.rst = true ∧ t.busy = false ∧ t.irq = false ∧ t.inputs = rest ∧ t.params = s.params ∧
      (∀ a, readF t a = Config.unwrittenF (s.epoch + 1) a) ∧ (∀ a, readG t a = Config.unwrittenG (s.epoch + 1) a)) ∧
  (∀ (s : State) (rest : List Event), s.inputs = .releaseRst :: rest →
    step s = .next { s with inputs := rest, rst := false })

/-- R138 (which writes had landed is said by the event: log 7): a reset during a command that keeps the memories: no
completion; each byte holds the value the completed command would have left where that write had landed, its old value
elsewhere; any set of landed writes can occur. -/
def Obligations.ResetDuringCommand : Prop :=
  ∀ (s u : State) (i : Instr) (lf lg : List Nat) (rest : List Event), s.memoriesOk = true → s.busy = true →
    Sys2Proof.decode s.engOp = .ok i → exec i { s with inputs := rest } = .next u →
    s.inputs = .assertRst (.kept lf lg) :: rest →
    ∃ t, step s = .next t ∧ t.busy = false ∧ t.done = false ∧
      (∀ a, readF t a = if a ∈ lf then readF u a else readF s a) ∧
      (∀ a, readG t a = if a ∈ lg then readG u a else readG s a)

/-! ### The invariant -/

/-- The invariant holds right after reset. -/
def Obligations.ResetMeetsInvariant : Prop := State.Inv State.reset

/-- Every step keeps the invariant, and the platform's parameters with it: memories canonical and inside their sizes;
while busy DONE, TRUNC and ERRCODE 0 and the operand registers as latched; ERRCODE a code of R118; the block quiet while
rst is held. -/
def Obligations.StepKeepsInvariant : Prop :=
  ∀ s t : State, State.Inv s → step s = .next t → State.Inv t ∧ t.params = s.params
end

