-- ==== Sys2Proof/Laws/State.lean ====
section
/-! SUPPORT. One lemma per field per named update of State, true by rfl, for simp. -/

namespace Sys2Proof.Machine

@[simp] theorem writeF_params (s : State) (a : Nat) (b : Byte) : (writeF s a b).params = s.params := rfl
@[simp] theorem writeF_busy (s : State) (a : Nat) (b : Byte) : (writeF s a b).busy = s.busy := rfl
@[simp] theorem writeF_done (s : State) (a : Nat) (b : Byte) : (writeF s a b).done = s.done := rfl
@[simp] theorem writeF_trunc (s : State) (a : Nat) (b : Byte) : (writeF s a b).trunc = s.trunc := rfl
@[simp] theorem writeF_haz (s : State) (a : Nat) (b : Byte) : (writeF s a b).haz = s.haz := rfl
@[simp] theorem writeF_errcode (s : State) (a : Nat) (b : Byte) : (writeF s a b).errcode = s.errcode := rfl
@[simp] theorem writeF_ie (s : State) (a : Nat) (b : Byte) : (writeF s a b).ie = s.ie := rfl
@[simp] theorem writeF_height (s : State) (a : Nat) (b : Byte) : (writeF s a b).height = s.height := rfl
@[simp] theorem writeF_width (s : State) (a : Nat) (b : Byte) : (writeF s a b).width = s.width := rfl
@[simp] theorem writeF_channels (s : State) (a : Nat) (b : Byte) : (writeF s a b).channels = s.channels := rfl
@[simp] theorem writeF_plen (s : State) (a : Nat) (b : Byte) : (writeF s a b).plen = s.plen := rfl
@[simp] theorem writeF_flen (s : State) (a : Nat) (b : Byte) : (writeF s a b).flen = s.flen := rfl
@[simp] theorem writeF_xbitsLo (s : State) (a : Nat) (b : Byte) : (writeF s a b).xbitsLo = s.xbitsLo := rfl
@[simp] theorem writeF_xbitsHi (s : State) (a : Nat) (b : Byte) : (writeF s a b).xbitsHi = s.xbitsHi := rfl
@[simp] theorem writeF_engOp (s : State) (a : Nat) (b : Byte) : (writeF s a b).engOp = s.engOp := rfl
@[simp] theorem writeF_bitIdx (s : State) (a : Nat) (b : Byte) : (writeF s a b).bitIdx = s.bitIdx := rfl
@[simp] theorem writeF_acc (s : State) (a : Nat) (b : Byte) : (writeF s a b).acc = s.acc := rfl
@[simp] theorem writeF_opH (s : State) (a : Nat) (b : Byte) : (writeF s a b).opH = s.opH := rfl
@[simp] theorem writeF_opW (s : State) (a : Nat) (b : Byte) : (writeF s a b).opW = s.opW := rfl
@[simp] theorem writeF_opC (s : State) (a : Nat) (b : Byte) : (writeF s a b).opC = s.opC := rfl
@[simp] theorem writeF_opL (s : State) (a : Nat) (b : Byte) : (writeF s a b).opL = s.opL := rfl
@[simp] theorem writeF_opN (s : State) (a : Nat) (b : Byte) : (writeF s a b).opN = s.opN := rfl
@[simp] theorem writeF_opT (s : State) (a : Nat) (b : Byte) : (writeF s a b).opT = s.opT := rfl
@[simp] theorem writeF_fmem (s : State) (a : Nat) (b : Byte) : (writeF s a b).fmem = Memory.put s.fmem a b := rfl
@[simp] theorem writeF_gmem (s : State) (a : Nat) (b : Byte) : (writeF s a b).gmem = s.gmem := rfl
@[simp] theorem writeF_rst (s : State) (a : Nat) (b : Byte) : (writeF s a b).rst = s.rst := rfl
@[simp] theorem writeF_rdata (s : State) (a : Nat) (b : Byte) : (writeF s a b).rdata = s.rdata := rfl
@[simp] theorem writeF_inputs (s : State) (a : Nat) (b : Byte) : (writeF s a b).inputs = s.inputs := rfl
@[simp] theorem writeF_epoch (s : State) (a : Nat) (b : Byte) : (writeF s a b).epoch = s.epoch := rfl
@[simp] theorem writeF_draws (s : State) (a : Nat) (b : Byte) : (writeF s a b).draws = s.draws := rfl

@[simp] theorem writeG_params (s : State) (a : Nat) (b : Byte) : (writeG s a b).params = s.params := rfl
@[simp] theorem writeG_busy (s : State) (a : Nat) (b : Byte) : (writeG s a b).busy = s.busy := rfl
@[simp] theorem writeG_done (s : State) (a : Nat) (b : Byte) : (writeG s a b).done = s.done := rfl
@[simp] theorem writeG_trunc (s : State) (a : Nat) (b : Byte) : (writeG s a b).trunc = s.trunc := rfl
@[simp] theorem writeG_haz (s : State) (a : Nat) (b : Byte) : (writeG s a b).haz = s.haz := rfl
@[simp] theorem writeG_errcode (s : State) (a : Nat) (b : Byte) : (writeG s a b).errcode = s.errcode := rfl
@[simp] theorem writeG_ie (s : State) (a : Nat) (b : Byte) : (writeG s a b).ie = s.ie := rfl
@[simp] theorem writeG_height (s : State) (a : Nat) (b : Byte) : (writeG s a b).height = s.height := rfl
@[simp] theorem writeG_width (s : State) (a : Nat) (b : Byte) : (writeG s a b).width = s.width := rfl
@[simp] theorem writeG_channels (s : State) (a : Nat) (b : Byte) : (writeG s a b).channels = s.channels := rfl
@[simp] theorem writeG_plen (s : State) (a : Nat) (b : Byte) : (writeG s a b).plen = s.plen := rfl
@[simp] theorem writeG_flen (s : State) (a : Nat) (b : Byte) : (writeG s a b).flen = s.flen := rfl
@[simp] theorem writeG_xbitsLo (s : State) (a : Nat) (b : Byte) : (writeG s a b).xbitsLo = s.xbitsLo := rfl
@[simp] theorem writeG_xbitsHi (s : State) (a : Nat) (b : Byte) : (writeG s a b).xbitsHi = s.xbitsHi := rfl
@[simp] theorem writeG_engOp (s : State) (a : Nat) (b : Byte) : (writeG s a b).engOp = s.engOp := rfl
@[simp] theorem writeG_bitIdx (s : State) (a : Nat) (b : Byte) : (writeG s a b).bitIdx = s.bitIdx := rfl
@[simp] theorem writeG_acc (s : State) (a : Nat) (b : Byte) : (writeG s a b).acc = s.acc := rfl
@[simp] theorem writeG_opH (s : State) (a : Nat) (b : Byte) : (writeG s a b).opH = s.opH := rfl
@[simp] theorem writeG_opW (s : State) (a : Nat) (b : Byte) : (writeG s a b).opW = s.opW := rfl
@[simp] theorem writeG_opC (s : State) (a : Nat) (b : Byte) : (writeG s a b).opC = s.opC := rfl
@[simp] theorem writeG_opL (s : State) (a : Nat) (b : Byte) : (writeG s a b).opL = s.opL := rfl
@[simp] theorem writeG_opN (s : State) (a : Nat) (b : Byte) : (writeG s a b).opN = s.opN := rfl
@[simp] theorem writeG_opT (s : State) (a : Nat) (b : Byte) : (writeG s a b).opT = s.opT := rfl
@[simp] theorem writeG_fmem (s : State) (a : Nat) (b : Byte) : (writeG s a b).fmem = s.fmem := rfl
@[simp] theorem writeG_gmem (s : State) (a : Nat) (b : Byte) : (writeG s a b).gmem = Memory.put s.gmem a b := rfl
@[simp] theorem writeG_rst (s : State) (a : Nat) (b : Byte) : (writeG s a b).rst = s.rst := rfl
@[simp] theorem writeG_rdata (s : State) (a : Nat) (b : Byte) : (writeG s a b).rdata = s.rdata := rfl
@[simp] theorem writeG_inputs (s : State) (a : Nat) (b : Byte) : (writeG s a b).inputs = s.inputs := rfl
@[simp] theorem writeG_epoch (s : State) (a : Nat) (b : Byte) : (writeG s a b).epoch = s.epoch := rfl
@[simp] theorem writeG_draws (s : State) (a : Nat) (b : Byte) : (writeG s a b).draws = s.draws := rfl

@[simp] theorem nextBit_params (s : State) : (nextBit s).params = s.params := rfl
@[simp] theorem nextBit_busy (s : State) : (nextBit s).busy = s.busy := rfl
@[simp] theorem nextBit_done (s : State) : (nextBit s).done = s.done := rfl
@[simp] theorem nextBit_trunc (s : State) : (nextBit s).trunc = s.trunc := rfl
@[simp] theorem nextBit_haz (s : State) : (nextBit s).haz = s.haz := rfl
@[simp] theorem nextBit_errcode (s : State) : (nextBit s).errcode = s.errcode := rfl
@[simp] theorem nextBit_ie (s : State) : (nextBit s).ie = s.ie := rfl
@[simp] theorem nextBit_height (s : State) : (nextBit s).height = s.height := rfl
@[simp] theorem nextBit_width (s : State) : (nextBit s).width = s.width := rfl
@[simp] theorem nextBit_channels (s : State) : (nextBit s).channels = s.channels := rfl
@[simp] theorem nextBit_plen (s : State) : (nextBit s).plen = s.plen := rfl
@[simp] theorem nextBit_flen (s : State) : (nextBit s).flen = s.flen := rfl
@[simp] theorem nextBit_xbitsLo (s : State) : (nextBit s).xbitsLo = s.xbitsLo := rfl
@[simp] theorem nextBit_xbitsHi (s : State) : (nextBit s).xbitsHi = s.xbitsHi := rfl
@[simp] theorem nextBit_engOp (s : State) : (nextBit s).engOp = s.engOp := rfl
@[simp] theorem nextBit_bitIdx (s : State) : (nextBit s).bitIdx = s.bitIdx + 1#36 := rfl
@[simp] theorem nextBit_acc (s : State) : (nextBit s).acc = s.acc := rfl
@[simp] theorem nextBit_opH (s : State) : (nextBit s).opH = s.opH := rfl
@[simp] theorem nextBit_opW (s : State) : (nextBit s).opW = s.opW := rfl
@[simp] theorem nextBit_opC (s : State) : (nextBit s).opC = s.opC := rfl
@[simp] theorem nextBit_opL (s : State) : (nextBit s).opL = s.opL := rfl
@[simp] theorem nextBit_opN (s : State) : (nextBit s).opN = s.opN := rfl
@[simp] theorem nextBit_opT (s : State) : (nextBit s).opT = s.opT := rfl
@[simp] theorem nextBit_fmem (s : State) : (nextBit s).fmem = s.fmem := rfl
@[simp] theorem nextBit_gmem (s : State) : (nextBit s).gmem = s.gmem := rfl
@[simp] theorem nextBit_rst (s : State) : (nextBit s).rst = s.rst := rfl
@[simp] theorem nextBit_rdata (s : State) : (nextBit s).rdata = s.rdata := rfl
@[simp] theorem nextBit_inputs (s : State) : (nextBit s).inputs = s.inputs := rfl
@[simp] theorem nextBit_epoch (s : State) : (nextBit s).epoch = s.epoch := rfl
@[simp] theorem nextBit_draws (s : State) : (nextBit s).draws = s.draws := rfl

@[simp] theorem startWalk_params (s : State) : (startWalk s).params = s.params := rfl
@[simp] theorem startWalk_busy (s : State) : (startWalk s).busy = s.busy := rfl
@[simp] theorem startWalk_done (s : State) : (startWalk s).done = s.done := rfl
@[simp] theorem startWalk_trunc (s : State) : (startWalk s).trunc = s.trunc := rfl
@[simp] theorem startWalk_haz (s : State) : (startWalk s).haz = s.haz := rfl
@[simp] theorem startWalk_errcode (s : State) : (startWalk s).errcode = s.errcode := rfl
@[simp] theorem startWalk_ie (s : State) : (startWalk s).ie = s.ie := rfl
@[simp] theorem startWalk_height (s : State) : (startWalk s).height = s.height := rfl
@[simp] theorem startWalk_width (s : State) : (startWalk s).width = s.width := rfl
@[simp] theorem startWalk_channels (s : State) : (startWalk s).channels = s.channels := rfl
@[simp] theorem startWalk_plen (s : State) : (startWalk s).plen = s.plen := rfl
@[simp] theorem startWalk_flen (s : State) : (startWalk s).flen = s.flen := rfl
@[simp] theorem startWalk_xbitsLo (s : State) : (startWalk s).xbitsLo = s.xbitsLo := rfl
@[simp] theorem startWalk_xbitsHi (s : State) : (startWalk s).xbitsHi = s.xbitsHi := rfl
@[simp] theorem startWalk_engOp (s : State) : (startWalk s).engOp = s.engOp := rfl
@[simp] theorem startWalk_bitIdx (s : State) : (startWalk s).bitIdx = 0#36 := rfl
@[simp] theorem startWalk_acc (s : State) : (startWalk s).acc = s.acc := rfl
@[simp] theorem startWalk_opH (s : State) : (startWalk s).opH = s.opH := rfl
@[simp] theorem startWalk_opW (s : State) : (startWalk s).opW = s.opW := rfl
@[simp] theorem startWalk_opC (s : State) : (startWalk s).opC = s.opC := rfl
@[simp] theorem startWalk_opL (s : State) : (startWalk s).opL = s.opL := rfl
@[simp] theorem startWalk_opN (s : State) : (startWalk s).opN = s.opN := rfl
@[simp] theorem startWalk_opT (s : State) : (startWalk s).opT = s.opT := rfl
@[simp] theorem startWalk_fmem (s : State) : (startWalk s).fmem = s.fmem := rfl
@[simp] theorem startWalk_gmem (s : State) : (startWalk s).gmem = s.gmem := rfl
@[simp] theorem startWalk_rst (s : State) : (startWalk s).rst = s.rst := rfl
@[simp] theorem startWalk_rdata (s : State) : (startWalk s).rdata = s.rdata := rfl
@[simp] theorem startWalk_inputs (s : State) : (startWalk s).inputs = s.inputs := rfl
@[simp] theorem startWalk_epoch (s : State) : (startWalk s).epoch = s.epoch := rfl
@[simp] theorem startWalk_draws (s : State) : (startWalk s).draws = s.draws := rfl

@[simp] theorem complete_params (s : State) : (complete s).params = s.params := rfl
@[simp] theorem complete_busy (s : State) : (complete s).busy = false := rfl
@[simp] theorem complete_done (s : State) : (complete s).done = true := rfl
@[simp] theorem complete_trunc (s : State) : (complete s).trunc = s.trunc := rfl
@[simp] theorem complete_haz (s : State) : (complete s).haz = s.haz := rfl
@[simp] theorem complete_errcode (s : State) : (complete s).errcode = 0#4 := rfl
@[simp] theorem complete_ie (s : State) : (complete s).ie = s.ie := rfl
@[simp] theorem complete_height (s : State) : (complete s).height = s.height := rfl
@[simp] theorem complete_width (s : State) : (complete s).width = s.width := rfl
@[simp] theorem complete_channels (s : State) : (complete s).channels = s.channels := rfl
@[simp] theorem complete_plen (s : State) : (complete s).plen = s.plen := rfl
@[simp] theorem complete_flen (s : State) : (complete s).flen = s.flen := rfl
@[simp] theorem complete_xbitsLo (s : State) : (complete s).xbitsLo = s.xbitsLo := rfl
@[simp] theorem complete_xbitsHi (s : State) : (complete s).xbitsHi = s.xbitsHi := rfl
@[simp] theorem complete_engOp (s : State) : (complete s).engOp = s.engOp := rfl
@[simp] theorem complete_bitIdx (s : State) : (complete s).bitIdx = s.bitIdx := rfl
@[simp] theorem complete_acc (s : State) : (complete s).acc = s.acc := rfl
@[simp] theorem complete_opH (s : State) : (complete s).opH = s.opH := rfl
@[simp] theorem complete_opW (s : State) : (complete s).opW = s.opW := rfl
@[simp] theorem complete_opC (s : State) : (complete s).opC = s.opC := rfl
@[simp] theorem complete_opL (s : State) : (complete s).opL = s.opL := rfl
@[simp] theorem complete_opN (s : State) : (complete s).opN = s.opN := rfl
@[simp] theorem complete_opT (s : State) : (complete s).opT = s.opT := rfl
@[simp] theorem complete_fmem (s : State) : (complete s).fmem = s.fmem := rfl
@[simp] theorem complete_gmem (s : State) : (complete s).gmem = s.gmem := rfl
@[simp] theorem complete_rst (s : State) : (complete s).rst = s.rst := rfl
@[simp] theorem complete_rdata (s : State) : (complete s).rdata = s.rdata := rfl
@[simp] theorem complete_inputs (s : State) : (complete s).inputs = s.inputs := rfl
@[simp] theorem complete_epoch (s : State) : (complete s).epoch = s.epoch := rfl
@[simp] theorem complete_draws (s : State) : (complete s).draws = s.draws := rfl

@[simp] theorem raiseError_params (e : CmdError) (s : State) : (raiseError e s).params = s.params := rfl
@[simp] theorem raiseError_busy (e : CmdError) (s : State) : (raiseError e s).busy = false := rfl
@[simp] theorem raiseError_done (e : CmdError) (s : State) : (raiseError e s).done = true := rfl
@[simp] theorem raiseError_trunc (e : CmdError) (s : State) : (raiseError e s).trunc = s.trunc := rfl
@[simp] theorem raiseError_haz (e : CmdError) (s : State) : (raiseError e s).haz = s.haz := rfl
@[simp] theorem raiseError_errcode (e : CmdError) (s : State) : (raiseError e s).errcode = e.code := rfl
@[simp] theorem raiseError_ie (e : CmdError) (s : State) : (raiseError e s).ie = s.ie := rfl
@[simp] theorem raiseError_height (e : CmdError) (s : State) : (raiseError e s).height = s.height := rfl
@[simp] theorem raiseError_width (e : CmdError) (s : State) : (raiseError e s).width = s.width := rfl
@[simp] theorem raiseError_channels (e : CmdError) (s : State) : (raiseError e s).channels = s.channels := rfl
@[simp] theorem raiseError_plen (e : CmdError) (s : State) : (raiseError e s).plen = s.plen := rfl
@[simp] theorem raiseError_flen (e : CmdError) (s : State) : (raiseError e s).flen = s.flen := rfl
@[simp] theorem raiseError_xbitsLo (e : CmdError) (s : State) : (raiseError e s).xbitsLo = s.xbitsLo := rfl
@[simp] theorem raiseError_xbitsHi (e : CmdError) (s : State) : (raiseError e s).xbitsHi = s.xbitsHi := rfl
@[simp] theorem raiseError_engOp (e : CmdError) (s : State) : (raiseError e s).engOp = s.engOp := rfl
@[simp] theorem raiseError_bitIdx (e : CmdError) (s : State) : (raiseError e s).bitIdx = s.bitIdx := rfl
@[simp] theorem raiseError_acc (e : CmdError) (s : State) : (raiseError e s).acc = s.acc := rfl
@[simp] theorem raiseError_opH (e : CmdError) (s : State) : (raiseError e s).opH = s.opH := rfl
@[simp] theorem raiseError_opW (e : CmdError) (s : State) : (raiseError e s).opW = s.opW := rfl
@[simp] theorem raiseError_opC (e : CmdError) (s : State) : (raiseError e s).opC = s.opC := rfl
@[simp] theorem raiseError_opL (e : CmdError) (s : State) : (raiseError e s).opL = s.opL := rfl
@[simp] theorem raiseError_opN (e : CmdError) (s : State) : (raiseError e s).opN = s.opN := rfl
@[simp] theorem raiseError_opT (e : CmdError) (s : State) : (raiseError e s).opT = s.opT := rfl
@[simp] theorem raiseError_fmem (e : CmdError) (s : State) : (raiseError e s).fmem = s.fmem := rfl
@[simp] theorem raiseError_gmem (e : CmdError) (s : State) : (raiseError e s).gmem = s.gmem := rfl
@[simp] theorem raiseError_rst (e : CmdError) (s : State) : (raiseError e s).rst = s.rst := rfl
@[simp] theorem raiseError_rdata (e : CmdError) (s : State) : (raiseError e s).rdata = s.rdata := rfl
@[simp] theorem raiseError_inputs (e : CmdError) (s : State) : (raiseError e s).inputs = s.inputs := rfl
@[simp] theorem raiseError_epoch (e : CmdError) (s : State) : (raiseError e s).epoch = s.epoch := rfl
@[simp] theorem raiseError_draws (e : CmdError) (s : State) : (raiseError e s).draws = s.draws := rfl

@[simp] theorem setHaz_params (s : State) : (setHaz s).params = s.params := rfl
@[simp] theorem setHaz_busy (s : State) : (setHaz s).busy = s.busy := rfl
@[simp] theorem setHaz_done (s : State) : (setHaz s).done = s.done := rfl
@[simp] theorem setHaz_trunc (s : State) : (setHaz s).trunc = s.trunc := rfl
@[simp] theorem setHaz_haz (s : State) : (setHaz s).haz = true := rfl
@[simp] theorem setHaz_errcode (s : State) : (setHaz s).errcode = s.errcode := rfl
@[simp] theorem setHaz_ie (s : State) : (setHaz s).ie = s.ie := rfl
@[simp] theorem setHaz_height (s : State) : (setHaz s).height = s.height := rfl
@[simp] theorem setHaz_width (s : State) : (setHaz s).width = s.width := rfl
@[simp] theorem setHaz_channels (s : State) : (setHaz s).channels = s.channels := rfl
@[simp] theorem setHaz_plen (s : State) : (setHaz s).plen = s.plen := rfl
@[simp] theorem setHaz_flen (s : State) : (setHaz s).flen = s.flen := rfl
@[simp] theorem setHaz_xbitsLo (s : State) : (setHaz s).xbitsLo = s.xbitsLo := rfl
@[simp] theorem setHaz_xbitsHi (s : State) : (setHaz s).xbitsHi = s.xbitsHi := rfl
@[simp] theorem setHaz_engOp (s : State) : (setHaz s).engOp = s.engOp := rfl
@[simp] theorem setHaz_bitIdx (s : State) : (setHaz s).bitIdx = s.bitIdx := rfl
@[simp] theorem setHaz_acc (s : State) : (setHaz s).acc = s.acc := rfl
@[simp] theorem setHaz_opH (s : State) : (setHaz s).opH = s.opH := rfl
@[simp] theorem setHaz_opW (s : State) : (setHaz s).opW = s.opW := rfl
@[simp] theorem setHaz_opC (s : State) : (setHaz s).opC = s.opC := rfl
@[simp] theorem setHaz_opL (s : State) : (setHaz s).opL = s.opL := rfl
@[simp] theorem setHaz_opN (s : State) : (setHaz s).opN = s.opN := rfl
@[simp] theorem setHaz_opT (s : State) : (setHaz s).opT = s.opT := rfl
@[simp] theorem setHaz_fmem (s : State) : (setHaz s).fmem = s.fmem := rfl
@[simp] theorem setHaz_gmem (s : State) : (setHaz s).gmem = s.gmem := rfl
@[simp] theorem setHaz_rst (s : State) : (setHaz s).rst = s.rst := rfl
@[simp] theorem setHaz_rdata (s : State) : (setHaz s).rdata = s.rdata := rfl
@[simp] theorem setHaz_inputs (s : State) : (setHaz s).inputs = s.inputs := rfl
@[simp] theorem setHaz_epoch (s : State) : (setHaz s).epoch = s.epoch := rfl
@[simp] theorem setHaz_draws (s : State) : (setHaz s).draws = s.draws := rfl

@[simp] theorem accept_params (w : Word) (s : State) : (accept w s).params = s.params := rfl
@[simp] theorem accept_busy (w : Word) (s : State) : (accept w s).busy = true := rfl
@[simp] theorem accept_done (w : Word) (s : State) : (accept w s).done = false := rfl
@[simp] theorem accept_trunc (w : Word) (s : State) : (accept w s).trunc = false := rfl
@[simp] theorem accept_haz (w : Word) (s : State) : (accept w s).haz = s.haz := rfl
@[simp] theorem accept_errcode (w : Word) (s : State) : (accept w s).errcode = 0#4 := rfl
@[simp] theorem accept_ie (w : Word) (s : State) : (accept w s).ie = s.ie := rfl
@[simp] theorem accept_height (w : Word) (s : State) : (accept w s).height = s.height := rfl
@[simp] theorem accept_width (w : Word) (s : State) : (accept w s).width = s.width := rfl
@[simp] theorem accept_channels (w : Word) (s : State) : (accept w s).channels = s.channels := rfl
@[simp] theorem accept_plen (w : Word) (s : State) : (accept w s).plen = s.plen := rfl
@[simp] theorem accept_flen (w : Word) (s : State) : (accept w s).flen = s.flen := rfl
@[simp] theorem accept_xbitsLo (w : Word) (s : State) : (accept w s).xbitsLo = s.xbitsLo := rfl
@[simp] theorem accept_xbitsHi (w : Word) (s : State) : (accept w s).xbitsHi = s.xbitsHi := rfl
@[simp] theorem accept_engOp (w : Word) (s : State) : (accept w s).engOp = w := rfl
@[simp] theorem accept_bitIdx (w : Word) (s : State) : (accept w s).bitIdx = 0#36 := rfl
@[simp] theorem accept_acc (w : Word) (s : State) : (accept w s).acc = s.acc := rfl
@[simp] theorem accept_opH (w : Word) (s : State) : (accept w s).opH = s.height := rfl
@[simp] theorem accept_opW (w : Word) (s : State) : (accept w s).opW = s.width := rfl
@[simp] theorem accept_opC (w : Word) (s : State) : (accept w s).opC = s.channels := rfl
@[simp] theorem accept_opL (w : Word) (s : State) : (accept w s).opL = s.plen := rfl
@[simp] theorem accept_opN (w : Word) (s : State) : (accept w s).opN = s.flen := rfl
@[simp] theorem accept_opT (w : Word) (s : State) : (accept w s).opT = operandT s := rfl
@[simp] theorem accept_fmem (w : Word) (s : State) : (accept w s).fmem = s.fmem := rfl
@[simp] theorem accept_gmem (w : Word) (s : State) : (accept w s).gmem = s.gmem := rfl
@[simp] theorem accept_rst (w : Word) (s : State) : (accept w s).rst = s.rst := rfl
@[simp] theorem accept_rdata (w : Word) (s : State) : (accept w s).rdata = s.rdata := rfl
@[simp] theorem accept_inputs (w : Word) (s : State) : (accept w s).inputs = s.inputs := rfl
@[simp] theorem accept_epoch (w : Word) (s : State) : (accept w s).epoch = s.epoch := rfl
@[simp] theorem accept_draws (w : Word) (s : State) : (accept w s).draws = s.draws := rfl

@[simp] theorem setPlen_params (v : Word) (s : State) : (setPlen v s).params = s.params := rfl
@[simp] theorem setPlen_busy (v : Word) (s : State) : (setPlen v s).busy = s.busy := rfl
@[simp] theorem setPlen_done (v : Word) (s : State) : (setPlen v s).done = s.done := rfl
@[simp] theorem setPlen_trunc (v : Word) (s : State) : (setPlen v s).trunc = s.trunc := rfl
@[simp] theorem setPlen_haz (v : Word) (s : State) : (setPlen v s).haz = s.haz := rfl
@[simp] theorem setPlen_errcode (v : Word) (s : State) : (setPlen v s).errcode = s.errcode := rfl
@[simp] theorem setPlen_ie (v : Word) (s : State) : (setPlen v s).ie = s.ie := rfl
@[simp] theorem setPlen_height (v : Word) (s : State) : (setPlen v s).height = s.height := rfl
@[simp] theorem setPlen_width (v : Word) (s : State) : (setPlen v s).width = s.width := rfl
@[simp] theorem setPlen_channels (v : Word) (s : State) : (setPlen v s).channels = s.channels := rfl
@[simp] theorem setPlen_plen (v : Word) (s : State) : (setPlen v s).plen = v := rfl
@[simp] theorem setPlen_flen (v : Word) (s : State) : (setPlen v s).flen = s.flen := rfl
@[simp] theorem setPlen_xbitsLo (v : Word) (s : State) : (setPlen v s).xbitsLo = s.xbitsLo := rfl
@[simp] theorem setPlen_xbitsHi (v : Word) (s : State) : (setPlen v s).xbitsHi = s.xbitsHi := rfl
@[simp] theorem setPlen_engOp (v : Word) (s : State) : (setPlen v s).engOp = s.engOp := rfl
@[simp] theorem setPlen_bitIdx (v : Word) (s : State) : (setPlen v s).bitIdx = s.bitIdx := rfl
@[simp] theorem setPlen_acc (v : Word) (s : State) : (setPlen v s).acc = s.acc := rfl
@[simp] theorem setPlen_opH (v : Word) (s : State) : (setPlen v s).opH = s.opH := rfl
@[simp] theorem setPlen_opW (v : Word) (s : State) : (setPlen v s).opW = s.opW := rfl
@[simp] theorem setPlen_opC (v : Word) (s : State) : (setPlen v s).opC = s.opC := rfl
@[simp] theorem setPlen_opL (v : Word) (s : State) : (setPlen v s).opL = s.opL := rfl
@[simp] theorem setPlen_opN (v : Word) (s : State) : (setPlen v s).opN = s.opN := rfl
@[simp] theorem setPlen_opT (v : Word) (s : State) : (setPlen v s).opT = s.opT := rfl
@[simp] theorem setPlen_fmem (v : Word) (s : State) : (setPlen v s).fmem = s.fmem := rfl
@[simp] theorem setPlen_gmem (v : Word) (s : State) : (setPlen v s).gmem = s.gmem := rfl
@[simp] theorem setPlen_rst (v : Word) (s : State) : (setPlen v s).rst = s.rst := rfl
@[simp] theorem setPlen_rdata (v : Word) (s : State) : (setPlen v s).rdata = s.rdata := rfl
@[simp] theorem setPlen_inputs (v : Word) (s : State) : (setPlen v s).inputs = s.inputs := rfl
@[simp] theorem setPlen_epoch (v : Word) (s : State) : (setPlen v s).epoch = s.epoch := rfl
@[simp] theorem setPlen_draws (v : Word) (s : State) : (setPlen v s).draws = s.draws := rfl

@[simp] theorem setFlen_params (v : Word) (s : State) : (setFlen v s).params = s.params := rfl
@[simp] theorem setFlen_busy (v : Word) (s : State) : (setFlen v s).busy = s.busy := rfl
@[simp] theorem setFlen_done (v : Word) (s : State) : (setFlen v s).done = s.done := rfl
@[simp] theorem setFlen_trunc (v : Word) (s : State) : (setFlen v s).trunc = s.trunc := rfl
@[simp] theorem setFlen_haz (v : Word) (s : State) : (setFlen v s).haz = s.haz := rfl
@[simp] theorem setFlen_errcode (v : Word) (s : State) : (setFlen v s).errcode = s.errcode := rfl
@[simp] theorem setFlen_ie (v : Word) (s : State) : (setFlen v s).ie = s.ie := rfl
@[simp] theorem setFlen_height (v : Word) (s : State) : (setFlen v s).height = s.height := rfl
@[simp] theorem setFlen_width (v : Word) (s : State) : (setFlen v s).width = s.width := rfl
@[simp] theorem setFlen_channels (v : Word) (s : State) : (setFlen v s).channels = s.channels := rfl
@[simp] theorem setFlen_plen (v : Word) (s : State) : (setFlen v s).plen = s.plen := rfl
@[simp] theorem setFlen_flen (v : Word) (s : State) : (setFlen v s).flen = v := rfl
@[simp] theorem setFlen_xbitsLo (v : Word) (s : State) : (setFlen v s).xbitsLo = s.xbitsLo := rfl
@[simp] theorem setFlen_xbitsHi (v : Word) (s : State) : (setFlen v s).xbitsHi = s.xbitsHi := rfl
@[simp] theorem setFlen_engOp (v : Word) (s : State) : (setFlen v s).engOp = s.engOp := rfl
@[simp] theorem setFlen_bitIdx (v : Word) (s : State) : (setFlen v s).bitIdx = s.bitIdx := rfl
@[simp] theorem setFlen_acc (v : Word) (s : State) : (setFlen v s).acc = s.acc := rfl
@[simp] theorem setFlen_opH (v : Word) (s : State) : (setFlen v s).opH = s.opH := rfl
@[simp] theorem setFlen_opW (v : Word) (s : State) : (setFlen v s).opW = s.opW := rfl
@[simp] theorem setFlen_opC (v : Word) (s : State) : (setFlen v s).opC = s.opC := rfl
@[simp] theorem setFlen_opL (v : Word) (s : State) : (setFlen v s).opL = s.opL := rfl
@[simp] theorem setFlen_opN (v : Word) (s : State) : (setFlen v s).opN = s.opN := rfl
@[simp] theorem setFlen_opT (v : Word) (s : State) : (setFlen v s).opT = s.opT := rfl
@[simp] theorem setFlen_fmem (v : Word) (s : State) : (setFlen v s).fmem = s.fmem := rfl
@[simp] theorem setFlen_gmem (v : Word) (s : State) : (setFlen v s).gmem = s.gmem := rfl
@[simp] theorem setFlen_rst (v : Word) (s : State) : (setFlen v s).rst = s.rst := rfl
@[simp] theorem setFlen_rdata (v : Word) (s : State) : (setFlen v s).rdata = s.rdata := rfl
@[simp] theorem setFlen_inputs (v : Word) (s : State) : (setFlen v s).inputs = s.inputs := rfl
@[simp] theorem setFlen_epoch (v : Word) (s : State) : (setFlen v s).epoch = s.epoch := rfl
@[simp] theorem setFlen_draws (v : Word) (s : State) : (setFlen v s).draws = s.draws := rfl

@[simp] theorem setTrunc_params (b : Bool) (s : State) : (setTrunc b s).params = s.params := rfl
@[simp] theorem setTrunc_busy (b : Bool) (s : State) : (setTrunc b s).busy = s.busy := rfl
@[simp] theorem setTrunc_done (b : Bool) (s : State) : (setTrunc b s).done = s.done := rfl
@[simp] theorem setTrunc_trunc (b : Bool) (s : State) : (setTrunc b s).trunc = b := rfl
@[simp] theorem setTrunc_haz (b : Bool) (s : State) : (setTrunc b s).haz = s.haz := rfl
@[simp] theorem setTrunc_errcode (b : Bool) (s : State) : (setTrunc b s).errcode = s.errcode := rfl
@[simp] theorem setTrunc_ie (b : Bool) (s : State) : (setTrunc b s).ie = s.ie := rfl
@[simp] theorem setTrunc_height (b : Bool) (s : State) : (setTrunc b s).height = s.height := rfl
@[simp] theorem setTrunc_width (b : Bool) (s : State) : (setTrunc b s).width = s.width := rfl
@[simp] theorem setTrunc_channels (b : Bool) (s : State) : (setTrunc b s).channels = s.channels := rfl
@[simp] theorem setTrunc_plen (b : Bool) (s : State) : (setTrunc b s).plen = s.plen := rfl
@[simp] theorem setTrunc_flen (b : Bool) (s : State) : (setTrunc b s).flen = s.flen := rfl
@[simp] theorem setTrunc_xbitsLo (b : Bool) (s : State) : (setTrunc b s).xbitsLo = s.xbitsLo := rfl
@[simp] theorem setTrunc_xbitsHi (b : Bool) (s : State) : (setTrunc b s).xbitsHi = s.xbitsHi := rfl
@[simp] theorem setTrunc_engOp (b : Bool) (s : State) : (setTrunc b s).engOp = s.engOp := rfl
@[simp] theorem setTrunc_bitIdx (b : Bool) (s : State) : (setTrunc b s).bitIdx = s.bitIdx := rfl
@[simp] theorem setTrunc_acc (b : Bool) (s : State) : (setTrunc b s).acc = s.acc := rfl
@[simp] theorem setTrunc_opH (b : Bool) (s : State) : (setTrunc b s).opH = s.opH := rfl
@[simp] theorem setTrunc_opW (b : Bool) (s : State) : (setTrunc b s).opW = s.opW := rfl
@[simp] theorem setTrunc_opC (b : Bool) (s : State) : (setTrunc b s).opC = s.opC := rfl
@[simp] theorem setTrunc_opL (b : Bool) (s : State) : (setTrunc b s).opL = s.opL := rfl
@[simp] theorem setTrunc_opN (b : Bool) (s : State) : (setTrunc b s).opN = s.opN := rfl
@[simp] theorem setTrunc_opT (b : Bool) (s : State) : (setTrunc b s).opT = s.opT := rfl
@[simp] theorem setTrunc_fmem (b : Bool) (s : State) : (setTrunc b s).fmem = s.fmem := rfl
@[simp] theorem setTrunc_gmem (b : Bool) (s : State) : (setTrunc b s).gmem = s.gmem := rfl
@[simp] theorem setTrunc_rst (b : Bool) (s : State) : (setTrunc b s).rst = s.rst := rfl
@[simp] theorem setTrunc_rdata (b : Bool) (s : State) : (setTrunc b s).rdata = s.rdata := rfl
@[simp] theorem setTrunc_inputs (b : Bool) (s : State) : (setTrunc b s).inputs = s.inputs := rfl
@[simp] theorem setTrunc_epoch (b : Bool) (s : State) : (setTrunc b s).epoch = s.epoch := rfl
@[simp] theorem setTrunc_draws (b : Bool) (s : State) : (setTrunc b s).draws = s.draws := rfl

@[simp] theorem skipBits_params (n : Nat) (s : State) : (skipBits n s).params = s.params := rfl
@[simp] theorem skipBits_busy (n : Nat) (s : State) : (skipBits n s).busy = s.busy := rfl
@[simp] theorem skipBits_done (n : Nat) (s : State) : (skipBits n s).done = s.done := rfl
@[simp] theorem skipBits_trunc (n : Nat) (s : State) : (skipBits n s).trunc = s.trunc := rfl
@[simp] theorem skipBits_haz (n : Nat) (s : State) : (skipBits n s).haz = s.haz := rfl
@[simp] theorem skipBits_errcode (n : Nat) (s : State) : (skipBits n s).errcode = s.errcode := rfl
@[simp] theorem skipBits_ie (n : Nat) (s : State) : (skipBits n s).ie = s.ie := rfl
@[simp] theorem skipBits_height (n : Nat) (s : State) : (skipBits n s).height = s.height := rfl
@[simp] theorem skipBits_width (n : Nat) (s : State) : (skipBits n s).width = s.width := rfl
@[simp] theorem skipBits_channels (n : Nat) (s : State) : (skipBits n s).channels = s.channels := rfl
@[simp] theorem skipBits_plen (n : Nat) (s : State) : (skipBits n s).plen = s.plen := rfl
@[simp] theorem skipBits_flen (n : Nat) (s : State) : (skipBits n s).flen = s.flen := rfl
@[simp] theorem skipBits_xbitsLo (n : Nat) (s : State) : (skipBits n s).xbitsLo = s.xbitsLo := rfl
@[simp] theorem skipBits_xbitsHi (n : Nat) (s : State) : (skipBits n s).xbitsHi = s.xbitsHi := rfl
@[simp] theorem skipBits_engOp (n : Nat) (s : State) : (skipBits n s).engOp = s.engOp := rfl
@[simp] theorem skipBits_bitIdx (n : Nat) (s : State) : (skipBits n s).bitIdx = s.bitIdx + BitVec.ofNat 36 n := rfl
@[simp] theorem skipBits_acc (n : Nat) (s : State) : (skipBits n s).acc = s.acc := rfl
@[simp] theorem skipBits_opH (n : Nat) (s : State) : (skipBits n s).opH = s.opH := rfl
@[simp] theorem skipBits_opW (n : Nat) (s : State) : (skipBits n s).opW = s.opW := rfl
@[simp] theorem skipBits_opC (n : Nat) (s : State) : (skipBits n s).opC = s.opC := rfl
@[simp] theorem skipBits_opL (n : Nat) (s : State) : (skipBits n s).opL = s.opL := rfl
@[simp] theorem skipBits_opN (n : Nat) (s : State) : (skipBits n s).opN = s.opN := rfl
@[simp] theorem skipBits_opT (n : Nat) (s : State) : (skipBits n s).opT = s.opT := rfl
@[simp] theorem skipBits_fmem (n : Nat) (s : State) : (skipBits n s).fmem = s.fmem := rfl
@[simp] theorem skipBits_gmem (n : Nat) (s : State) : (skipBits n s).gmem = s.gmem := rfl
@[simp] theorem skipBits_rst (n : Nat) (s : State) : (skipBits n s).rst = s.rst := rfl
@[simp] theorem skipBits_rdata (n : Nat) (s : State) : (skipBits n s).rdata = s.rdata := rfl
@[simp] theorem skipBits_inputs (n : Nat) (s : State) : (skipBits n s).inputs = s.inputs := rfl
@[simp] theorem skipBits_epoch (n : Nat) (s : State) : (skipBits n s).epoch = s.epoch := rfl
@[simp] theorem skipBits_draws (n : Nat) (s : State) : (skipBits n s).draws = s.draws := rfl

@[simp] theorem answer_params (v : Word) (s : State) : (answer v s).params = s.params := rfl
@[simp] theorem answer_busy (v : Word) (s : State) : (answer v s).busy = s.busy := rfl
@[simp] theorem answer_done (v : Word) (s : State) : (answer v s).done = s.done := rfl
@[simp] theorem answer_trunc (v : Word) (s : State) : (answer v s).trunc = s.trunc := rfl
@[simp] theorem answer_haz (v : Word) (s : State) : (answer v s).haz = s.haz := rfl
@[simp] theorem answer_errcode (v : Word) (s : State) : (answer v s).errcode = s.errcode := rfl
@[simp] theorem answer_ie (v : Word) (s : State) : (answer v s).ie = s.ie := rfl
@[simp] theorem answer_height (v : Word) (s : State) : (answer v s).height = s.height := rfl
@[simp] theorem answer_width (v : Word) (s : State) : (answer v s).width = s.width := rfl
@[simp] theorem answer_channels (v : Word) (s : State) : (answer v s).channels = s.channels := rfl
@[simp] theorem answer_plen (v : Word) (s : State) : (answer v s).plen = s.plen := rfl
@[simp] theorem answer_flen (v : Word) (s : State) : (answer v s).flen = s.flen := rfl
@[simp] theorem answer_xbitsLo (v : Word) (s : State) : (answer v s).xbitsLo = s.xbitsLo := rfl
@[simp] theorem answer_xbitsHi (v : Word) (s : State) : (answer v s).xbitsHi = s.xbitsHi := rfl
@[simp] theorem answer_engOp (v : Word) (s : State) : (answer v s).engOp = s.engOp := rfl
@[simp] theorem answer_bitIdx (v : Word) (s : State) : (answer v s).bitIdx = s.bitIdx := rfl
@[simp] theorem answer_acc (v : Word) (s : State) : (answer v s).acc = s.acc := rfl
@[simp] theorem answer_opH (v : Word) (s : State) : (answer v s).opH = s.opH := rfl
@[simp] theorem answer_opW (v : Word) (s : State) : (answer v s).opW = s.opW := rfl
@[simp] theorem answer_opC (v : Word) (s : State) : (answer v s).opC = s.opC := rfl
@[simp] theorem answer_opL (v : Word) (s : State) : (answer v s).opL = s.opL := rfl
@[simp] theorem answer_opN (v : Word) (s : State) : (answer v s).opN = s.opN := rfl
@[simp] theorem answer_opT (v : Word) (s : State) : (answer v s).opT = s.opT := rfl
@[simp] theorem answer_fmem (v : Word) (s : State) : (answer v s).fmem = s.fmem := rfl
@[simp] theorem answer_gmem (v : Word) (s : State) : (answer v s).gmem = s.gmem := rfl
@[simp] theorem answer_rst (v : Word) (s : State) : (answer v s).rst = s.rst := rfl
@[simp] theorem answer_rdata (v : Word) (s : State) : (answer v s).rdata = v := rfl
@[simp] theorem answer_inputs (v : Word) (s : State) : (answer v s).inputs = s.inputs := rfl
@[simp] theorem answer_epoch (v : Word) (s : State) : (answer v s).epoch = s.epoch := rfl
@[simp] theorem answer_draws (v : Word) (s : State) : (answer v s).draws = s.draws := rfl

@[simp] theorem nextDraw_params (s : State) : (nextDraw s).params = s.params := rfl
@[simp] theorem nextDraw_busy (s : State) : (nextDraw s).busy = s.busy := rfl
@[simp] theorem nextDraw_done (s : State) : (nextDraw s).done = s.done := rfl
@[simp] theorem nextDraw_trunc (s : State) : (nextDraw s).trunc = s.trunc := rfl
@[simp] theorem nextDraw_haz (s : State) : (nextDraw s).haz = s.haz := rfl
@[simp] theorem nextDraw_errcode (s : State) : (nextDraw s).errcode = s.errcode := rfl
@[simp] theorem nextDraw_ie (s : State) : (nextDraw s).ie = s.ie := rfl
@[simp] theorem nextDraw_height (s : State) : (nextDraw s).height = s.height := rfl
@[simp] theorem nextDraw_width (s : State) : (nextDraw s).width = s.width := rfl
@[simp] theorem nextDraw_channels (s : State) : (nextDraw s).channels = s.channels := rfl
@[simp] theorem nextDraw_plen (s : State) : (nextDraw s).plen = s.plen := rfl
@[simp] theorem nextDraw_flen (s : State) : (nextDraw s).flen = s.flen := rfl
@[simp] theorem nextDraw_xbitsLo (s : State) : (nextDraw s).xbitsLo = s.xbitsLo := rfl
@[simp] theorem nextDraw_xbitsHi (s : State) : (nextDraw s).xbitsHi = s.xbitsHi := rfl
@[simp] theorem nextDraw_engOp (s : State) : (nextDraw s).engOp = s.engOp := rfl
@[simp] theorem nextDraw_bitIdx (s : State) : (nextDraw s).bitIdx = s.bitIdx := rfl
@[simp] theorem nextDraw_acc (s : State) : (nextDraw s).acc = s.acc := rfl
@[simp] theorem nextDraw_opH (s : State) : (nextDraw s).opH = s.opH := rfl
@[simp] theorem nextDraw_opW (s : State) : (nextDraw s).opW = s.opW := rfl
@[simp] theorem nextDraw_opC (s : State) : (nextDraw s).opC = s.opC := rfl
@[simp] theorem nextDraw_opL (s : State) : (nextDraw s).opL = s.opL := rfl
@[simp] theorem nextDraw_opN (s : State) : (nextDraw s).opN = s.opN := rfl
@[simp] theorem nextDraw_opT (s : State) : (nextDraw s).opT = s.opT := rfl
@[simp] theorem nextDraw_fmem (s : State) : (nextDraw s).fmem = s.fmem := rfl
@[simp] theorem nextDraw_gmem (s : State) : (nextDraw s).gmem = s.gmem := rfl
@[simp] theorem nextDraw_rst (s : State) : (nextDraw s).rst = s.rst := rfl
@[simp] theorem nextDraw_rdata (s : State) : (nextDraw s).rdata = s.rdata := rfl
@[simp] theorem nextDraw_inputs (s : State) : (nextDraw s).inputs = s.inputs := rfl
@[simp] theorem nextDraw_epoch (s : State) : (nextDraw s).epoch = s.epoch := rfl
@[simp] theorem nextDraw_draws (s : State) : (nextDraw s).draws = s.draws + 1 := rfl

@[simp] theorem writeStatus_params (v : Word) (s : State) : (writeStatus v s).params = s.params := rfl
@[simp] theorem writeStatus_busy (v : Word) (s : State) : (writeStatus v s).busy = s.busy := rfl
@[simp] theorem writeStatus_done (v : Word) (s : State) : (writeStatus v s).done = (s.done && !v.getLsbD 1) := rfl
@[simp] theorem writeStatus_trunc (v : Word) (s : State) : (writeStatus v s).trunc = s.trunc := rfl
@[simp] theorem writeStatus_haz (v : Word) (s : State) : (writeStatus v s).haz = (s.haz && !v.getLsbD 3) := rfl
@[simp] theorem writeStatus_errcode (v : Word) (s : State) : (writeStatus v s).errcode = s.errcode := rfl
@[simp] theorem writeStatus_ie (v : Word) (s : State) : (writeStatus v s).ie = s.ie := rfl
@[simp] theorem writeStatus_height (v : Word) (s : State) : (writeStatus v s).height = s.height := rfl
@[simp] theorem writeStatus_width (v : Word) (s : State) : (writeStatus v s).width = s.width := rfl
@[simp] theorem writeStatus_channels (v : Word) (s : State) : (writeStatus v s).channels = s.channels := rfl
@[simp] theorem writeStatus_plen (v : Word) (s : State) : (writeStatus v s).plen = s.plen := rfl
@[simp] theorem writeStatus_flen (v : Word) (s : State) : (writeStatus v s).flen = s.flen := rfl
@[simp] theorem writeStatus_xbitsLo (v : Word) (s : State) : (writeStatus v s).xbitsLo = s.xbitsLo := rfl
@[simp] theorem writeStatus_xbitsHi (v : Word) (s : State) : (writeStatus v s).xbitsHi = s.xbitsHi := rfl
@[simp] theorem writeStatus_engOp (v : Word) (s : State) : (writeStatus v s).engOp = s.engOp := rfl
@[simp] theorem writeStatus_bitIdx (v : Word) (s : State) : (writeStatus v s).bitIdx = s.bitIdx := rfl
@[simp] theorem writeStatus_acc (v : Word) (s : State) : (writeStatus v s).acc = s.acc := rfl
@[simp] theorem writeStatus_opH (v : Word) (s : State) : (writeStatus v s).opH = s.opH := rfl
@[simp] theorem writeStatus_opW (v : Word) (s : State) : (writeStatus v s).opW = s.opW := rfl
@[simp] theorem writeStatus_opC (v : Word) (s : State) : (writeStatus v s).opC = s.opC := rfl
@[simp] theorem writeStatus_opL (v : Word) (s : State) : (writeStatus v s).opL = s.opL := rfl
@[simp] theorem writeStatus_opN (v : Word) (s : State) : (writeStatus v s).opN = s.opN := rfl
@[simp] theorem writeStatus_opT (v : Word) (s : State) : (writeStatus v s).opT = s.opT := rfl
@[simp] theorem writeStatus_fmem (v : Word) (s : State) : (writeStatus v s).fmem = s.fmem := rfl
@[simp] theorem writeStatus_gmem (v : Word) (s : State) : (writeStatus v s).gmem = s.gmem := rfl
@[simp] theorem writeStatus_rst (v : Word) (s : State) : (writeStatus v s).rst = s.rst := rfl
@[simp] theorem writeStatus_rdata (v : Word) (s : State) : (writeStatus v s).rdata = s.rdata := rfl
@[simp] theorem writeStatus_inputs (v : Word) (s : State) : (writeStatus v s).inputs = s.inputs := rfl
@[simp] theorem writeStatus_epoch (v : Word) (s : State) : (writeStatus v s).epoch = s.epoch := rfl
@[simp] theorem writeStatus_draws (v : Word) (s : State) : (writeStatus v s).draws = s.draws := rfl

@[simp] theorem writeIrqen_params (v : Word) (s : State) : (writeIrqen v s).params = s.params := rfl
@[simp] theorem writeIrqen_busy (v : Word) (s : State) : (writeIrqen v s).busy = s.busy := rfl
@[simp] theorem writeIrqen_done (v : Word) (s : State) : (writeIrqen v s).done = s.done := rfl
@[simp] theorem writeIrqen_trunc (v : Word) (s : State) : (writeIrqen v s).trunc = s.trunc := rfl
@[simp] theorem writeIrqen_haz (v : Word) (s : State) : (writeIrqen v s).haz = s.haz := rfl
@[simp] theorem writeIrqen_errcode (v : Word) (s : State) : (writeIrqen v s).errcode = s.errcode := rfl
@[simp] theorem writeIrqen_ie (v : Word) (s : State) : (writeIrqen v s).ie = v.getLsbD 0 := rfl
@[simp] theorem writeIrqen_height (v : Word) (s : State) : (writeIrqen v s).height = s.height := rfl
@[simp] theorem writeIrqen_width (v : Word) (s : State) : (writeIrqen v s).width = s.width := rfl
@[simp] theorem writeIrqen_channels (v : Word) (s : State) : (writeIrqen v s).channels = s.channels := rfl
@[simp] theorem writeIrqen_plen (v : Word) (s : State) : (writeIrqen v s).plen = s.plen := rfl
@[simp] theorem writeIrqen_flen (v : Word) (s : State) : (writeIrqen v s).flen = s.flen := rfl
@[simp] theorem writeIrqen_xbitsLo (v : Word) (s : State) : (writeIrqen v s).xbitsLo = s.xbitsLo := rfl
@[simp] theorem writeIrqen_xbitsHi (v : Word) (s : State) : (writeIrqen v s).xbitsHi = s.xbitsHi := rfl
@[simp] theorem writeIrqen_engOp (v : Word) (s : State) : (writeIrqen v s).engOp = s.engOp := rfl
@[simp] theorem writeIrqen_bitIdx (v : Word) (s : State) : (writeIrqen v s).bitIdx = s.bitIdx := rfl
@[simp] theorem writeIrqen_acc (v : Word) (s : State) : (writeIrqen v s).acc = s.acc := rfl
@[simp] theorem writeIrqen_opH (v : Word) (s : State) : (writeIrqen v s).opH = s.opH := rfl
@[simp] theorem writeIrqen_opW (v : Word) (s : State) : (writeIrqen v s).opW = s.opW := rfl
@[simp] theorem writeIrqen_opC (v : Word) (s : State) : (writeIrqen v s).opC = s.opC := rfl
@[simp] theorem writeIrqen_opL (v : Word) (s : State) : (writeIrqen v s).opL = s.opL := rfl
@[simp] theorem writeIrqen_opN (v : Word) (s : State) : (writeIrqen v s).opN = s.opN := rfl
@[simp] theorem writeIrqen_opT (v : Word) (s : State) : (writeIrqen v s).opT = s.opT := rfl
@[simp] theorem writeIrqen_fmem (v : Word) (s : State) : (writeIrqen v s).fmem = s.fmem := rfl
@[simp] theorem writeIrqen_gmem (v : Word) (s : State) : (writeIrqen v s).gmem = s.gmem := rfl
@[simp] theorem writeIrqen_rst (v : Word) (s : State) : (writeIrqen v s).rst = s.rst := rfl
@[simp] theorem writeIrqen_rdata (v : Word) (s : State) : (writeIrqen v s).rdata = s.rdata := rfl
@[simp] theorem writeIrqen_inputs (v : Word) (s : State) : (writeIrqen v s).inputs = s.inputs := rfl
@[simp] theorem writeIrqen_epoch (v : Word) (s : State) : (writeIrqen v s).epoch = s.epoch := rfl
@[simp] theorem writeIrqen_draws (v : Word) (s : State) : (writeIrqen v s).draws = s.draws := rfl

@[simp] theorem releaseReset_params (s : State) : (releaseReset s).params = s.params := rfl
@[simp] theorem releaseReset_busy (s : State) : (releaseReset s).busy = s.busy := rfl
@[simp] theorem releaseReset_done (s : State) : (releaseReset s).done = s.done := rfl
@[simp] theorem releaseReset_trunc (s : State) : (releaseReset s).trunc = s.trunc := rfl
@[simp] theorem releaseReset_haz (s : State) : (releaseReset s).haz = s.haz := rfl
@[simp] theorem releaseReset_errcode (s : State) : (releaseReset s).errcode = s.errcode := rfl
@[simp] theorem releaseReset_ie (s : State) : (releaseReset s).ie = s.ie := rfl
@[simp] theorem releaseReset_height (s : State) : (releaseReset s).height = s.height := rfl
@[simp] theorem releaseReset_width (s : State) : (releaseReset s).width = s.width := rfl
@[simp] theorem releaseReset_channels (s : State) : (releaseReset s).channels = s.channels := rfl
@[simp] theorem releaseReset_plen (s : State) : (releaseReset s).plen = s.plen := rfl
@[simp] theorem releaseReset_flen (s : State) : (releaseReset s).flen = s.flen := rfl
@[simp] theorem releaseReset_xbitsLo (s : State) : (releaseReset s).xbitsLo = s.xbitsLo := rfl
@[simp] theorem releaseReset_xbitsHi (s : State) : (releaseReset s).xbitsHi = s.xbitsHi := rfl
@[simp] theorem releaseReset_engOp (s : State) : (releaseReset s).engOp = s.engOp := rfl
@[simp] theorem releaseReset_bitIdx (s : State) : (releaseReset s).bitIdx = s.bitIdx := rfl
@[simp] theorem releaseReset_acc (s : State) : (releaseReset s).acc = s.acc := rfl
@[simp] theorem releaseReset_opH (s : State) : (releaseReset s).opH = s.opH := rfl
@[simp] theorem releaseReset_opW (s : State) : (releaseReset s).opW = s.opW := rfl
@[simp] theorem releaseReset_opC (s : State) : (releaseReset s).opC = s.opC := rfl
@[simp] theorem releaseReset_opL (s : State) : (releaseReset s).opL = s.opL := rfl
@[simp] theorem releaseReset_opN (s : State) : (releaseReset s).opN = s.opN := rfl
@[simp] theorem releaseReset_opT (s : State) : (releaseReset s).opT = s.opT := rfl
@[simp] theorem releaseReset_fmem (s : State) : (releaseReset s).fmem = s.fmem := rfl
@[simp] theorem releaseReset_gmem (s : State) : (releaseReset s).gmem = s.gmem := rfl
@[simp] theorem releaseReset_rst (s : State) : (releaseReset s).rst = false := rfl
@[simp] theorem releaseReset_rdata (s : State) : (releaseReset s).rdata = s.rdata := rfl
@[simp] theorem releaseReset_inputs (s : State) : (releaseReset s).inputs = s.inputs := rfl
@[simp] theorem releaseReset_epoch (s : State) : (releaseReset s).epoch = s.epoch := rfl
@[simp] theorem releaseReset_draws (s : State) : (releaseReset s).draws = s.draws := rfl

end Sys2Proof.Machine
end

