-- ==== Sys2Proof/Laws/Memory.lean ====
section
/-! SUPPORT. What the memory operations do, and that each keeps the canonical form. -/

namespace Sys2Proof.Machine

theorem Memory.byteAt_put_same (m : Memory) (a : Nat) (b : Byte) :
    Memory.byteAt (Memory.put m a b) a = some b := by
  induction m with
  | nil => simp [Memory.put, Memory.byteAt]
  | cons c rest ih =>
    obtain ⟨k, v⟩ := c
    unfold Memory.put
    split
    · simp [Memory.byteAt]
    · split
      · simp [Memory.byteAt]
      · simp [Memory.byteAt, *]

theorem Memory.byteAt_put_ne (m : Memory) {a a' : Nat} (b : Byte) (h : a' ≠ a) :
    Memory.byteAt (Memory.put m a b) a' = Memory.byteAt m a' := by
  induction m with
  | nil => simp [Memory.put, Memory.byteAt, h]
  | cons c rest ih =>
    obtain ⟨k, v⟩ := c
    unfold Memory.put
    split
    · rename_i hk
      by_cases h1 : a' < a
      · have h2 : a' ≠ k := by omega
        have h3 : a' < k := by omega
        simp [Memory.byteAt, h, h1, h2, h3]
      · simp [Memory.byteAt, h, h1]
    · split
      · rename_i hk
        subst hk
        simp [Memory.byteAt, h]
      · simp [Memory.byteAt, ih]

theorem Memory.byteAt_put (m : Memory) (a a' : Nat) (b : Byte) :
    Memory.byteAt (Memory.put m a b) a' = if a' = a then some b else Memory.byteAt m a' := by
  split
  · rename_i h
    rw [h, Memory.byteAt_put_same]
  · rename_i h
    rw [Memory.byteAt_put_ne m b h]

/-- Every address of the memory after a write is the written one or was there before. -/
theorem Memory.mem_put {m : Memory} {a : Nat} {b : Byte} {c : Host.Cell} (h : c ∈ Memory.put m a b) :
    c = (a, b) ∨ c ∈ m := by
  induction m with
  | nil => simpa [Memory.put] using h
  | cons d rest ih =>
    obtain ⟨k, v⟩ := d
    unfold Memory.put at h
    split at h
    · simpa using h
    · split at h
      · rcases List.mem_cons.1 h with h | h
        · exact .inl h
        · exact .inr (List.mem_cons_of_mem _ h)
      · rcases List.mem_cons.1 h with h | h
        · exact .inr (h ▸ List.mem_cons_self)
        · rcases ih h with h | h
          · exact .inl h
          · exact .inr (List.mem_cons_of_mem _ h)

/-- A write keeps the addresses strictly rising. -/
theorem Memory.put_wf {m : Memory} (h : Memory.wf m = true) (a : Nat) (b : Byte) :
    Memory.wf (Memory.put m a b) = true := by
  simp only [Memory.wf, decide_eq_true_eq] at *
  induction m with
  | nil => simp [Memory.put]
  | cons d rest ih =>
    obtain ⟨k, v⟩ := d
    rw [List.pairwise_cons] at h
    unfold Memory.put
    split
    · rename_i hk
      refine List.pairwise_cons.2 ⟨fun c hc => ?_, List.pairwise_cons.2 h⟩
      rcases List.mem_cons.1 hc with rfl | hc
      · exact hk
      · exact Nat.lt_trans hk (h.1 c hc)
    · split
      · rename_i hk
        subst hk
        exact List.pairwise_cons.2 ⟨h.1, h.2⟩
      · refine List.pairwise_cons.2 ⟨fun c hc => ?_, ih h.2⟩
        rcases Memory.mem_put hc with rfl | hc
        · show k < a
          omega
        · exact h.1 c hc

/-- A write inside the size keeps every address inside the size. -/
theorem Memory.put_below {m : Memory} {n : Nat} (h : Memory.below n m = true) {a : Nat} (ha : a < n) (b : Byte) :
    Memory.below n (Memory.put m a b) = true := by
  simp only [Memory.below, List.all_eq_true, decide_eq_true_eq] at *
  intro c hc
  rcases Memory.mem_put hc with rfl | hc
  · exact ha
  · exact h c hc

theorem Memory.mix_wf (new : Memory) (landed : List Nat) :
    ∀ old : Memory, Memory.wf old = true → Memory.wf (Memory.mix old new landed) = true := by
  induction new with
  | nil => intro old h; exact h
  | cons c rest ih =>
    intro old h
    unfold Memory.mix
    apply ih
    split
    · exact Memory.put_wf h _ _
    · exact h

theorem Memory.mix_below {n : Nat} (new : Memory) (landed : List Nat) :
    ∀ old : Memory, Memory.below n old = true → Memory.below n new = true →
      Memory.below n (Memory.mix old new landed) = true := by
  induction new with
  | nil => intro old h _; exact h
  | cons c rest ih =>
    intro old h hn
    simp only [Memory.below, List.all_cons, Bool.and_eq_true, decide_eq_true_eq] at hn
    unfold Memory.mix
    refine ih _ ?_ (by simpa [Memory.below] using hn.2)
    split
    · exact Memory.put_below h hn.1 _
    · exact h

/-- In canonical form an address below the first listed one is unlisted. -/
theorem Memory.byteAt_none_of_lt {m : Memory} {a : Nat} (h : ∀ c ∈ m, a < c.1) : Memory.byteAt m a = none := by
  cases m with
  | nil => rfl
  | cons c rest =>
    have := h c List.mem_cons_self
    have h2 : a ≠ c.1 := by omega
    simp [Memory.byteAt, h2, this]

/-- What a mix holds at an address: the new byte where the write had landed, the old one elsewhere. -/
theorem Memory.byteAt_mix (new : Memory) (landed : List Nat) (hw : Memory.wf new = true) (a : Nat) :
    ∀ old : Memory, Memory.byteAt (Memory.mix old new landed) a =
      if a ∈ landed ∧ (Memory.byteAt new a).isSome then Memory.byteAt new a else Memory.byteAt old a := by
  induction new with
  | nil => intro old; simp [Memory.mix, Memory.byteAt]
  | cons c rest ih =>
    intro old
    obtain ⟨k, v⟩ := c
    simp only [Memory.wf, decide_eq_true_eq, List.pairwise_cons] at hw
    have hr : Memory.wf rest = true := by simpa [Memory.wf] using hw.2
    unfold Memory.mix
    rw [ih hr]
    by_cases hk : a = k
    · subst hk
      have hn : Memory.byteAt rest a = none := Memory.byteAt_none_of_lt hw.1
      simp only [hn, Memory.byteAt, if_true]
      by_cases hl : a ∈ landed <;> simp [hl, Memory.byteAt_put_same]
    · have hold : Memory.byteAt (if landed.contains k = true then Memory.put old k v else old) a =
          Memory.byteAt old a := by
        split
        · exact Memory.byteAt_put_ne _ _ hk
        · rfl
      rw [hold]
      by_cases hlt : a < k
      · have hn : Memory.byteAt rest a = none :=
          Memory.byteAt_none_of_lt (fun c hc => Nat.lt_trans hlt (hw.1 c hc))
        simp [Memory.byteAt, hk, hlt, hn]
      · simp [Memory.byteAt, hk, hlt]

theorem readF_writeF (s : State) (a a' : Nat) (b : Byte) :
    readF (writeF s a b) a' = if a' = a then b else readF s a' := by
  unfold readF
  simp only [writeF_fmem, writeF_epoch, Memory.byteAt_put]
  split <;> rfl

theorem readG_writeG (s : State) (a a' : Nat) (b : Byte) :
    readG (writeG s a b) a' = if a' = a then b else readG s a' := by
  unfold readG
  simp only [writeG_gmem, writeG_epoch, Memory.byteAt_put]
  split <;> rfl

@[simp] theorem readG_writeF (s : State) (a a' : Nat) (b : Byte) : readG (writeF s a b) a' = readG s a' := rfl

@[simp] theorem readF_writeG (s : State) (a a' : Nat) (b : Byte) : readF (writeG s a b) a' = readF s a' := rfl

/-! The updates that leave both memories alone leave every byte as it reads. -/

@[simp] theorem readF_setPlen (v : Word) (s : State) (a : Nat) : readF (setPlen v s) a = readF s a := rfl
@[simp] theorem readG_setPlen (v : Word) (s : State) (a : Nat) : readG (setPlen v s) a = readG s a := rfl
@[simp] theorem readF_setFlen (v : Word) (s : State) (a : Nat) : readF (setFlen v s) a = readF s a := rfl
@[simp] theorem readG_setFlen (v : Word) (s : State) (a : Nat) : readG (setFlen v s) a = readG s a := rfl
@[simp] theorem readF_setTrunc (b : Bool) (s : State) (a : Nat) : readF (setTrunc b s) a = readF s a := rfl
@[simp] theorem readG_setTrunc (b : Bool) (s : State) (a : Nat) : readG (setTrunc b s) a = readG s a := rfl
@[simp] theorem readF_complete (s : State) (a : Nat) : readF (complete s) a = readF s a := rfl
@[simp] theorem readG_complete (s : State) (a : Nat) : readG (complete s) a = readG s a := rfl
@[simp] theorem readF_raiseError (e : CmdError) (s : State) (a : Nat) : readF (raiseError e s) a = readF s a := rfl
@[simp] theorem readG_raiseError (e : CmdError) (s : State) (a : Nat) : readG (raiseError e s) a = readG s a := rfl
@[simp] theorem readF_startWalk (s : State) (a : Nat) : readF (startWalk s) a = readF s a := rfl
@[simp] theorem readG_startWalk (s : State) (a : Nat) : readG (startWalk s) a = readG s a := rfl
@[simp] theorem readF_nextBit (s : State) (a : Nat) : readF (nextBit s) a = readF s a := rfl
@[simp] theorem readG_nextBit (s : State) (a : Nat) : readG (nextBit s) a = readG s a := rfl
@[simp] theorem readF_skipBits (n : Nat) (s : State) (a : Nat) : readF (skipBits n s) a = readF s a := rfl
@[simp] theorem readG_skipBits (n : Nat) (s : State) (a : Nat) : readG (skipBits n s) a = readG s a := rfl
@[simp] theorem readF_accept (w : Word) (s : State) (a : Nat) : readF (accept w s) a = readF s a := rfl
@[simp] theorem readG_accept (w : Word) (s : State) (a : Nat) : readG (accept w s) a = readG s a := rfl
@[simp] theorem readF_setHaz (s : State) (a : Nat) : readF (setHaz s) a = readF s a := rfl
@[simp] theorem readG_setHaz (s : State) (a : Nat) : readG (setHaz s) a = readG s a := rfl

/-- A run of byte writes to F changes F and nothing else. -/
theorem writeFBytes_frame (bytes : List Byte) : ∀ (s : State) (a : Nat),
    writeFBytes s a bytes = { s with fmem := (writeFBytes s a bytes).fmem } := by
  induction bytes with
  | nil => intro s a; rfl
  | cons b rest ih => intro s a; unfold writeFBytes; rw [ih]; rfl

/-- What F holds after a run of byte writes. -/
theorem readF_writeFBytes (bytes : List Byte) : ∀ (s : State) (a x : Nat),
    readF (writeFBytes s a bytes) x =
      if h : a ≤ x ∧ x - a < bytes.length then bytes[x - a] else readF s x := by
  induction bytes with
  | nil => intro s a x; simp [writeFBytes]
  | cons b rest ih =>
    intro s a x
    unfold writeFBytes
    rw [ih, readF_writeF]
    by_cases hx : x = a
    · subst hx
      have : ¬ x + 1 ≤ x := by omega
      simp [this]
    · by_cases hlt : a + 1 ≤ x
      · obtain ⟨d, rfl⟩ : ∃ d, x = a + 1 + d := ⟨x - (a + 1), by omega⟩
        have e1 : a + 1 + d - a = d + 1 := by omega
        have e2 : a + 1 + d - (a + 1) = d := by omega
        have e3 : a ≤ a + 1 + d := by omega
        simp only [e1, e2, e3, hlt, true_and, List.length_cons, Nat.add_lt_add_iff_right, List.getElem_cons_succ,
          if_neg hx]
      · have h1 : ¬ a ≤ x := by omega
        simp [hlt, h1, hx]

theorem writeFBytes_wf (bytes : List Byte) : ∀ (s : State) (a : Nat), Memory.wf s.fmem = true →
    Memory.wf (writeFBytes s a bytes).fmem = true := by
  induction bytes with
  | nil => intro s a h; exact h
  | cons b rest ih => intro s a h; exact ih _ _ (Memory.put_wf h a b)

theorem writeFBytes_below (n : Nat) (bytes : List Byte) : ∀ (s : State) (a : Nat), a + bytes.length ≤ n →
    Memory.below n s.fmem = true → Memory.below n (writeFBytes s a bytes).fmem = true := by
  induction bytes with
  | nil => intro s a _ h; exact h
  | cons b rest ih =>
    intro s a hn h
    simp only [List.length_cons] at hn
    exact ih _ _ (by omega) (Memory.put_below h (by omega) b)

/-- The memories right after reset are in canonical form. -/
theorem reset_memories_wf : Memory.wf State.reset.fmem = true ∧ Memory.wf State.reset.gmem = true := by decide

end Sys2Proof.Machine
end

