-- ==== Sys2Proof/Laws/Framer.lean ====
section
/-! SUPPORT. The framer's functions: big-endian words, and the prefix in F. -/

namespace Sys2Proof.Machine

theorem be32_length (v : Word) : (be32 v).length = 4 := rfl

/-- `fromBE(BE32(v)) = v` (R10). -/
theorem fromBE_be32 (v : Word) : fromBE (be32 v) = v.toNat := by
  have := v.isLt
  simp only [be32, fromBE, List.length_cons, List.length_nil, BitVec.extractLsb'_toNat, Nat.shiftRight_eq_div_pow]
  omega

theorem fromBE_lt (bytes : List Byte) : fromBE bytes < 256 ^ bytes.length := by
  induction bytes with
  | nil => simp [fromBE]
  | cons b rest ih =>
    have hb := b.isLt
    have : (b.toNat + 1) * 256 ^ rest.length ≤ 256 * 256 ^ rest.length := Nat.mul_le_mul_right _ (by omega)
    rw [fromBE, List.length_cons, pow_succ, Nat.mul_comm (256 ^ rest.length) b.toNat]
    rw [Nat.add_mul] at this
    omega

/-- The prefix in F, byte by byte (R53). -/
theorem prefixF_eq (s : State) : prefixF s =
    (readF s 0).toNat * 2 ^ 24 + (readF s 1).toNat * 2 ^ 16 + (readF s 2).toNat * 2 ^ 8 + (readF s 3).toNat := by
  unfold prefixF frame
  simp only [List.range_succ, List.range_zero, List.nil_append, List.cons_append, List.map_cons, List.map_nil, fromBE,
    List.length_cons, List.length_nil]
  omega

theorem prefixF_lt (s : State) : prefixF s < 2 ^ 32 := by
  have := fromBE_lt (frame s 4)
  simpa [prefixF, frame] using this

theorem prefixF_congr {s t : State} (h : ∀ a, a < 4 → readF t a = readF s a) : prefixF t = prefixF s := by
  rw [prefixF_eq, prefixF_eq, h 0 (by omega), h 1 (by omega), h 2 (by omega), h 3 (by omega)]

/-- The prefix of F whose first four bytes are those of BE32(v) is v. -/
theorem prefixF_of_be32 {s : State} (v : Word) (h : frame s 4 = be32 v) : prefixF s = v.toNat := by
  unfold prefixF
  rw [h, fromBE_be32]

theorem writePrefix_frame (s : State) : writePrefix s = { s with fmem := (writePrefix s).fmem } :=
  writeFBytes_frame _ _ _

/-- F after the prefix is written: BE32(L) in F[0, 4), the rest as it was (R75). -/
theorem readF_writePrefix (s : State) (a : Nat) :
    readF (writePrefix s) a = if h : a < 4 then (be32 s.opL)[a] else readF s a := by
  unfold writePrefix
  rw [readF_writeFBytes]
  by_cases h : a < 4
  · simp only [be32_length, Nat.zero_le, Nat.sub_zero, true_and, h, dite_true]
    rfl
  · simp only [be32_length, Nat.zero_le, Nat.sub_zero, true_and, h, dite_false]

theorem frame_writePrefix (s : State) : frame (writePrefix s) 4 = be32 s.opL := by
  simp only [frame, List.range_succ, List.range_zero, List.nil_append, List.cons_append, List.map_cons, List.map_nil]
  simp [readF_writePrefix, be32]

theorem prefixF_writePrefix (s : State) : prefixF (writePrefix s) = s.opL.toNat :=
  prefixF_of_be32 _ (frame_writePrefix s)

end Sys2Proof.Machine
end

