-- ==== Sys2Proof/Laws/Sequencer.lean ====
section
/-! SUPPORT. The address generator: distinct indices give distinct addresses, and in-range indices stay inside G. -/

namespace Sys2Proof.Machine

theorem seqAddr_div {c : Nat} (hc : 3 ≤ c) (i : Nat) : seqAddr c i / c = i / 3 := by
  have h3 : i % 3 < c := by omega
  unfold seqAddr
  rw [Nat.mul_comm, Nat.mul_add_div (by omega), Nat.div_eq_of_lt h3, Nat.add_zero]

theorem seqAddr_mod {c : Nat} (hc : 3 ≤ c) (i : Nat) : seqAddr c i % c = i % 3 := by
  have h3 : i % 3 < c := by omega
  unfold seqAddr
  rw [Nat.mul_comm, Nat.mul_add_mod, Nat.mod_eq_of_lt h3]

/-- Distinct bit indices address distinct samples (R85). -/
theorem seqAddr_inj {c : Nat} (hc : 3 ≤ c) {i j : Nat} (h : seqAddr c i = seqAddr c j) : i = j := by
  have h1 : i / 3 = j / 3 := by rw [← seqAddr_div hc i, ← seqAddr_div hc j, h]
  have h2 : i % 3 = j % 3 := by rw [← seqAddr_mod hc i, ← seqAddr_mod hc j, h]
  omega

/-- An in-range index addresses a sample of the image (R51). -/
theorem seqAddr_lt {c h w i : Nat} (hc : 3 ≤ c) (hi : i < capacity h w) : seqAddr c i < h * w * c := by
  unfold capacity at hi
  have h1 : i / 3 < h * w := by omega
  have h2 : i % 3 < c := by omega
  unfold seqAddr
  calc i / 3 * c + i % 3 < i / 3 * c + c := by omega
    _ = (i / 3 + 1) * c := by ring
    _ ≤ h * w * c := Nat.mul_le_mul_right c h1

/-- What `geom_ok` says (R51). -/
theorem geomOk_iff (s : State) :
    geomOk s = true ↔ (s.opC.toNat = 3 ∨ s.opC.toNat = 4) ∧
      s.opH.toNat * s.opW.toNat * s.opC.toNat ≤ s.params.gridBytes := by
  have e3 : s.opC = 3#3 ↔ s.opC.toNat = 3 := BitVec.toNat_inj.symm
  have e4 : s.opC = 4#3 ↔ s.opC.toNat = 4 := BitVec.toNat_inj.symm
  simp [geomOk, e3, e4]

theorem geomOk_three_le {s : State} (h : geomOk s = true) : 3 ≤ s.opC.toNat := by
  rcases (geomOk_iff s).1 h with ⟨h | h, _⟩ <;> omega

/-- Under `geom_ok` every in-range index addresses a byte of G (R51). -/
theorem seqAddr_lt_gridBytes {s : State} (h : geomOk s = true) {i : Nat} (hi : i < cap s) :
    seqAddr s.opC.toNat i < s.params.gridBytes :=
  Nat.lt_of_lt_of_le (seqAddr_lt (geomOk_three_le h) hi) ((geomOk_iff s).1 h).2

/-- CAP is below 2^34 (R90). -/
theorem cap_lt (s : State) : cap s < 2 ^ 34 := by
  have hh : s.opH.toNat ≤ 65535 := by have := s.opH.isLt; omega
  have hw : s.opW.toNat ≤ 65535 := by have := s.opW.isLt; omega
  have := Nat.mul_le_mul hh hw
  unfold cap capacity
  omega

end Sys2Proof.Machine
end

