-- ==== Sys2Proof/Laws/Lsb.lean ====
section
/-! SUPPORT. What LSBX's datapath and the engine's loops over it do. -/

namespace Sys2Proof.Machine

/-! ### Bits and bytes -/

theorem byteBits_foldl_shiftIn : ∀ b : Byte, (byteBits b).foldl shiftIn 0#8 = b := by decide

theorem byteBits_length (b : Byte) : (byteBits b).length = 8 := rfl

theorem byteBits_getElem (b : Byte) (m : Nat) (hm : m < (byteBits b).length) :
    (byteBits b)[m] = b.getLsbD (7 - m) := by
  have : m < 8 := hm
  interval_cases m <;> rfl

/-- The value of a bit sequence, most significant bit first. -/
def natOfBits (bits : List Bool) : Nat := bits.foldl (fun v b => 2 * v + b.toNat) 0

theorem natOfBits_foldl (bits : List Bool) : ∀ v, bits.foldl (fun v b => 2 * v + b.toNat) v =
    v * 2 ^ bits.length + natOfBits bits := by
  induction bits with
  | nil => intro v; simp [natOfBits]
  | cons b rest ih =>
    intro v
    have h0 := ih (2 * 0 + b.toNat)
    unfold natOfBits
    simp only [List.foldl_cons, List.length_cons]
    rw [ih, h0, pow_succ]
    ring

theorem natOfBits_cons (b : Bool) (rest : List Bool) :
    natOfBits (b :: rest) = b.toNat * 2 ^ rest.length + natOfBits rest := by
  have := natOfBits_foldl rest (2 * 0 + b.toNat)
  simpa [natOfBits] using this

theorem natOfBits_append (xs ys : List Bool) :
    natOfBits (xs ++ ys) = natOfBits xs * 2 ^ ys.length + natOfBits ys := by
  have := natOfBits_foldl ys (natOfBits xs)
  simpa [natOfBits, List.foldl_append] using this

theorem natOfBits_lt (bits : List Bool) : natOfBits bits < 2 ^ bits.length := by
  induction bits with
  | nil => simp [natOfBits]
  | cons b rest ih =>
    rw [natOfBits_cons, List.length_cons, pow_succ]
    cases b <;> simp <;> omega

theorem shiftIn_toNat_eight : ∀ b7 b6 b5 b4 b3 b2 b1 b0 : Bool,
    ([b7, b6, b5, b4, b3, b2, b1, b0].foldl shiftIn 0#8).toNat = natOfBits [b7, b6, b5, b4, b3, b2, b1, b0] := by
  decide

theorem byteBits_shiftIn_eight : ∀ b7 b6 b5 b4 b3 b2 b1 b0 : Bool,
    byteBits ([b7, b6, b5, b4, b3, b2, b1, b0].foldl shiftIn 0#8) = [b7, b6, b5, b4, b3, b2, b1, b0] := by
  decide

theorem pack_eight_append {g : List Bool} (hg : g.length = 8) (rest : List Bool) :
    pack (g ++ rest) = g.foldl shiftIn 0#8 :: pack rest := by
  match g, hg with
  | [_, _, _, _, _, _, _, _], _ => rfl

theorem pack_byteBits_append (b : Byte) (rest : List Bool) : pack (byteBits b ++ rest) = b :: pack rest := by
  rw [pack_eight_append (byteBits_length b), byteBits_foldl_shiftIn]

theorem toNat_eight {g : List Bool} (hg : g.length = 8) : (g.foldl shiftIn 0#8).toNat = natOfBits g := by
  match g, hg with
  | [b7, b6, b5, b4, b3, b2, b1, b0], _ => exact shiftIn_toNat_eight b7 b6 b5 b4 b3 b2 b1 b0

theorem byteBits_eight {g : List Bool} (hg : g.length = 8) : byteBits (g.foldl shiftIn 0#8) = g := by
  match g, hg with
  | [b7, b6, b5, b4, b3, b2, b1, b0], _ => exact byteBits_shiftIn_eight b7 b6 b5 b4 b3 b2 b1 b0

theorem pack_length (n : Nat) : ∀ bits : List Bool, bits.length = 8 * n → (pack bits).length = n := by
  induction n with
  | zero => intro bits h; rw [List.length_eq_zero_iff.1 (by omega : bits.length = 0)]; rfl
  | succ n ih =>
    intro bits h
    rw [← List.take_append_drop 8 bits, pack_eight_append (by rw [List.length_take]; omega), List.length_cons, ih]
    rw [List.length_drop]
    omega

/-- A packed sequence of whole bytes, read big-endian, is the sequence's value (R99). -/
theorem fromBE_pack (n : Nat) : ∀ bits : List Bool, bits.length = 8 * n → fromBE (pack bits) = natOfBits bits := by
  induction n with
  | zero => intro bits h; rw [List.length_eq_zero_iff.1 (by omega : bits.length = 0)]; rfl
  | succ n ih =>
    intro bits h
    have h8 : (bits.take 8).length = 8 := by rw [List.length_take]; omega
    have hr : (bits.drop 8).length = 8 * n := by rw [List.length_drop]; omega
    conv_lhs => rw [← List.take_append_drop 8 bits, pack_eight_append h8]
    conv_rhs => rw [← List.take_append_drop 8 bits, natOfBits_append]
    rw [fromBE, Nat.mul_comm (256 ^ _) (BitVec.toNat _), toNat_eight h8, pack_length n _ hr, ih _ hr, hr, pow_mul, show (2 : Nat) ^ 8 = 256 by norm_num]

theorem bitstream_cons (b : Byte) (rest : List Byte) : bitstream (b :: rest) = byteBits b ++ bitstream rest := rfl

/-- The bitstream has 8 bits a byte (R95). -/
theorem bitstream_length (bytes : List Byte) : (bitstream bytes).length = 8 * bytes.length := by
  induction bytes with
  | nil => rfl
  | cons b rest ih => rw [bitstream_cons, List.length_append, byteBits_length, ih, List.length_cons]; omega

/-- Bit `j` of the bitstream is bit `7 - j % 8` of byte `j / 8` (R54, R95). -/
theorem bitstream_getElem (bytes : List Byte) : ∀ (j : Nat) (hj : j < (bitstream bytes).length)
    (hk : j / 8 < bytes.length), (bitstream bytes)[j] = bytes[j / 8].getLsbD (7 - j % 8) := by
  induction bytes with
  | nil => intro j _ hk; simp at hk
  | cons b rest ih =>
    intro j hj hk
    by_cases h8 : j < (byteBits b).length
    · have h8' : j < 8 := h8
      have e0 : j / 8 = 0 := by omega
      have e1 : j % 8 = j := by omega
      simp only [bitstream_cons, List.getElem_append_left h8, byteBits_getElem, e0, e1, List.getElem_cons_zero]
    · have h8' : ¬ j < 8 := h8
      have e0 : j / 8 = (j - 8) / 8 + 1 := by omega
      have e1 : j % 8 = (j - 8) % 8 := by omega
      have hl : j - 8 < (bitstream rest).length := by
        rw [bitstream_length] at hj ⊢
        rw [List.length_cons] at hj
        omega
      have hr : (j - 8) / 8 < rest.length := by rw [bitstream_length] at hl; omega
      have e2 : (bitstream (b :: rest))[j] = (bitstream rest)[j - 8] := by
        simp only [bitstream_cons]
        exact List.getElem_append_right (by omega)
      rw [e2, ih (j - 8) hl hr, e1]
      simp only [e0, List.getElem_cons_succ]

/-! ### The embedding loop -/

theorem embedBit_frame (s : State) (b : Bool) :
    embedBit s b = { s with gmem := (embedBit s b).gmem, bitIdx := s.bitIdx + 1#36 } := rfl

/-- The embedding loop changes G and the bit index and nothing else. -/
theorem foldl_embedBit_frame (bits : List Bool) : ∀ s : State, bits.foldl embedBit s =
    { s with gmem := (bits.foldl embedBit s).gmem, bitIdx := (bits.foldl embedBit s).bitIdx } := by
  induction bits with
  | nil => intro s; rfl
  | cons b rest ih => intro s; rw [List.foldl_cons, ih, embedBit_frame]

theorem bitIdx_succ {s : State} {n : Nat} (h : s.bitIdx.toNat + (n + 1) < 2 ^ 36) :
    (s.bitIdx + 1#36).toNat = s.bitIdx.toNat + 1 := by
  rw [BitVec.toNat_add, BitVec.toNat_ofNat, Nat.mod_eq_of_lt (by omega)]

/-- A sample the loop does not visit is unchanged. -/
theorem readG_foldl_embedBit_other (bits : List Bool) : ∀ (s : State) (a : Nat),
    s.bitIdx.toNat + bits.length < 2 ^ 36 →
    (∀ j, j < bits.length → a ≠ seqAddr s.opC.toNat (s.bitIdx.toNat + j)) →
    readG (bits.foldl embedBit s) a = readG s a := by
  induction bits with
  | nil => intro s a _ _; rfl
  | cons b rest ih =>
    intro s a hn h
    rw [List.length_cons] at hn h
    have hi : (embedBit s b).bitIdx.toNat = s.bitIdx.toNat + 1 := bitIdx_succ hn
    have hc : (embedBit s b).opC = s.opC := rfl
    rw [List.foldl_cons, ih]
    · have h0 : a ≠ curAddr s := h 0 (by omega)
      show readG (writeG s (curAddr s) _) a = readG s a
      rw [readG_writeG, if_neg h0]
    · rw [hi]; omega
    · intro j hj
      rw [hi, hc, Nat.add_assoc]
      exact h _ (by omega)

/-- A visited sample gets its own bit, over its own old value (R93, R105). -/
theorem readG_foldl_embedBit_visited (bits : List Bool) : ∀ (s : State) (j : Nat) (hj : j < bits.length),
    3 ≤ s.opC.toNat → s.bitIdx.toNat + bits.length < 2 ^ 36 →
    readG (bits.foldl embedBit s) (seqAddr s.opC.toNat (s.bitIdx.toNat + j)) =
      lsbWrite (readG s (seqAddr s.opC.toNat (s.bitIdx.toNat + j))) bits[j] := by
  induction bits with
  | nil => intro s j hj; simp at hj
  | cons b rest ih =>
    intro s j hj h3 hn
    rw [List.length_cons] at hn
    have hi : (embedBit s b).bitIdx.toNat = s.bitIdx.toNat + 1 := bitIdx_succ hn
    have hc : (embedBit s b).opC = s.opC := rfl
    rw [List.foldl_cons]
    cases j with
    | zero =>
      rw [readG_foldl_embedBit_other]
      · show readG (writeG s (curAddr s) _) _ = _
        rw [readG_writeG]
        exact if_pos rfl
      · rw [hi]; omega
      · intro j _ heq
        rw [hi, hc] at heq
        have := seqAddr_inj h3 heq
        omega
    | succ j =>
      rw [List.length_cons] at hj
      have e : s.bitIdx.toNat + (j + 1) = (embedBit s b).bitIdx.toNat + j := by rw [hi]; omega
      have hold : readG (embedBit s b) (seqAddr s.opC.toNat (s.bitIdx.toNat + (j + 1))) =
          readG s (seqAddr s.opC.toNat (s.bitIdx.toNat + (j + 1))) := by
        show readG (writeG s (curAddr s) _) _ = _
        rw [readG_writeG, if_neg]
        intro heq
        have := seqAddr_inj h3 heq
        omega
      have := ih (embedBit s b) j (by omega) h3 (by rw [hi]; omega)
      rw [hc, ← e, hold] at this
      rw [this]
      rfl

theorem frame_length (s : State) (n : Nat) : (frame s n).length = n := by simp [frame]

theorem frame_getElem (s : State) (n k : Nat) (hk : k < (frame s n).length) : (frame s n)[k] = readF s k := by
  simp [frame]

theorem startWalk_bitIdx_toNat (s : State) : (startWalk s).bitIdx.toNat = 0 := rfl

/-- EMBED's loop changes G and the bit index and nothing else. -/
theorem embedFrame_frame (n : Nat) (s : State) :
    embedFrame n s = { s with gmem := (embedFrame n s).gmem, bitIdx := (embedFrame n s).bitIdx } := by
  unfold embedFrame
  rw [foldl_embedBit_frame]
  rfl

/-- EMBED's loop writes the bit of its index at each sample it visits (R104, R105). -/
theorem readG_embedFrame_visited {n : Nat} {s : State} (h3 : 3 ≤ s.opC.toNat) (hn : 8 * n < 2 ^ 36) {i : Nat}
    (hi : i < 8 * n) :
    readG (embedFrame n s) (seqAddr s.opC.toNat i) =
      lsbWrite (readG s (seqAddr s.opC.toNat i)) ((readF s (i / 8)).getLsbD (7 - i % 8)) := by
  have hl : (bitstream (frame s n)).length = 8 * n := by rw [bitstream_length, frame_length]
  have hj : i < (bitstream (frame s n)).length := by omega
  have := readG_foldl_embedBit_visited (bitstream (frame s n)) (startWalk s) i hj h3
    (by rw [startWalk_bitIdx_toNat, hl]; omega)
  rw [startWalk_bitIdx_toNat, Nat.zero_add] at this
  rw [bitstream_getElem _ _ hj (by rw [frame_length]; omega), frame_getElem] at this
  exact this

/-- EMBED's loop leaves every sample it does not visit (R102). -/
theorem readG_embedFrame_other {n : Nat} {s : State} (hn : 8 * n < 2 ^ 36) {a : Nat}
    (ha : ∀ i, i < 8 * n → a ≠ seqAddr s.opC.toNat i) : readG (embedFrame n s) a = readG s a := by
  have hl : (bitstream (frame s n)).length = 8 * n := by rw [bitstream_length, frame_length]
  refine readG_foldl_embedBit_other (bitstream (frame s n)) (startWalk s) a
    (by rw [startWalk_bitIdx_toNat, hl]; omega) ?_
  intro j hj
  rw [startWalk_bitIdx_toNat, Nat.zero_add]
  exact ha j (by omega)

/-- An address the sequencer never makes is left by EMBED's loop, whatever the index does. -/
theorem readG_foldl_embedBit_never (bits : List Bool) : ∀ (s : State) (a : Nat),
    (∀ i, a ≠ seqAddr s.opC.toNat i) → readG (bits.foldl embedBit s) a = readG s a := by
  induction bits with
  | nil => intro s a _; rfl
  | cons b rest ih =>
    intro s a h
    have h0 : a ≠ curAddr s := h _
    have h1 : readG (rest.foldl embedBit (embedBit s b)) a = readG (embedBit s b) a := ih (embedBit s b) a h
    rw [List.foldl_cons, h1]
    show readG (writeG s (curAddr s) _) a = readG s a
    rw [readG_writeG, if_neg h0]

/-! ### The extraction loops -/

theorem slot_congr {s t : State} (hg : t.gmem = s.gmem) (he : t.epoch = s.epoch) (hc : t.opC = s.opC) (i : Nat) :
    slot t i = slot s i := by
  unfold slot readG
  rw [hg, he, hc]

theorem slotsFrom_length (s : State) (n : Nat) : (slotsFrom s n).length = n := by simp [slotsFrom]

theorem skipBits_bitIdx_toNat {s : State} {n : Nat} (h : s.bitIdx.toNat + n < 2 ^ 36) :
    (skipBits n s).bitIdx.toNat = s.bitIdx.toNat + n := by
  show (s.bitIdx + BitVec.ofNat 36 n).toNat = _
  rw [BitVec.toNat_add, BitVec.toNat_ofNat, Nat.mod_eq_of_lt (by omega : n < 2 ^ 36), Nat.mod_eq_of_lt h]

/-- The byte the packer makes of bit slots 8k to 8k + 7 (R96, R108). -/
def slotByte (s : State) (k : Nat) : Byte := ((List.range 8).map (fun m => slot s (8 * k + m))).foldl shiftIn 0#8

theorem byteBits_slotByte (s : State) (k : Nat) :
    byteBits (slotByte s k) = (List.range 8).map (fun m => slot s (8 * k + m)) :=
  byteBits_eight (by simp)

theorem slotByte_getLsbD (s : State) (k m : Nat) (hm : m < 8) :
    (slotByte s k).getLsbD (7 - m) = slot s (8 * k + m) := by
  have h := byteBits_slotByte s k
  have hl : m < (byteBits (slotByte s k)).length := hm
  rw [← byteBits_getElem _ m hl]
  simp [h]

theorem slotByte_congr {s t : State} (hg : t.gmem = s.gmem) (he : t.epoch = s.epoch) (hc : t.opC = s.opC) (k : Nat) :
    slotByte t k = slotByte s k := by
  unfold slotByte
  simp only [slot_congr hg he hc]

theorem extractByte_frame (s : State) (k : Nat) : extractByte s k =
    { s with fmem := (extractByte s k).fmem, acc := (extractByte s k).acc, bitIdx := (extractByte s k).bitIdx } := rfl

theorem foldl_extractByte_frame (ks : List Nat) : ∀ s : State, ks.foldl extractByte s =
    { s with
      fmem := (ks.foldl extractByte s).fmem
      acc := (ks.foldl extractByte s).acc
      bitIdx := (ks.foldl extractByte s).bitIdx } := by
  induction ks with
  | nil => intro s; rfl
  | cons k rest ih => intro s; rw [List.foldl_cons, ih, extractByte_frame]

/-- The extraction loop changes F, `acc` and the bit index and nothing else. -/
theorem extractFrame_frame (n : Nat) (s : State) : extractFrame n s =
    { s with
      fmem := (extractFrame n s).fmem
      acc := (extractFrame n s).acc
      bitIdx := (extractFrame n s).bitIdx } := by
  unfold extractFrame
  rw [foldl_extractByte_frame]
  rfl

theorem extractFrame_succ (n : Nat) (s : State) :
    extractFrame (n + 1) s = extractByte (extractFrame n s) n := by
  unfold extractFrame
  rw [List.range_succ, List.foldl_append, List.foldl_cons, List.foldl_nil]

theorem slotByte_extractFrame (n : Nat) (s : State) (k : Nat) : slotByte (extractFrame n s) k = slotByte s k := by
  rw [extractFrame_frame]
  rfl

/-- What one round of the extraction loop does, from the index it starts at. -/
theorem extractByte_spec {s : State} {k : Nat} (hk : s.bitIdx.toNat = 8 * k) (hn : 8 * k + 8 < 2 ^ 36) :
    (extractByte s k).bitIdx.toNat = 8 * k + 8 ∧
      ∀ a, readF (extractByte s k) a = if a = k then slotByte s k else readF s a := by
  have hacc : (assembleByte s).acc = slotByte s k := by
    show (slotsFrom s 8).foldl shiftIn 0#8 = _
    unfold slotsFrom
    rw [hk]
    rfl
  refine ⟨?_, fun a => ?_⟩
  · show (skipBits 8 s).bitIdx.toNat = _
    rw [skipBits_bitIdx_toNat (by omega), hk]
  · unfold extractByte
    rw [readF_writeF, hacc]
    rfl

/-- What the extraction loop leaves in F: the packed bit slots in F[0, n), the rest as it was (R108). -/
theorem extractFrame_spec (n : Nat) (s : State) (hn : 8 * n < 2 ^ 36) :
    (extractFrame n s).bitIdx.toNat = 8 * n ∧
      ∀ a, readF (extractFrame n s) a = if a < n then slotByte s a else readF s a := by
  induction n with
  | zero => exact ⟨rfl, fun a => rfl⟩
  | succ n ih =>
    obtain ⟨h1, h2⟩ := ih (by omega)
    rw [extractFrame_succ]
    obtain ⟨h3, h4⟩ := extractByte_spec h1 (by omega)
    refine ⟨by rw [h3]; omega, fun a => ?_⟩
    rw [h4, h2, slotByte_extractFrame]
    by_cases ha : a = n
    · subst ha; simp
    · have : (a < n + 1) = (a < n) := by apply propext; omega
      simp [ha, this]

theorem readF_extractFrame {n : Nat} (s : State) (hn : 8 * n < 2 ^ 36) (a : Nat) :
    readF (extractFrame n s) a = if a < n then slotByte s a else readF s a :=
  (extractFrame_spec n s hn).2 a

theorem extract_length (s : State) (n : Nat) : (extract s n).length = n := by simp [extract]

theorem slotsFrom_startWalk (s : State) (n : Nat) : slotsFrom (startWalk s) n = extract s n := by
  unfold slotsFrom extract
  apply List.map_congr_left
  intro m _
  show slot s (0 + m) = slot s m
  rw [Nat.zero_add]

/-- Reading the prefix changes the bit index and nothing else. -/
theorem readLength_frame (s : State) : (readLength s).2 = { s with bitIdx := (readLength s).2.bitIdx } := rfl

/-- The prefix the engine reads is the value of the first 32 bit slots, the first the most significant (R106, R107). -/
theorem readLength_fst (s : State) : (readLength s).1 = natOfBits (extract s 32) := by
  unfold readLength
  rw [slotsFrom_startWalk]
  rfl

/-- The same as the source's ExtractLength (R99). -/
theorem readLength_eq_fromBE (s : State) : (readLength s).1 = fromBE (pack (extract s 32)) := by
  rw [readLength_fst, fromBE_pack 4 _ (by rw [extract_length])]

theorem readLength_lt (s : State) : (readLength s).1 < 2 ^ 32 := by
  rw [readLength_fst]
  simpa [extract_length] using natOfBits_lt (extract s 32)

/-- Bit `31 - i` of the value of 32 bits is bit `i` of the sequence (R107). -/
theorem natOfBits_testBit (bits : List Bool) : ∀ i (hi : i < bits.length),
    (natOfBits bits).testBit (bits.length - 1 - i) = bits[i] := by
  induction bits with
  | nil => intro i hi; simp at hi
  | cons b rest ih =>
    intro i hi
    rw [natOfBits_cons, Nat.mul_comm]
    cases i with
    | zero =>
      have hl := natOfBits_lt rest
      simp only [List.length_cons, Nat.add_sub_cancel, Nat.sub_zero, List.getElem_cons_zero]
      rw [Nat.testBit_two_pow_mul_add _ hl]
      cases b <;> simp
    | succ i =>
      rw [List.length_cons] at hi
      have hl := natOfBits_lt rest
      have e : (b :: rest).length - 1 - (i + 1) = rest.length - 1 - i := by rw [List.length_cons]; omega
      rw [e, Nat.testBit_two_pow_mul_add _ hl, if_pos (by omega), ih i (by omega)]
      rfl

/-- The packer over whole bytes of bit slots (R96, R97). -/
theorem pack_extract (s : State) (n : Nat) : pack (extract s (8 * n)) = (List.range n).map (slotByte s) := by
  suffices h : ∀ (n k : Nat), pack ((List.range (8 * n)).map (fun j => slot s (8 * k + j))) =
      (List.range n).map (fun j => slotByte s (k + j)) by simpa [extract] using h n 0
  intro n
  induction n with
  | zero => intro k; rfl
  | succ n ih =>
    intro k
    have e : (List.range (8 * (n + 1))).map (fun j => slot s (8 * k + j)) =
        (List.range 8).map (fun m => slot s (8 * k + m)) ++
          (List.range (8 * n)).map (fun j => slot s (8 * (k + 1) + j)) := by
      rw [show 8 * (n + 1) = 8 + 8 * n by omega, List.range_add, List.map_append, List.map_map]
      congr 1
      apply List.map_congr_left
      intro j _
      show slot s (8 * k + (8 + j)) = _
      congr 1
      omega
    rw [e, pack_eight_append (by simp), ih, List.range_succ_eq_map (n := n), List.map_cons, List.map_map]
    congr 1
    apply List.map_congr_left
    intro j _
    show slotByte s (k + 1 + j) = slotByte s (k + (j + 1))
    congr 1
    omega

end Sys2Proof.Machine
end

