-- ==== Sys2Proof/Laws/Command.lean ====
section
/-! SUPPORT. How a command ends: the first failing check, or the effect; and that every command answers a next state. -/

namespace Sys2Proof.Machine

/-- No check fails exactly when all hold. -/
theorem firstFailing_none {checks : List (Bool × CmdError)} :
    firstFailing checks = none ↔ ∀ c ∈ checks, c.1 = true := by
  induction checks with
  | nil => simp [firstFailing]
  | cons c rest ih =>
    obtain ⟨ok, e⟩ := c
    cases ok <;> simp [firstFailing, ih]

/-- Everything a command can do (R121, R124): raise one of its checks' errors and nothing else, or its effect and
success. -/
theorem command_cases (checks : List (Bool × CmdError)) (effect : State → State) (s : State) :
    (∃ e, firstFailing checks = some e ∧ command checks effect s = raiseError e s) ∨
    (firstFailing checks = none ∧ command checks effect s = complete (effect s)) := by
  unfold command
  cases h : firstFailing checks with
  | some e => exact .inl ⟨e, rfl, rfl⟩
  | none => exact .inr ⟨rfl, rfl⟩

theorem command_of_none {checks : List (Bool × CmdError)} (h : firstFailing checks = none)
    (effect : State → State) (s : State) : command checks effect s = complete (effect s) := by
  simp [command, h]

theorem command_of_some {checks : List (Bool × CmdError)} {e : CmdError} (h : firstFailing checks = some e)
    (effect : State → State) (s : State) : command checks effect s = raiseError e s := by
  simp [command, h]

/-- Every command answers a next state. -/
theorem exec_next (i : Instr) (s : State) : ∃ t, exec i s = .next t := by
  cases i <;> exact ⟨_, rfl⟩

/-- Everything DECODE can do (R110). -/
theorem execDecode_cases (s : State) :
    (∃ e, firstFailing (lengthChecks s) = some e ∧ execDecode s = .next (raiseError e s)) ∨
    (firstFailing (lengthChecks s) = none ∧ ∃ e, firstFailing (decodeChecks (readLength s).1 s) = some e ∧
      execDecode s = .next (raiseError e (readLength s).2)) ∨
    (firstFailing (lengthChecks s) = none ∧ firstFailing (decodeChecks (readLength s).1 s) = none ∧
      execDecode s =
        .next (complete (finishDecode (extractFrame (4 + (readLength s).1) (readLength s).2)))) := by
  unfold execDecode decodeBody
  cases h : firstFailing (lengthChecks s) with
  | some e => exact .inl ⟨e, rfl, rfl⟩
  | none =>
    refine .inr ?_
    rcases command_cases (decodeChecks (readLength s).1 s)
      (fun t => finishDecode (extractFrame (4 + (readLength s).1) t)) (readLength s).2 with ⟨e, h1, h2⟩ | ⟨h1, h2⟩
    · exact .inl ⟨rfl, e, h1, by simp only [h2]⟩
    · exact .inr ⟨rfl, h1, by simp only [h2]⟩

theorem embedChecks_none (s : State) : firstFailing (embedChecks s) = none ↔
    geomOk s = true ∧ 8 * s.opN.toNat < cap s ∧ s.opN.toNat ≤ s.params.frameBytes := by
  simp [firstFailing_none, embedChecks]

theorem lengthChecks_none (s : State) : firstFailing (lengthChecks s) = none ↔ geomOk s = true ∧ 32 ≤ cap s := by
  simp [firstFailing_none, lengthChecks]

theorem extractBitsChecks_none (s : State) : firstFailing (extractBitsChecks s) = none ↔
    geomOk s = true ∧ s.opT.toNat % 8 = 0 ∧ s.opT.toNat ≤ cap s ∧ s.opT.toNat / 8 ≤ s.params.frameBytes := by
  simp [firstFailing_none, extractBitsChecks]

theorem decodeChecks_none (l : Nat) (s : State) : firstFailing (decodeChecks l s) = none ↔
    32 + 8 * l ≤ cap s ∧ 4 + l ≤ s.params.frameBytes := by
  simp [firstFailing_none, decodeChecks]

theorem encodeChecks_none (s : State) : firstFailing (encodeChecks s) = none ↔
    geomOk s = true ∧ 8 * (4 + s.opL.toNat) < cap s ∧ 4 + s.opL.toNat ≤ s.params.frameBytes := by
  have : s.opL.toNat ≤ 4294967295 := by have := s.opL.isLt; omega
  simp [firstFailing_none, encodeChecks, this]

theorem serializeChecks_none (s : State) : firstFailing (serializeChecks s) = none ↔
    4 + s.opL.toNat ≤ s.params.frameBytes := by
  have : s.opL.toNat ≤ 4294967295 := by have := s.opL.isLt; omega
  simp [firstFailing_none, serializeChecks, this]

theorem deserializeChecks_none (s : State) : firstFailing (deserializeChecks s) = none ↔
    4 ≤ s.opN.toNat ∧ s.opN.toNat ≤ s.params.frameBytes := by
  simp [firstFailing_none, deserializeChecks]

/-! ### The memories stay canonical and inside their sizes -/

theorem foldl_embedBit_wf (bits : List Bool) : ∀ s : State, Memory.wf s.gmem = true →
    Memory.wf (bits.foldl embedBit s).gmem = true := by
  induction bits with
  | nil => intro s h; exact h
  | cons b rest ih => intro s h; exact ih _ (Memory.put_wf h _ _)

theorem foldl_embedBit_below (n : Nat) (bits : List Bool) : ∀ s : State, s.bitIdx.toNat + bits.length < 2 ^ 36 →
    (∀ j, j < bits.length → seqAddr s.opC.toNat (s.bitIdx.toNat + j) < n) → Memory.below n s.gmem = true →
    Memory.below n (bits.foldl embedBit s).gmem = true := by
  induction bits with
  | nil => intro s _ _ h; exact h
  | cons b rest ih =>
    intro s hn hj h
    rw [List.length_cons] at hn hj
    have hi : (embedBit s b).bitIdx.toNat = s.bitIdx.toNat + 1 := bitIdx_succ hn
    have hc : (embedBit s b).opC = s.opC := rfl
    have h0 : seqAddr s.opC.toNat s.bitIdx.toNat < n := hj 0 (by omega)
    refine ih (embedBit s b) (by rw [hi]; omega) (fun j h' => ?_) (Memory.put_below h h0 _)
    rw [hi, hc, Nat.add_assoc]
    exact hj _ (by omega)

theorem embedFrame_wf (n : Nat) (s : State) (h : Memory.wf s.gmem = true) :
    Memory.wf (embedFrame n s).gmem = true := foldl_embedBit_wf _ _ h

theorem embedFrame_below {n : Nat} {s : State} (hg : geomOk s = true) (hn : 8 * n ≤ cap s)
    (h : Memory.below s.params.gridBytes s.gmem = true) :
    Memory.below s.params.gridBytes (embedFrame n s).gmem = true := by
  have hl : (bitstream (frame s n)).length = 8 * n := by rw [bitstream_length, frame_length]
  have hc := cap_lt s
  refine foldl_embedBit_below _ _ (startWalk s) (by rw [startWalk_bitIdx_toNat, hl]; omega) (fun j hj => ?_) h
  rw [startWalk_bitIdx_toNat, Nat.zero_add]
  exact seqAddr_lt_gridBytes hg (by omega)

theorem extractFrame_wf (n : Nat) (s : State) (h : Memory.wf s.fmem = true) :
    Memory.wf (extractFrame n s).fmem = true := by
  induction n with
  | zero => exact h
  | succ n ih =>
    rw [extractFrame_succ]
    exact Memory.put_wf ih _ _

theorem extractFrame_below {m : Nat} (n : Nat) (hn : n ≤ m) (s : State) (h : Memory.below m s.fmem = true) :
    Memory.below m (extractFrame n s).fmem = true := by
  induction n with
  | zero => exact h
  | succ n ih =>
    rw [extractFrame_succ]
    exact Memory.put_below (ih (by omega)) (by omega) _

end Sys2Proof.Machine
end

