-- ==== Sys2Proof/Laws/Step.lean ====
section
/-! SUPPORT. What one step can do, agent by agent. -/

namespace Sys2Proof.Machine

/-- A running command word always answers a next state: its command's, or ILLEGAL_CMD. -/
theorem runCommandWord_next (w : Word) (s : State) : ∃ t, runCommandWord w s = .next t := by
  unfold runCommandWord
  cases decode w with
  | ok i => exact exec_next i s
  | error _ => exact ⟨_, rfl⟩

/-- The engine always answers a next state. -/
theorem engineStep_next (s : State) : ∃ t, engineStep s = .next t := by
  unfold engineStep
  split
  · exact runCommandWord_next _ _
  · exact ⟨_, rfl⟩

/-- Everything a host transaction can do: an access of the block, a refusal, a fault. -/
theorem hostStep_cases (op : BusOp) (s : State) :
    (∃ a, busAccess s.params op = .ok a ∧
      hostStep op s = .next (if s.rst then heldAccess a s else hostAccess a s)) ∨
    (busAccess s.params op = .error .unsupported ∧ hostStep op s = .refused (.unsupportedAccess op)) ∨
    (busAccess s.params op = .error .outside ∧ ∃ addr, hostStep op s = .fault (.noSuchAddress addr)) := by
  unfold hostStep
  cases busAccess s.params op with
  | ok a => exact .inl ⟨a, rfl, rfl⟩
  | error b =>
    cases b with
    | unsupported => exact .inr (.inl ⟨rfl, rfl⟩)
    | outside => refine .inr (.inr ⟨rfl, ?_⟩); cases op <;> exact ⟨_, rfl⟩

theorem step_nil {s : State} (h : s.inputs = []) : step s = react .engine s := by
  unfold step
  rw [h]

theorem step_cons {s : State} {e : Event} {rest : List Event} (h : s.inputs = e :: rest) :
    step s = react e { s with inputs := rest } := by
  unfold step
  rw [h]

/-- One event is reacted to by one agent. -/
theorem step_cases (s : State) :
    (s.inputs = [] ∧ step s = react .engine s) ∨
    (∃ e rest, s.inputs = e :: rest ∧ step s = react e { s with inputs := rest }) := by
  cases h : s.inputs with
  | nil => exact .inl ⟨rfl, step_nil h⟩
  | cons e rest => exact .inr ⟨e, rest, rfl, step_cons h⟩

theorem whenIdle_busy (f : State → State) {s : State} (h : s.busy = true) : whenIdle f s = setHaz s := by
  simp [whenIdle, h]

theorem whenIdle_idle (f : State → State) {s : State} (h : s.busy = false) : whenIdle f s = f s := by
  simp [whenIdle, h]

theorem regAt_offset (r : Reg) : regAt r.offset = some r := by cases r <;> rfl

end Sys2Proof.Machine
end

