-- ==== Sys2Proof/Laws/Exec.lean ====
section
/-! SUPPORT. What each command answers once its checks hold, and what any command can answer. -/

namespace Sys2Proof.Machine

theorem Params.wf_frameBytes {p : Params} (h : p.wf = true) : 4 ≤ p.frameBytes ∧ p.frameBytes ≤ 2 ^ 32 - 1 := by
  simp only [Params.wf, Bool.and_eq_true, decide_eq_true_eq] at h
  exact ⟨h.1.1.1.1.1, h.1.1.1.1.2⟩

/-! ### The answer of a command whose checks hold -/

theorem exec_serialize_of_checks {s : State} (h : 4 + s.opL.toNat ≤ s.params.frameBytes) :
    exec .serialize s = .next (complete (setFlen (BitVec.ofNat 32 (4 + s.opL.toNat)) (writePrefix s))) := by
  show execSerialize s = _
  unfold execSerialize
  rw [command_of_none ((serializeChecks_none s).2 h)]

theorem exec_deserialize_of_checks {s : State} (h1 : 4 ≤ s.opN.toNat) (h2 : s.opN.toNat ≤ s.params.frameBytes) :
    exec .deserialize s = .next (complete (deserializeEffect s)) := by
  show execDeserialize s = _
  unfold execDeserialize
  rw [command_of_none ((deserializeChecks_none s).2 ⟨h1, h2⟩)]

theorem exec_embed_of_checks {s : State} (hg : geomOk s = true) (hc : 8 * s.opN.toNat < cap s)
    (hf : s.opN.toNat ≤ s.params.frameBytes) : exec .embed s = .next (complete (embedFrame s.opN.toNat s)) := by
  show execEmbed s = _
  unfold execEmbed
  rw [command_of_none ((embedChecks_none s).2 ⟨hg, hc, hf⟩)]

theorem exec_extractLength_of_checks {s : State} (hg : geomOk s = true) (hc : 32 ≤ cap s) :
    exec .extractLength s = .next (complete (extractLengthEffect s)) := by
  show execExtractLength s = _
  unfold execExtractLength
  rw [command_of_none ((lengthChecks_none s).2 ⟨hg, hc⟩)]

theorem exec_extractBits_of_checks {s : State} (hg : geomOk s = true) (h8 : s.opT.toNat % 8 = 0)
    (hc : s.opT.toNat ≤ cap s) (hf : s.opT.toNat / 8 ≤ s.params.frameBytes) : exec .extractBits s =
      .next (complete (setFlen (BitVec.ofNat 32 (s.opT.toNat / 8)) (extractFrame (s.opT.toNat / 8) s))) := by
  show execExtractBits s = _
  unfold execExtractBits
  rw [command_of_none ((extractBitsChecks_none s).2 ⟨hg, h8, hc, hf⟩)]

theorem readLength_prefixG (s : State) : (readLength s).1 = prefixG s := readLength_eq_fromBE s

theorem prefixG_lt (s : State) : prefixG s < 2 ^ 32 := by
  rw [← readLength_prefixG]
  exact readLength_lt s

theorem exec_decode_of_checks {s : State} (hg : geomOk s = true) (hc : 32 + 8 * prefixG s ≤ cap s)
    (hf : 4 + prefixG s ≤ s.params.frameBytes) :
    exec .decode s = .next (complete (finishDecode (extractFrame (4 + prefixG s) (readLength s).2))) := by
  rcases execDecode_cases s with ⟨e, h, _⟩ | ⟨_, e, h, _⟩ | ⟨_, _, h⟩
  · rw [(lengthChecks_none s).2 ⟨hg, by omega⟩] at h; cases h
  · rw [(decodeChecks_none _ s).2 (by rw [readLength_prefixG]; exact ⟨hc, hf⟩)] at h; cases h
  · show execDecode s = _
    rw [h, readLength_prefixG]

theorem exec_encode_of_checks {s : State} (hg : geomOk s = true) (hc : 8 * (4 + s.opL.toNat) < cap s)
    (hf : 4 + s.opL.toNat ≤ s.params.frameBytes) : exec .encode s =
      .next (complete (setFlen (BitVec.ofNat 32 (4 + s.opL.toNat)) (embedFrame (4 + s.opL.toNat) (writePrefix s)))) := by
  show execEncode s = _
  unfold execEncode
  rw [command_of_none ((encodeChecks_none s).2 ⟨hg, hc, hf⟩)]

/-! ### DECODE's extraction and its end -/

/-- The prefix of the grid is the big-endian value of the first four packed bytes (R99). -/
theorem fromBE_slotBytes (s : State) : fromBE ((List.range 4).map (slotByte s)) = prefixG s := by
  rw [← pack_extract s 4]
  rfl

/-- F after DECODE's extraction: the packed slots in F[0, 4 + L), the rest as it was (R110). -/
theorem readF_decodeFrame {s : State} (hc : 32 + 8 * prefixG s ≤ cap s) (a : Nat) :
    readF (extractFrame (4 + prefixG s) (readLength s).2) a =
      if a < 4 + prefixG s then slotByte s a else readF s a := by
  have hcap := cap_lt s
  rw [readF_extractFrame _ (by omega), readLength_frame]
  exact congrArg (fun b => if a < 4 + prefixG s then b else readF s a) (slotByte_congr rfl rfl rfl a)

/-- The prefix DECODE then finds in F is the one it read from the grid (R110). -/
theorem prefixF_decodeFrame {s : State} (hc : 32 + 8 * prefixG s ≤ cap s) :
    prefixF (extractFrame (4 + prefixG s) (readLength s).2) = prefixG s := by
  have h : frame (extractFrame (4 + prefixG s) (readLength s).2) 4 = (List.range 4).map (slotByte s) := by
    apply List.map_congr_left
    intro k hk
    have := List.mem_range.1 hk
    rw [readF_decodeFrame hc, if_pos (by omega)]
  unfold prefixF
  rw [h, fromBE_slotBytes]

@[simp] theorem finishDecode_plen (s : State) : (finishDecode s).plen = BitVec.ofNat 32 (prefixF s) := by
  simp [finishDecode]
@[simp] theorem finishDecode_flen (s : State) : (finishDecode s).flen = BitVec.ofNat 32 (4 + prefixF s) := by
  simp [finishDecode]
@[simp] theorem readF_finishDecode (s : State) (a : Nat) : readF (finishDecode s) a = readF s a := by
  simp [finishDecode]
@[simp] theorem readG_finishDecode (s : State) (a : Nat) : readG (finishDecode s) a = readG s a := by
  simp [finishDecode]

/-- DECODE's last step changes PLEN and FLEN and nothing else. -/
theorem finishDecode_frame (s : State) :
    finishDecode s = { s with plen := (finishDecode s).plen, flen := (finishDecode s).flen } := by
  ext <;> simp [finishDecode]

/-- DESERIALIZE's effect changes PLEN and TRUNC and nothing else. -/
theorem deserializeEffect_frame (s : State) : deserializeEffect s =
    { s with plen := (deserializeEffect s).plen, trunc := (deserializeEffect s).trunc } := by
  unfold deserializeEffect
  split <;> rfl

/-! ### Any command -/

/-- `u` differs from `s` at most in what a command may write: TRUNC, PLEN, FLEN, the bit index, `acc`, F and G. -/
def SameButResults (s u : State) : Prop :=
  u = { s with
        trunc := u.trunc, plen := u.plen, flen := u.flen, bitIdx := u.bitIdx, acc := u.acc, fmem := u.fmem,
        gmem := u.gmem }

/-- Everything a command can do: end with an error, the hidden bit index apart in the state it began in; or end with
success, after changing at most its results. -/
theorem exec_cases (i : Instr) (s : State) :
    (∃ e b, exec i s = .next (raiseError e { s with bitIdx := b })) ∨
    (∃ u, exec i s = .next (complete u) ∧ SameButResults s u) := by
  have key : ∀ checks effect, exec i s = .next (command checks effect s) → SameButResults s (effect s) →
      (∃ e b, exec i s = .next (raiseError e { s with bitIdx := b })) ∨
      (∃ u, exec i s = .next (complete u) ∧ SameButResults s u) := by
    intro checks effect h1 h2
    rcases command_cases checks effect s with ⟨e, _, h⟩ | ⟨_, h⟩
    · exact .inl ⟨e, s.bitIdx, by rw [h1, h]⟩
    · exact .inr ⟨effect s, by rw [h1, h], h2⟩
  cases i with
  | serialize => exact key _ _ rfl (by rw [writePrefix_frame]; rfl)
  | deserialize => exact key _ _ rfl (by rw [deserializeEffect_frame]; rfl)
  | embed => exact key _ _ rfl (by rw [embedFrame_frame]; rfl)
  | extractLength => exact key _ _ rfl (by unfold extractLengthEffect; rw [readLength_frame]; rfl)
  | extractBits => exact key _ _ rfl (by rw [extractFrame_frame]; rfl)
  | encode => exact key _ _ rfl (by rw [embedFrame_frame, writePrefix_frame]; rfl)
  | decode =>
    rcases execDecode_cases s with ⟨e, _, h⟩ | ⟨_, e, _, h⟩ | ⟨_, _, h⟩
    · exact .inl ⟨e, s.bitIdx, h⟩
    · exact .inl ⟨e, _, by rw [readLength_frame] at h; exact h⟩
    · refine .inr ⟨_, h, ?_⟩
      rw [finishDecode_frame, extractFrame_frame, readLength_frame]
      rfl

theorem memoriesOk_iff (s : State) : s.memoriesOk = true ↔
    Memory.wf s.fmem = true ∧ Memory.wf s.gmem = true ∧ Memory.below s.params.frameBytes s.fmem = true ∧
      Memory.below s.params.gridBytes s.gmem = true := by
  simp [State.memoriesOk, and_assoc]

theorem memoriesOk_congr {s t : State} (hp : t.params = s.params) (hf : t.fmem = s.fmem) (hg : t.gmem = s.gmem) :
    t.memoriesOk = s.memoriesOk := by
  unfold State.memoriesOk
  rw [hp, hf, hg]

theorem writePrefix_memoriesOk {s : State} (h : s.memoriesOk = true) (h4 : 4 ≤ s.params.frameBytes) :
    (writePrefix s).memoriesOk = true := by
  rw [memoriesOk_iff] at h ⊢
  have hp : (writePrefix s).params = s.params := by rw [writePrefix_frame]
  have hg : (writePrefix s).gmem = s.gmem := by rw [writePrefix_frame]
  rw [hp, hg]
  exact ⟨writeFBytes_wf _ _ _ h.1, h.2.1, writeFBytes_below _ _ _ _ (by rw [be32_length]; omega) h.2.2.1, h.2.2.2⟩

theorem embedFrame_memoriesOk {n : Nat} {s : State} (h : s.memoriesOk = true) (hg : geomOk s = true)
    (hn : 8 * n ≤ cap s) : (embedFrame n s).memoriesOk = true := by
  rw [memoriesOk_iff] at h ⊢
  have hp : (embedFrame n s).params = s.params := by rw [embedFrame_frame]
  have hf : (embedFrame n s).fmem = s.fmem := by rw [embedFrame_frame]
  rw [hp, hf]
  exact ⟨h.1, embedFrame_wf n s h.2.1, h.2.2.1, embedFrame_below hg hn h.2.2.2⟩

theorem extractFrame_memoriesOk {n : Nat} {s : State} (h : s.memoriesOk = true) (hn : n ≤ s.params.frameBytes) :
    (extractFrame n s).memoriesOk = true := by
  rw [memoriesOk_iff] at h ⊢
  have hp : (extractFrame n s).params = s.params := by rw [extractFrame_frame]
  have hg : (extractFrame n s).gmem = s.gmem := by rw [extractFrame_frame]
  rw [hp, hg]
  exact ⟨extractFrame_wf n s h.1, h.2.1, extractFrame_below n hn s h.2.2.1, h.2.2.2⟩

theorem finishDecode_memoriesOk {s : State} (h : s.memoriesOk = true) : (finishDecode s).memoriesOk = true := by
  rw [finishDecode_frame]
  exact h

theorem readLength_memoriesOk {s : State} (h : s.memoriesOk = true) : (readLength s).2.memoriesOk = true := by
  rw [readLength_frame]
  exact h

theorem complete_memoriesOk {s : State} (h : s.memoriesOk = true) : (complete s).memoriesOk = true := h

theorem raiseError_memoriesOk {s : State} (h : s.memoriesOk = true) (e : CmdError) :
    (raiseError e s).memoriesOk = true := h

/-- Every command keeps the memories canonical and inside their sizes. -/
theorem exec_memoriesOk {i : Instr} {s t : State} (h : s.memoriesOk = true) (ht : exec i s = .next t) :
    t.memoriesOk = true := by
  have key : ∀ checks effect, exec i s = .next (command checks effect s) →
      (firstFailing checks = none → (effect s).memoriesOk = true) → t.memoriesOk = true := by
    intro checks effect h1 h2
    rw [h1] at ht
    injection ht with ht
    subst ht
    rcases command_cases checks effect s with ⟨e, _, h3⟩ | ⟨h0, h3⟩
    · rw [h3]; exact h
    · rw [h3]; exact h2 h0
  cases i with
  | serialize =>
    refine key _ _ rfl fun h0 => ?_
    have := (serializeChecks_none s).1 h0
    exact writePrefix_memoriesOk h (by omega)
  | deserialize =>
    refine key _ _ rfl fun _ => ?_
    rw [deserializeEffect_frame]
    exact h
  | embed =>
    refine key _ _ rfl fun h0 => ?_
    obtain ⟨hg, hc, _⟩ := (embedChecks_none s).1 h0
    exact embedFrame_memoriesOk h hg (by omega)
  | extractLength => exact key _ _ rfl fun _ => h
  | extractBits =>
    refine key _ _ rfl fun h0 => ?_
    exact extractFrame_memoriesOk h ((extractBitsChecks_none s).1 h0).2.2.2
  | encode =>
    refine key _ _ rfl fun h0 => ?_
    obtain ⟨hg, hc, hf⟩ := (encodeChecks_none s).1 h0
    refine embedFrame_memoriesOk (writePrefix_memoriesOk h (by omega)) ?_ ?_
    · rw [writePrefix_frame]; exact hg
    · rw [writePrefix_frame]; exact Nat.le_of_lt hc
  | decode =>
    change execDecode s = _ at ht
    rcases execDecode_cases s with ⟨e, _, h1⟩ | ⟨_, e, _, h1⟩ | ⟨_, h0, h1⟩
    · rw [h1] at ht; injection ht with ht; rw [← ht]; exact raiseError_memoriesOk h e
    · rw [h1] at ht; injection ht with ht; rw [← ht]; exact raiseError_memoriesOk (readLength_memoriesOk h) e
    · rw [h1] at ht
      injection ht with ht
      rw [← ht]
      exact complete_memoriesOk (finishDecode_memoriesOk (extractFrame_memoriesOk (readLength_memoriesOk h)
        ((decodeChecks_none _ s).1 h0).2))

/-- Every error code is at most 8 (R118). -/
theorem CmdError.code_le (e : CmdError) : e.code.toNat ≤ 8 := by cases e <;> decide

/-- No error has code 0 (R118). -/
theorem CmdError.code_ne_zero (e : CmdError) : e.code ≠ 0#4 := by cases e <;> decide

end Sys2Proof.Machine
end

