-- ==== Sys2Proof/Laws/HostPort.lean ====
section
/-! SUPPORT. What a host transaction and an engine step can do, for citing instead of unfolding. -/

namespace Sys2Proof.Machine

/-! ### Bus addresses -/

theorem inWindow_reg (p : Params) (r : Reg) : inWindow p.regBase 64 (p.regBase + r.offset) = true := by
  cases r <;> simp [inWindow, Reg.offset]

/-- `WR <reg>, <v>` is the write of that register (R17, R71). -/
theorem busAccess_busWR (p : Params) (r : Reg) (v : Word) :
    busAccess p (busWR p r v) = .ok (.writeReg r.offset v) := by
  unfold busWR busAccess word32
  simp only [inWindow_reg, if_true, Nat.add_sub_cancel_left]
  exact if_pos (by cases r <;> rfl)

/-- `RD <reg>` is the read of that register (R17, R71). -/
theorem busAccess_busRD (p : Params) (r : Reg) : busAccess p (busRD p r) = .ok (.readReg r.offset) := by
  unfold busRD busAccess word32
  simp only [inWindow_reg, if_true, Nat.add_sub_cancel_left]
  exact if_pos (by cases r <;> rfl)

/-- A register write at an offset of R17 is `WR` of its register. -/
theorem busWR_of_access {p : Params} {op : BusOp} {off : Nat} {v : Word} {r : Reg}
    (h : busAccess p op = .ok (.writeReg off v)) (hr : regAt off = some r) : op = busWR p r v := by
  cases op with
  | write32 addr w =>
    simp only [busAccess, word32] at h
    split at h
    · rename_i hw
      split at h
      · injection h with h
        injection h with h1 h2
        have ho : r.offset = off := by
          unfold regAt at hr
          split at hr <;> first | (injection hr with hr; subst hr; rfl) | cases hr
        simp only [inWindow, Bool.and_eq_true, decide_eq_true_eq] at hw
        unfold busWR
        rw [ho, ← h1, h2, Nat.add_sub_cancel' hw.1]
      · cases h
    · split at h <;> cases h
  | read32 addr =>
    simp only [busAccess, word32] at h
    split at h
    · split at h <;> cases h
    · split at h <;> cases h
  | write8 addr b =>
    simp only [busAccess, byte8] at h
    split at h
    · cases h
    · split at h
      · cases h
      · split at h <;> cases h
  | read8 addr =>
    simp only [busAccess, byte8] at h
    split at h
    · cases h
    · split at h
      · cases h
      · split at h <;> cases h

theorem inWindow_iff (base size addr : Nat) : inWindow base size addr = true ↔ base ≤ addr ∧ addr < base + size := by
  simp [inWindow]

theorem inWindow_not {base size addr : Nat} (h : addr < base ∨ base + size ≤ addr) :
    inWindow base size addr = false := by
  rw [Bool.eq_false_iff, ne_eq, inWindow_iff]
  omega

/-- The three windows share no address (R45); an empty grid window has none to share (log 3). -/
theorem Params.wf_apart {p : Params} (h : p.wf = true) :
    (p.regBase + 64 ≤ p.fBase ∨ p.fBase + p.frameBytes ≤ p.regBase) ∧
    (p.gridBytes = 0 ∨ p.regBase + 64 ≤ p.gBase ∨ p.gBase + p.gridBytes ≤ p.regBase) ∧
    (p.gridBytes = 0 ∨ p.fBase + p.frameBytes ≤ p.gBase ∨ p.gBase + p.gridBytes ≤ p.fBase) := by
  simp only [Params.wf, windowsApart, Bool.and_eq_true, Bool.or_eq_true, decide_eq_true_eq] at h
  omega

theorem inWindow_f {p : Params} {a : Nat} (ha : a < p.frameBytes) :
    inWindow p.fBase p.frameBytes (p.fBase + a) = true := by
  rw [inWindow_iff]
  omega

theorem inWindow_g {p : Params} (h : p.wf = true) {a : Nat} (ha : a < p.gridBytes) :
    inWindow p.fBase p.frameBytes (p.gBase + a) = false ∧
      inWindow p.gBase p.gridBytes (p.gBase + a) = true := by
  have := (Params.wf_apart h).2.2
  have h4 := (Params.wf_frameBytes h).1
  exact ⟨inWindow_not (by omega), by rw [inWindow_iff]; omega⟩

theorem busAccess_busWRF {p : Params} {a : Nat} (ha : a < p.frameBytes) (b : Byte) :
    busAccess p (busWRF p a b) = .ok (.writeF a b) := by
  simp only [busWRF, busAccess, byte8, inWindow_f ha, if_true, Nat.add_sub_cancel_left]

theorem busAccess_busRDF {p : Params} {a : Nat} (ha : a < p.frameBytes) :
    busAccess p (busRDF p a) = .ok (.readF a) := by
  simp only [busRDF, busAccess, byte8, inWindow_f ha, if_true, Nat.add_sub_cancel_left]

theorem busAccess_busWRG {p : Params} (h : p.wf = true) {a : Nat} (ha : a < p.gridBytes) (b : Byte) :
    busAccess p (busWRG p a b) = .ok (.writeG a b) := by
  obtain ⟨h1, h2⟩ := inWindow_g h ha
  simp only [busWRG, busAccess, byte8, h1, h2, if_true, Bool.false_eq_true, if_false, Nat.add_sub_cancel_left]

theorem busAccess_busRDG {p : Params} (h : p.wf = true) {a : Nat} (ha : a < p.gridBytes) :
    busAccess p (busRDG p a) = .ok (.readG a) := by
  obtain ⟨h1, h2⟩ := inWindow_g h ha
  simp only [busRDG, busAccess, byte8, h1, h2, if_true, Bool.false_eq_true, if_false, Nat.add_sub_cancel_left]

/-- A byte address an access of the block names is inside its memory. -/
theorem access_lt {p : Params} {op : BusOp} {a : Nat} {b : Byte} :
    (busAccess p op = .ok (.writeF a b) → a < p.frameBytes) ∧
      (busAccess p op = .ok (.writeG a b) → a < p.gridBytes) := by
  have hw : ∀ addr v, busAccess p (.write32 addr v) ≠ .ok (.writeF a b) ∧
      busAccess p (.write32 addr v) ≠ .ok (.writeG a b) := by
    intro addr v
    simp only [busAccess, word32]
    split
    · split <;> simp
    · split <;> simp
  have hr : ∀ addr, busAccess p (.read32 addr) ≠ .ok (.writeF a b) ∧
      busAccess p (.read32 addr) ≠ .ok (.writeG a b) := by
    intro addr
    simp only [busAccess, word32]
    split
    · split <;> simp
    · split <;> simp
  cases op with
  | write32 addr v => exact ⟨fun h => absurd h (hw addr v).1, fun h => absurd h (hw addr v).2⟩
  | read32 addr => exact ⟨fun h => absurd h (hr addr).1, fun h => absurd h (hr addr).2⟩
  | write8 addr c =>
    simp only [busAccess, byte8]
    split
    · rename_i h
      rw [inWindow_iff] at h
      simp only [Except.ok.injEq, Access.writeF.injEq, reduceCtorEq, false_implies, and_true]
      omega
    · split
      · rename_i h
        rw [inWindow_iff] at h
        simp only [Except.ok.injEq, Access.writeG.injEq, reduceCtorEq, false_implies, true_and]
        omega
      · split <;> simp
  | read8 addr =>
    simp only [busAccess, byte8]
    split
    · simp
    · split
      · simp
      · split <;> simp

/-! ### One host transaction -/

/-- A step whose event is a host transaction that is an access of the block. -/
theorem step_host {s : State} {op : BusOp} {a : Access} {rest : List Event} (hi : s.inputs = .host op :: rest)
    (ha : busAccess s.params op = .ok a) : step s =
      .next (if s.rst then heldAccess a { s with inputs := rest } else hostAccess a { s with inputs := rest }) := by
  rw [step_cons hi]
  show hostStep op _ = _
  unfold hostStep
  simp only [ha]

theorem step_host_released {s : State} {op : BusOp} {a : Access} {rest : List Event} (h : s.rst = false)
    (hi : s.inputs = .host op :: rest) (ha : busAccess s.params op = .ok a) :
    step s = .next (hostAccess a { s with inputs := rest }) := by
  rw [step_host hi ha, if_neg (by rw [h]; exact Bool.false_ne_true)]

theorem step_host_held {s : State} {op : BusOp} {a : Access} {rest : List Event} (h : s.rst = true)
    (hi : s.inputs = .host op :: rest) (ha : busAccess s.params op = .ok a) :
    step s = .next (heldAccess a { s with inputs := rest }) := by
  rw [step_host hi ha, if_pos h]

theorem step_busWR {s : State} {r : Reg} {v : Word} {rest : List Event} (h : s.rst = false)
    (hi : s.inputs = .host (busWR s.params r v) :: rest) : step s = .next (writeReg r v { s with inputs := rest }) := by
  rw [step_host hi (busAccess_busWR _ _ _)]
  simp only [h, hostAccess, regAt_offset, Bool.false_eq_true, if_false]

theorem step_busRD {s : State} {r : Reg} {rest : List Event} (h : s.rst = false)
    (hi : s.inputs = .host (busRD s.params r) :: rest) :
    step s = .next (answer (regWord s r) { s with inputs := rest }) := by
  rw [step_host hi (busAccess_busRD _ _)]
  simp only [h, hostAccess, regAt_offset, Bool.false_eq_true, if_false]
  cases r <;> rfl

/-- A host register write while BUSY = 1, of a register but STATUS and IRQEN: dropped, with HAZ (R143). -/
theorem writeReg_busy {r : Reg} (h1 : r ≠ .status) (h2 : r ≠ .irqen) (v : Word) {s : State} (h : s.busy = true) :
    writeReg r v s = setHaz s := by
  cases r with
  | status => exact absurd rfl h1
  | irqen => exact absurd rfl h2
  | _ => exact if_pos h

/-- The fields a host access never writes. -/
theorem hostAccess_keeps (a : Access) (s : State) :
    (hostAccess a s).params = s.params ∧ (hostAccess a s).inputs = s.inputs ∧ (hostAccess a s).rst = s.rst ∧
      (hostAccess a s).epoch = s.epoch := by
  cases a with
  | writeReg off v =>
    simp only [hostAccess]
    cases regAt off with
    | none => exact ⟨rfl, rfl, rfl, rfl⟩
    | some r => cases r <;> simp only [writeReg, whenIdle] <;> (try split) <;> exact ⟨rfl, rfl, rfl, rfl⟩
  | readReg off =>
    simp only [hostAccess]
    cases regAt off with
    | none => exact ⟨rfl, rfl, rfl, rfl⟩
    | some r => exact ⟨rfl, rfl, rfl, rfl⟩
  | writeF x b => simp only [hostAccess, whenIdle]; split <;> exact ⟨rfl, rfl, rfl, rfl⟩
  | readF x => simp only [hostAccess, readByte]; split <;> exact ⟨rfl, rfl, rfl, rfl⟩
  | writeG x b => simp only [hostAccess, whenIdle]; split <;> exact ⟨rfl, rfl, rfl, rfl⟩
  | readG x => simp only [hostAccess, readByte]; split <;> exact ⟨rfl, rfl, rfl, rfl⟩

theorem readByte_busy (b : Byte) {s : State} (h : s.busy = true) :
    readByte b s = setHaz (nextDraw (answer ((Config.busyRead s.draws).setWidth 32) s)) := if_pos h

theorem readByte_idle (b : Byte) {s : State} (h : s.busy = false) : readByte b s = answer (b.setWidth 32) s :=
  if_neg (by rw [h]; exact Bool.false_ne_true)

/-- While BUSY = 1 a host access changes DONE, HAZ, IE, the answer to a read and the count of free reads, nothing else
(R143, R144). -/
theorem hostAccess_busy (a : Access) {s : State} (h : s.busy = true) : hostAccess a s =
    { s with
      done := (hostAccess a s).done, haz := (hostAccess a s).haz, ie := (hostAccess a s).ie,
      rdata := (hostAccess a s).rdata, draws := (hostAccess a s).draws } := by
  cases a with
  | writeReg off v =>
    simp only [hostAccess]
    cases regAt off with
    | none => rfl
    | some r => cases r <;> simp only [writeReg, whenIdle_busy _ h] <;> rfl
  | readReg off => simp only [hostAccess]; cases regAt off <;> rfl
  | writeF x b => simp only [hostAccess, whenIdle_busy _ h]; rfl
  | readF x => simp only [hostAccess, readByte_busy _ h]; rfl
  | writeG x b => simp only [hostAccess, whenIdle_busy _ h]; rfl
  | readG x => simp only [hostAccess, readByte_busy _ h]; rfl

/-- While `rst` is held a host access changes the answer to a read and the count of free reads, nothing else (R137). -/
theorem heldAccess_frame (a : Access) (s : State) :
    heldAccess a s = { s with rdata := (heldAccess a s).rdata, draws := (heldAccess a s).draws } := by
  cases a <;> rfl

/-! ### One engine step -/

theorem step_engine {s : State} {rest : List Event} (h : s.rst = false) (hb : s.busy = true)
    (hi : s.inputs = .engine :: rest) : step s = runCommandWord s.engOp { s with inputs := rest } := by
  rw [step_cons hi]
  simp only [react, h, engineStep, hb, if_true, Bool.false_eq_true, if_false]

theorem step_engine_nil {s : State} (h : s.rst = false) (hb : s.busy = true) (hi : s.inputs = []) :
    step s = runCommandWord s.engOp s := by
  rw [step_nil hi]
  simp only [react, h, engineStep, hb, if_true, Bool.false_eq_true, if_false]

theorem runCommandWord_of_ok {w : Word} {i : Instr} (h : decode w = .ok i) (s : State) :
    runCommandWord w s = exec i s := by
  unfold runCommandWord
  rw [h]

theorem runCommandWord_of_error {w : Word} {e : IllegalWord} (h : decode w = .error e) (s : State) :
    runCommandWord w s = .next (raiseError .illegalCmd s) := by
  unfold runCommandWord
  rw [h]

/-- Everything a running command word can do (R66, R121): end with an error in the state it began in, the bit index
apart; or end with success after changing at most a command's results. -/
theorem runCommandWord_cases (w : Word) (s : State) :
    (∃ e b, runCommandWord w s = .next (raiseError e { s with bitIdx := b })) ∨
    (∃ u, runCommandWord w s = .next (complete u) ∧ SameButResults s u) := by
  unfold runCommandWord
  cases decode w with
  | ok i => exact exec_cases i s
  | error _ => exact .inl ⟨.illegalCmd, s.bitIdx, rfl⟩

theorem runCommandWord_memoriesOk {w : Word} {s t : State} (h : s.memoriesOk = true)
    (ht : runCommandWord w s = .next t) : t.memoriesOk = true := by
  unfold runCommandWord at ht
  cases hd : decode w with
  | ok i => rw [hd] at ht; exact exec_memoriesOk h ht
  | error _ => rw [hd] at ht; injection ht with ht; rw [← ht]; exact raiseError_memoriesOk h _

end Sys2Proof.Machine
end

