-- ==== Sys2Proof/Laws/Listed.lean ====
section
/-! SUPPORT. No command takes a byte back: a byte of F or G that has been written stays a written byte. -/

namespace Sys2Proof.Machine

/-- Every byte of F and G listed in `s` is listed in `t`. -/
def KeepsListed (s t : State) : Prop :=
  (∀ a, (Memory.byteAt s.fmem a).isSome → (Memory.byteAt t.fmem a).isSome) ∧
    (∀ a, (Memory.byteAt s.gmem a).isSome → (Memory.byteAt t.gmem a).isSome)

theorem KeepsListed.refl (s : State) : KeepsListed s s := ⟨fun _ h => h, fun _ h => h⟩

theorem KeepsListed.trans {s t u : State} (h1 : KeepsListed s t) (h2 : KeepsListed t u) : KeepsListed s u :=
  ⟨fun a h => h2.1 a (h1.1 a h), fun a h => h2.2 a (h1.2 a h)⟩

theorem KeepsListed.of_eq {s t : State} (hf : t.fmem = s.fmem) (hg : t.gmem = s.gmem) : KeepsListed s t := by
  unfold KeepsListed
  rw [hf, hg]
  exact ⟨fun _ h => h, fun _ h => h⟩

theorem writeF_keepsListed (s : State) (x : Nat) (b : Byte) : KeepsListed s (writeF s x b) := by
  refine ⟨fun a h => ?_, fun _ h => h⟩
  rw [writeF_fmem, Memory.byteAt_put]
  split
  · rfl
  · exact h

theorem writeG_keepsListed (s : State) (x : Nat) (b : Byte) : KeepsListed s (writeG s x b) := by
  refine ⟨fun _ h => h, fun a h => ?_⟩
  rw [writeG_gmem, Memory.byteAt_put]
  split
  · rfl
  · exact h

theorem writeFBytes_keepsListed (bytes : List Byte) : ∀ (s : State) (a : Nat),
    KeepsListed s (writeFBytes s a bytes) := by
  induction bytes with
  | nil => intro s a; exact .refl s
  | cons b rest ih => intro s a; exact (writeF_keepsListed s a b).trans (ih _ _)

theorem foldl_embedBit_keepsListed (bits : List Bool) : ∀ s : State, KeepsListed s (bits.foldl embedBit s) := by
  induction bits with
  | nil => intro s; exact .refl s
  | cons b rest ih =>
    intro s
    have h : KeepsListed s (embedBit s b) := (writeG_keepsListed s _ _).trans (.of_eq rfl rfl)
    exact h.trans (ih _)

theorem foldl_extractByte_keepsListed (ks : List Nat) : ∀ s : State, KeepsListed s (ks.foldl extractByte s) := by
  induction ks with
  | nil => intro s; exact .refl s
  | cons k rest ih =>
    intro s
    have h : KeepsListed s (extractByte s k) :=
      KeepsListed.trans (.of_eq rfl rfl) (writeF_keepsListed (assembleByte s) k (assembleByte s).acc)
    exact h.trans (ih _)

theorem writePrefix_keepsListed (s : State) : KeepsListed s (writePrefix s) := writeFBytes_keepsListed _ _ _

theorem embedFrame_keepsListed (n : Nat) (s : State) : KeepsListed s (embedFrame n s) :=
  KeepsListed.trans (.of_eq rfl rfl) (foldl_embedBit_keepsListed _ (startWalk s))

theorem extractFrame_keepsListed (n : Nat) (s : State) : KeepsListed s (extractFrame n s) :=
  KeepsListed.trans (.of_eq rfl rfl) (foldl_extractByte_keepsListed _ (startWalk s))

theorem complete_keepsListed {s t : State} (h : KeepsListed s t) : KeepsListed s (complete t) := h

theorem setFlen_keepsListed {s t : State} (v : Word) (h : KeepsListed s t) : KeepsListed s (setFlen v t) := h

theorem finishDecode_keepsListed {s t : State} (h : KeepsListed s t) : KeepsListed s (finishDecode t) := by
  rw [finishDecode_frame]
  exact h

theorem readLength_keepsListed (s : State) : KeepsListed s (readLength s).2 := .of_eq rfl rfl

theorem command_keepsListed (checks : List (Bool × CmdError)) (effect : State → State) {s : State}
    (h : KeepsListed s (effect s)) : KeepsListed s (command checks effect s) := by
  rcases command_cases checks effect s with ⟨e, _, h1⟩ | ⟨_, h1⟩
  · rw [h1]; exact .of_eq rfl rfl
  · rw [h1]; exact complete_keepsListed h

theorem exec_keepsListed {i : Instr} {s t : State} (ht : exec i s = .next t) : KeepsListed s t := by
  have key : ∀ checks effect, exec i s = .next (command checks effect s) → KeepsListed s (effect s) →
      KeepsListed s t := by
    intro checks effect h1 h2
    rw [h1] at ht
    injection ht with ht
    rw [← ht]
    exact command_keepsListed checks effect h2
  cases i with
  | serialize => exact key _ _ rfl (setFlen_keepsListed _ (writePrefix_keepsListed s))
  | deserialize => exact key _ _ rfl (by rw [deserializeEffect_frame]; exact .of_eq rfl rfl)
  | embed => exact key _ _ rfl (embedFrame_keepsListed _ s)
  | extractLength => exact key _ _ rfl (.of_eq rfl rfl)
  | extractBits => exact key _ _ rfl (setFlen_keepsListed _ (extractFrame_keepsListed _ s))
  | encode =>
    exact key _ _ rfl
      (setFlen_keepsListed _ ((writePrefix_keepsListed s).trans (embedFrame_keepsListed _ (writePrefix s))))
  | decode =>
    change execDecode s = _ at ht
    rcases execDecode_cases s with ⟨e, _, h1⟩ | ⟨_, e, _, h1⟩ | ⟨_, _, h1⟩
    · rw [h1] at ht; injection ht with ht; rw [← ht]; exact .of_eq rfl rfl
    · rw [h1] at ht; injection ht with ht; rw [← ht]; exact .of_eq rfl rfl
    · rw [h1] at ht
      injection ht with ht
      rw [← ht]
      exact complete_keepsListed (finishDecode_keepsListed ((readLength_keepsListed s).trans
        (extractFrame_keepsListed _ _)))

end Sys2Proof.Machine
end

