-- ==== Sys2Proof/Laws/PerInstr.lean ====
section
/-! SUPPORT. What holds of every command as syntax, one lemma per constructor. -/

/-- The command word of the instruction has RSV = 0 and an OP of the opcode map (R64, R65). -/
def Sys2Proof.Laws.CommandWord.Statement (i : Sys2Proof.Instr) : Prop :=
  i.wellFormed = true ∧ Sys2Proof.rsvField (Sys2Proof.encode i) = 0#28 ∧
    1 ≤ (Sys2Proof.opField (Sys2Proof.encode i)).toNat ∧ (Sys2Proof.opField (Sys2Proof.encode i)).toNat ≤ 7

namespace Sys2Proof.Laws.CommandWord

theorem serialize : Statement .serialize := by unfold Statement; decide
theorem deserialize : Statement .deserialize := by unfold Statement; decide
theorem embed : Statement .embed := by unfold Statement; decide
theorem extractLength : Statement .extractLength := by unfold Statement; decide
theorem extractBits : Statement .extractBits := by unfold Statement; decide
theorem decode : Statement .decode := by unfold Statement; decide
theorem encode : Statement .encode := by unfold Statement; decide

end Sys2Proof.Laws.CommandWord
end

