-- ==== Sys2Proof/Laws/Unread.lean ====
section
/-! SUPPORT. The fields no command reads: a command run on another value of them does the same, and leaves them.
PLEN and FLEN are no command's operands either (the latches are), but some commands write them. -/

namespace Sys2Proof.Machine

/-- `s`, with every field that no command reads taken from `o`: the flags DONE and HAZ, the host registers whose values
are latched, the latched word, and the model's own fields. -/
def withUnread (o s : State) : State :=
  { s with
    done := o.done, haz := o.haz, ie := o.ie, height := o.height, width := o.width, channels := o.channels,
    xbitsLo := o.xbitsLo, xbitsHi := o.xbitsHi, engOp := o.engOp, rst := o.rst, rdata := o.rdata,
    inputs := o.inputs, draws := o.draws }

/-- How a command ends on a state with other unread fields: those fields stay, but DONE is 1. -/
def endUnread (o t : State) : State := { withUnread o t with done := true }

theorem writeFBytes_withUnread (o : State) (bytes : List Byte) : ∀ (s : State) (a : Nat),
    writeFBytes (withUnread o s) a bytes = withUnread o (writeFBytes s a bytes) := by
  induction bytes with
  | nil => intro s a; rfl
  | cons b rest ih => intro s a; exact ih (writeF s a b) (a + 1)

theorem foldl_embedBit_withUnread (o : State) (bits : List Bool) : ∀ s : State,
    bits.foldl embedBit (withUnread o s) = withUnread o (bits.foldl embedBit s) := by
  induction bits with
  | nil => intro s; rfl
  | cons b rest ih => intro s; exact ih (embedBit s b)

theorem foldl_extractByte_withUnread (o : State) (ks : List Nat) : ∀ s : State,
    ks.foldl extractByte (withUnread o s) = withUnread o (ks.foldl extractByte s) := by
  induction ks with
  | nil => intro s; rfl
  | cons k rest ih => intro s; exact ih (extractByte s k)

theorem writePrefix_withUnread (o s : State) : writePrefix (withUnread o s) = withUnread o (writePrefix s) :=
  writeFBytes_withUnread o _ s 0

theorem embedFrame_withUnread (o : State) (n : Nat) (s : State) :
    embedFrame n (withUnread o s) = withUnread o (embedFrame n s) :=
  foldl_embedBit_withUnread o _ (startWalk s)

theorem extractFrame_withUnread (o : State) (n : Nat) (s : State) :
    extractFrame n (withUnread o s) = withUnread o (extractFrame n s) :=
  foldl_extractByte_withUnread o _ (startWalk s)

theorem deserializeEffect_withUnread (o s : State) :
    deserializeEffect (withUnread o s) = withUnread o (deserializeEffect s) := by
  unfold deserializeEffect
  rw [show prefixF (withUnread o s) = prefixF s from rfl, show (withUnread o s).opN = s.opN from rfl]
  split <;> rfl

theorem finishDecode_withUnread (o s : State) :
    finishDecode (withUnread o s) = withUnread o (finishDecode s) := by
  unfold finishDecode
  rw [show prefixF (withUnread o s) = prefixF s from rfl]
  rfl

theorem readLength_withUnread (o s : State) : (readLength (withUnread o s)).1 = (readLength s).1 ∧
    (readLength (withUnread o s)).2 = withUnread o (readLength s).2 := ⟨rfl, rfl⟩

/-- A command with effect `effect`, on other unread fields. -/
theorem command_withUnread (o s : State) (checks : List (Bool × CmdError)) (effect effect' : State → State)
    (h : effect' (withUnread o s) = withUnread o (effect s)) :
    command checks effect' (withUnread o s) = endUnread o (command checks effect s) := by
  unfold command
  cases firstFailing checks with
  | some e => rfl
  | none => simp only [h]; rfl

/-- No command reads those fields (R26, R119, R143). -/
theorem exec_withUnread {i : Instr} {s t : State} (o : State) (h : exec i s = .next t) :
    exec i (withUnread o s) = .next (endUnread o t) := by
  have key : ∀ checks effect effect', exec i s = .next (command checks effect s) →
      exec i (withUnread o s) = .next (command checks effect' (withUnread o s)) →
      effect' (withUnread o s) = withUnread o (effect s) → exec i (withUnread o s) = .next (endUnread o t) := by
    intro checks effect effect' h1 h2 h3
    rw [h1] at h
    injection h with h
    rw [h2, command_withUnread o s checks effect effect' h3, h]
  cases i with
  | serialize =>
    exact key (serializeChecks s) _ _ rfl rfl (by
      show setFlen _ (writePrefix (withUnread o s)) = _
      rw [writePrefix_withUnread]; rfl)
  | deserialize => exact key (deserializeChecks s) _ _ rfl rfl (deserializeEffect_withUnread o s)
  | embed => exact key (embedChecks s) _ _ rfl rfl (embedFrame_withUnread o _ s)
  | extractLength => exact key (lengthChecks s) _ _ rfl rfl rfl
  | extractBits =>
    exact key (extractBitsChecks s) _ _ rfl rfl (by
      show setFlen _ (extractFrame (s.opT.toNat / 8) (withUnread o s)) = _
      rw [extractFrame_withUnread]; rfl)
  | encode =>
    exact key (encodeChecks s) _ _ rfl rfl (by
      show setFlen _ (embedFrame (4 + s.opL.toNat) (writePrefix (withUnread o s))) = _
      rw [writePrefix_withUnread, embedFrame_withUnread]; rfl)
  | decode =>
    change execDecode s = _ at h
    change execDecode (withUnread o s) = _
    unfold execDecode at h ⊢
    rw [show lengthChecks (withUnread o s) = lengthChecks s from rfl]
    injection h with h
    rw [← h]
    cases firstFailing (lengthChecks s) with
    | some e => rfl
    | none =>
      refine congrArg _ ?_
      unfold decodeBody
      obtain ⟨h1, h2⟩ := readLength_withUnread o s
      simp only [h1, h2]
      exact command_withUnread o _ _ _ _ (by rw [extractFrame_withUnread, finishDecode_withUnread])

theorem runCommandWord_withUnread {w : Word} {s t : State} (o : State) (h : runCommandWord w s = .next t) :
    runCommandWord w (withUnread o s) = .next (endUnread o t) := by
  cases hd : decode w with
  | ok i => rw [runCommandWord_of_ok hd] at h ⊢; exact exec_withUnread o h
  | error e =>
    rw [runCommandWord_of_error hd] at h ⊢
    injection h with h
    rw [← h]
    rfl

/-- What a command leaves of the fields it does not read: all but DONE, which is 1. -/
theorem eq_endUnread_of_run {w : Word} {s t : State} (h : runCommandWord w s = .next t) : t = endUnread s t := by
  have h2 := runCommandWord_withUnread s h
  rw [show withUnread s s = s from rfl, h] at h2
  injection h2

/-! ### PLEN and FLEN: no command reads them, and each keeps what it does not write -/

/-- `s` with other values in PLEN and FLEN. -/
def withLengths (l n : Word) (s : State) : State := { s with plen := l, flen := n }

theorem writeFBytes_withLengths (l n : Word) (bytes : List Byte) : ∀ (s : State) (a : Nat),
    writeFBytes (withLengths l n s) a bytes = withLengths l n (writeFBytes s a bytes) := by
  induction bytes with
  | nil => intro s a; rfl
  | cons b rest ih => intro s a; exact ih (writeF s a b) (a + 1)

theorem foldl_embedBit_withLengths (l n : Word) (bits : List Bool) : ∀ s : State,
    bits.foldl embedBit (withLengths l n s) = withLengths l n (bits.foldl embedBit s) := by
  induction bits with
  | nil => intro s; rfl
  | cons b rest ih => intro s; exact ih (embedBit s b)

theorem foldl_extractByte_withLengths (l n : Word) (ks : List Nat) : ∀ s : State,
    ks.foldl extractByte (withLengths l n s) = withLengths l n (ks.foldl extractByte s) := by
  induction ks with
  | nil => intro s; rfl
  | cons k rest ih => intro s; exact ih (extractByte s k)

theorem writePrefix_withLengths (l n : Word) (s : State) :
    writePrefix (withLengths l n s) = withLengths l n (writePrefix s) := writeFBytes_withLengths l n _ s 0

theorem embedFrame_withLengths (l n : Word) (k : Nat) (s : State) :
    embedFrame k (withLengths l n s) = withLengths l n (embedFrame k s) :=
  foldl_embedBit_withLengths l n _ (startWalk s)

theorem extractFrame_withLengths (l n : Word) (k : Nat) (s : State) :
    extractFrame k (withLengths l n s) = withLengths l n (extractFrame k s) :=
  foldl_extractByte_withLengths l n _ (startWalk s)

theorem deserializeEffect_withLengths (l n : Word) (s : State) :
    deserializeEffect (withLengths l n s) = withLengths (deserializeEffect s).plen n (deserializeEffect s) := by
  unfold deserializeEffect
  rw [show prefixF (withLengths l n s) = prefixF s from rfl, show (withLengths l n s).opN = s.opN from rfl]
  split <;> rfl

theorem finishDecode_withLengths (l n : Word) (s : State) :
    finishDecode (withLengths l n s) = withLengths (finishDecode s).plen (finishDecode s).flen (finishDecode s) := by
  unfold finishDecode
  rw [show prefixF (withLengths l n s) = prefixF s from rfl]
  rfl

/-- A command on other lengths, whose effect writes PLEN if `p` and FLEN if `q`, and reads neither. -/
theorem command_withLengths {l n : Word} {s : State} {checks : List (Bool × CmdError)}
    {effect effect' : State → State} {p q : Prop} [Decidable p] [Decidable q]
    (h : effect' (withLengths l n s) =
      withLengths (if p then (effect s).plen else l) (if q then (effect s).flen else n) (effect s)) :
    command checks effect' (withLengths l n s) =
      withLengths (if (command checks effect s).errcode = 0#4 ∧ p then (command checks effect s).plen else l)
        (if (command checks effect s).errcode = 0#4 ∧ q then (command checks effect s).flen else n)
        (command checks effect s) := by
  unfold command
  cases firstFailing checks with
  | some e => cases e <;> simp [raiseError, CmdError.code, withLengths]
  | none =>
    show complete (effect' (withLengths l n s)) = _
    rw [h]
    simp [complete, withLengths]

/-- No command reads PLEN or FLEN; on success the commands named write them (R26, R68, R143). -/
theorem exec_withLengths {i : Instr} {s t : State} (l n : Word) (h : exec i s = .next t) :
    exec i (withLengths l n s) = .next (withLengths
      (if t.errcode = 0#4 ∧ (i = .deserialize ∨ i = .extractLength ∨ i = .decode) then t.plen else l)
      (if t.errcode = 0#4 ∧ (i = .serialize ∨ i = .extractBits ∨ i = .decode ∨ i = .encode) then t.flen else n) t) := by
  have key : ∀ checks effect effect', exec i s = .next (command checks effect s) →
      exec i (withLengths l n s) = .next (command checks effect' (withLengths l n s)) →
      effect' (withLengths l n s) = withLengths
        (if i = .deserialize ∨ i = .extractLength ∨ i = .decode then (effect s).plen else l)
        (if i = .serialize ∨ i = .extractBits ∨ i = .decode ∨ i = .encode then (effect s).flen else n) (effect s) →
      exec i (withLengths l n s) = .next (withLengths
        (if t.errcode = 0#4 ∧ (i = .deserialize ∨ i = .extractLength ∨ i = .decode) then t.plen else l)
        (if t.errcode = 0#4 ∧ (i = .serialize ∨ i = .extractBits ∨ i = .decode ∨ i = .encode) then t.flen else n)
        t) := by
    intro checks effect effect' h1 h2 h3
    rw [h1] at h
    injection h with h
    rw [h2, command_withLengths h3, h]
  cases i with
  | serialize =>
    exact key (serializeChecks s) _ _ rfl rfl (by
      show setFlen _ (writePrefix (withLengths l n s)) = _
      rw [writePrefix_withLengths]; rfl)
  | deserialize => exact key (deserializeChecks s) _ _ rfl rfl (deserializeEffect_withLengths l n s)
  | embed => exact key (embedChecks s) _ _ rfl rfl (embedFrame_withLengths l n _ s)
  | extractLength => exact key (lengthChecks s) _ _ rfl rfl rfl
  | extractBits =>
    exact key (extractBitsChecks s) _ _ rfl rfl (by
      show setFlen _ (extractFrame (s.opT.toNat / 8) (withLengths l n s)) = _
      rw [extractFrame_withLengths]; rfl)
  | encode =>
    exact key (encodeChecks s) _ _ rfl rfl (by
      show setFlen _ (embedFrame (4 + s.opL.toNat) (writePrefix (withLengths l n s))) = _
      rw [writePrefix_withLengths, embedFrame_withLengths]; rfl)
  | decode =>
    change execDecode s = _ at h
    change execDecode (withLengths l n s) = _
    unfold execDecode at h ⊢
    rw [show lengthChecks (withLengths l n s) = lengthChecks s from rfl]
    injection h with h
    rw [← h]
    cases firstFailing (lengthChecks s) with
    | some e => cases e <;> rfl
    | none =>
      refine congrArg _ ?_
      unfold decodeBody
      exact command_withLengths (s := (readLength s).2) (l := l) (n := n) (by
        show finishDecode (extractFrame (4 + (readLength s).1) (withLengths l n (readLength s).2)) = _
        rw [extractFrame_withLengths, finishDecode_withLengths]; rfl)

end Sys2Proof.Machine
end

