-- ==== Sys2Proof/Laws/Program.lean ====
section
/-! SUPPORT. What POLL and RUN do (30_encoding R72), for citing instead of unfolding. -/

namespace Sys2Proof.Machine

/-- A register write of a host program, while `rst` is released. -/
theorem hostMove_busWR {s : State} (h : s.rst = false) (r : Reg) (v : Word) :
    hostMove (busWR s.params r v) s = some (writeReg r v s) := by
  unfold hostMove
  rw [step_busWR (s := { s with inputs := .host (busWR s.params r v) :: s.inputs }) h rfl]
  rfl

/-- `RD STATUS` of a host program, while `rst` is released: the flags, read at one moment. -/
theorem hostMove_status {s : State} (h : s.rst = false) :
    hostMove (busRD s.params .status) s = some (answer (statusWord s) s) := by
  unfold hostMove
  rw [step_busRD (s := { s with inputs := .host (busRD s.params .status) :: s.inputs }) h rfl]
  rfl

/-- Bit 1 of STATUS is DONE (R21). -/
theorem statusWord_done (s : State) : (statusWord s).getLsbD 1 = s.done := by
  have h : ∀ (b d t h : Bool) (e : BitVec 4), (0#20 ++ e ++ 0#4 ++ BitVec.ofBool h ++ BitVec.ofBool t ++
      BitVec.ofBool d ++ BitVec.ofBool b : BitVec 32).getLsbD 1 = d := by decide
  exact h _ _ _ _ _

theorem pollEnds_answer (s : State) : pollEnds (answer (statusWord s) s) = s.done := statusWord_done s

/-- The engine of an idle block, with no event pending, stays where it is (R136). -/
theorem othersMove_idle {s : State} (h : s.busy = false) (hi : s.inputs = []) (n : Nat) :
    othersMove n s = some s := by
  induction n with
  | zero => rfl
  | succ n ih =>
    have hs : step s = .next s := by
      rw [step_nil hi]
      cases hr : s.rst <;> simp [react, hr, engineStep, h]
    simp only [othersMove, hostIsNext, hi, hs, nextState, Option.bind_some, ih, Bool.false_eq_true, if_false]

/-- The engine of a busy block completes its command in its first step and then idles (R39, R121). -/
theorem othersMove_busy {s t : State} (hr : s.rst = false) (hb : s.busy = true) (hi : s.inputs = [])
    (h : runCommandWord s.engOp s = .next t) (n : Nat) : othersMove (n + 1) s = some t := by
  have ht := eq_endUnread_of_run h
  have hbt : t.busy = false := by
    rcases runCommandWord_cases s.engOp s with ⟨e, b, h'⟩ | ⟨u, h', _⟩ <;>
      (rw [h] at h'; injection h' with h'; rw [h']; rfl)
  have hit : t.inputs = [] := by rw [ht]; exact hi
  simp only [othersMove, hostIsNext, hi, step_engine_nil hr hb hi, h, nextState, Option.bind_some,
    othersMove_idle hbt hit n, Bool.false_eq_true, if_false]

/-- A round of POLL with no step of the other agents before the read. -/
theorem pollRound_zero {s : State} (h : s.rst = false) :
    pollRound 0 s = some (answer (statusWord s) s) := by
  unfold pollRound othersMove
  exact hostMove_status h

/-- Reads of STATUS with no step of the engine between them change only the value read, and POLL goes on. -/
theorem hostPoll_waits (k : Nat) (gaps : List Nat) : ∀ {s : State}, s.rst = false → s.done = false →
    ∃ v, hostPoll (List.replicate k 0 ++ gaps) s = hostPoll gaps (answer v s) := by
  induction k with
  | zero => exact fun {s} _ _ => ⟨s.rdata, rfl⟩
  | succ k ih =>
    intro s hr hd
    obtain ⟨v, hv⟩ := ih (s := answer (statusWord s) s) hr hd
    refine ⟨v, Eq.trans ?_ hv⟩
    simp only [List.replicate_succ, List.cons_append, hostPoll, pollRound_zero hr, Option.bind_some, pollEnds_answer,
      hd, Bool.false_eq_true, if_false]

/-- POLL on a busy block whose engine completes to `t` before the first read: it ends with that read (R72, R147). -/
theorem hostPoll_completes {s t : State} (hr : s.rst = false) (hb : s.busy = true) (hi : s.inputs = [])
    (h : runCommandWord s.engOp s = .next t) (n : Nat) (gaps : List Nat) :
    hostPoll ((n + 1) :: gaps) s = some (answer (statusWord t) t) := by
  have ht := eq_endUnread_of_run h
  have hrt : t.rst = false := by rw [ht]; exact hr
  have hdt : t.done = true := by rw [ht]; rfl
  simp only [hostPoll, pollRound, othersMove_busy hr hb hi h, Option.bind_some, hostMove_status hrt, pollEnds_answer,
    hdt, if_true]

end Sys2Proof.Machine
end

