-- ==== Sys2Proof/Laws/Source.lean ====
section
/-! SUPPORT. The source's functions over coordinates, against the engine's bit slots; and reading back what was embedded. -/

namespace Sys2Proof.Machine

theorem lsbRead_lsbWrite : ∀ (x : Byte) (b : Bool), lsbRead (lsbWrite x b) = b := by decide

/-- The coordinate of an index, counted back to the index (R85). -/
theorem coord_index (i w : Nat) :
    ((coord i w).1 * w + (coord i w).2.1) * 3 + (coord i w).2.2 = i := by
  simp only [coord]
  rw [Nat.div_add_mod' (i / 3) w]
  omega

/-- The coordinate of the index a coordinate counts to (R85). -/
theorem coord_of_index {w col ch : Nat} (row : Nat) (hc : col < w) (hch : ch < 3) :
    coord ((row * w + col) * 3 + ch) w = (row, col, ch) := by
  have e1 : ((row * w + col) * 3 + ch) / 3 = row * w + col := by omega
  have e2 : ((row * w + col) * 3 + ch) % 3 = ch := by omega
  simp only [coord, e1, e2]
  rw [Nat.mul_comm row w, Nat.mul_add_div (by omega), Nat.div_eq_of_lt hc, Nat.mul_add_mod, Nat.mod_eq_of_lt hc]
  simp

/-- Embed's loop from index `i` on writes the bits at the samples whose index lies in their range, and no others
(R98, R102). -/
theorem embedLoop_spec {w : Nat} (bits : List Bool) : ∀ (i : Nat) (g : Grid) (row col ch : Nat), col < w →
    embedLoop w bits i g row col ch =
      if h : ch < 3 ∧ i ≤ (row * w + col) * 3 + ch ∧ (row * w + col) * 3 + ch - i < bits.length then
        lsbWrite (g row col ch) (bits[(row * w + col) * 3 + ch - i]'h.2.2)
      else g row col ch := by
  induction bits with
  | nil => intro i g row col ch _; simp [embedLoop]
  | cons b rest ih =>
    intro i g row col ch hc
    unfold embedLoop
    rw [ih _ _ _ _ _ hc]
    by_cases hch : ch < 3
    · set x := (row * w + col) * 3 + ch with hx
      have hcoord : coord x w = (row, col, ch) := coord_of_index row hc hch
      by_cases hxi : x = i
      · have hset : Grid.set g (coord i w) (lsbWrite (Grid.at g (coord i w)) b) row col ch =
            lsbWrite (g row col ch) b := by
          rw [← hxi, hcoord]
          simp [Grid.set, Grid.at]
        rw [hset]
        simp [hch, hxi]
      · have hne : (row, col, ch) ≠ coord i w := by
          intro he
          have h1 := coord_index i w
          rw [← he] at h1
          simp only at h1
          omega
        have hset : Grid.set g (coord i w) (lsbWrite (Grid.at g (coord i w)) b) row col ch = g row col ch := by
          simp [Grid.set, hne]
        rw [hset]
        by_cases hle : i + 1 ≤ x
        · obtain ⟨d, hd⟩ : ∃ d, x = i + 1 + d := ⟨x - (i + 1), by omega⟩
          have e1 : x - i = d + 1 := by omega
          have e2 : x - (i + 1) = d := by omega
          have e3 : i ≤ x := by omega
          simp [hch, hle, e1, e2, e3]
        · have h3 : ¬ i ≤ x := by omega
          simp [hle, h3]
    · have hne : (row, col, ch) ≠ coord i w := by
        intro he
        have : ch = i % 3 := congrArg (fun p => p.2.2) he
        omega
      simp [hch, Grid.set, hne]

/-- The engine's bit slots are the LSBs of the samples of the Coordinate Sequence (R84, R86, R97). -/
theorem sourceBits_gridOf (s : State) (n : Nat) :
    sourceBits s.opW.toNat (gridOf s) n = extract s n := by
  unfold sourceBits extract
  apply List.map_congr_left
  intro i _
  show lsbRead (readG s (gaddr s.opW.toNat s.opC.toNat _ _ _)) = lsbRead (readG s _)
  unfold seqAddr gaddr coord
  simp only
  rw [Nat.div_add_mod' (i / 3) s.opW.toNat]

/-- A byte embedded bit by bit is the byte the packer makes of its slots. -/
theorem slotByte_of_embedded {t : State} {k : Nat} {f : Nat → Byte}
    (h : ∀ i, 8 * k ≤ i → i < 8 * k + 8 →
      ∃ x, readG t (seqAddr t.opC.toNat i) = lsbWrite x ((f (i / 8)).getLsbD (7 - i % 8))) : slotByte t k = f k := by
  have hb : byteBits (slotByte t k) = byteBits (f k) := by
    rw [byteBits_slotByte]
    apply List.ext_getElem
    · simp [byteBits_length]
    · intro m h1 h2
      have hm : m < 8 := by simpa using h1
      rw [byteBits_getElem]
      simp only [List.getElem_map, List.getElem_range]
      obtain ⟨x, hx⟩ := h (8 * k + m) (by omega) (by omega)
      unfold slot
      rw [hx, lsbRead_lsbWrite, show (8 * k + m) / 8 = k by omega, show (8 * k + m) % 8 = m by omega]
  rw [← byteBits_foldl_shiftIn (slotByte t k), hb, byteBits_foldl_shiftIn]

theorem prefixG_of_bytes {t : State} {f : Nat → Byte} (h : ∀ k, k < 4 → slotByte t k = f k) :
    prefixG t = fromBE ((List.range 4).map f) := by
  rw [← fromBE_slotBytes]
  congr 1
  apply List.map_congr_left
  intro k hk
  exact h k (List.mem_range.1 hk)

end Sys2Proof.Machine
end

