-- ==== Sys2Proof/Tests/Slice0.lean ====
section
/-! SUPPORT. Tests. Expected values come from spec/95_test_vectors.md (the vector is named beside each test) or are worked
out by hand from the rule named; each test makes one step. The witnesses show that the hypotheses of each statement can
be met, at the boundary of each clause. -/

namespace Sys2Proof.Tests

open Sys2Proof.Machine

/-! ### The encoding: words written out from R64 and R65 (31..4 RSV = 0, 3..0 OP) -/

theorem test_decode_serialize : Sys2Proof.decode 0b00000000000000000000000000000001#32 = .ok .serialize := by decide
theorem test_decode_deserialize : Sys2Proof.decode 0b00000000000000000000000000000010#32 = .ok .deserialize := by decide
theorem test_decode_embed : Sys2Proof.decode 0b00000000000000000000000000000011#32 = .ok .embed := by decide
theorem test_decode_extractLength :
    Sys2Proof.decode 0b00000000000000000000000000000100#32 = .ok .extractLength := by decide
theorem test_decode_extractBits : Sys2Proof.decode 0b00000000000000000000000000000101#32 = .ok .extractBits := by decide
theorem test_decode_decode : Sys2Proof.decode 0b00000000000000000000000000000110#32 = .ok .decode := by decide
theorem test_decode_encode : Sys2Proof.decode 0b00000000000000000000000000000111#32 = .ok .encode := by decide

/-- OP 0x0 and 0x8 to 0xF are reserved (R67; K1, K2). -/
theorem test_decode_reserved_op : Sys2Proof.decode 0x00000000#32 = .error .reservedOp ∧
    Sys2Proof.decode 0x00000008#32 = .error .reservedOp ∧ Sys2Proof.decode 0x0000000F#32 = .error .reservedOp := by decide

/-- A set bit of RSV is illegal whatever OP says: the lowest (K3) and the highest. -/
theorem test_decode_reserved_bit : Sys2Proof.decode 0x00000011#32 = .error .reservedBits ∧
    Sys2Proof.decode 0x80000001#32 = .error .reservedBits := by decide

/-- The opcode table's rows, through the table decoder. -/
theorem test_decode_table : decodeTableWord 32 3 = some .embed ∧ decodeTableWord 32 7 = some .encode ∧
    decodeTableWord 32 8 = none ∧ decodeTableWord 32 (2 ^ 31 + 1) = none := by decide

/-! ### Helpers -/

/-- A platform: registers from 0, F from 64 (16 bytes), G from 80. -/
def params (gridBytes : Nat) : Params :=
  { regBase := 0, fBase := 64, gBase := 80, frameBytes := 16, gridBytes := gridBytes }

/-- A memory that lists these bytes from address `a` on. -/
def mem (a : Nat) (bytes : List Byte) : Memory :=
  match bytes with
  | [] => []
  | b :: rest => (a, b) :: mem (a + 1) rest

/-- An idle block: geometry H, W, C, GRID_BYTES = H * W * C, registers PLEN, FLEN, T, and the bytes of F and G from
address 0. -/
def idle (h w c plen flen t : Nat) (f g : List Byte) : State :=
  { State.reset with
    params := params (h * w * c)
    height := BitVec.ofNat 16 h
    width := BitVec.ofNat 16 w
    channels := BitVec.ofNat 3 c
    plen := BitVec.ofNat 32 plen
    flen := BitVec.ofNat 32 flen
    xbitsLo := BitVec.ofNat 32 t
    xbitsHi := BitVec.ofNat 4 (t / 2 ^ 32)
    fmem := mem 0 f
    gmem := mem 0 g }

/-- The same block with the command accepted. -/
def started (i : Instr) (s : State) : State := accept (Sys2Proof.encode i) s

/-- The state an outcome leads to. -/
def after (o : Host.Outcome State Fault Refusal) : State :=
  match o with
  | .next t => t
  | .fault _ => State.reset
  | .refused _ => State.reset

/-- One step of the command with this word. -/
def ran (w : Nat) (s : State) : State := after (step (s.withFetchWord 32 w))

/-- Bytes of EE, as in the vectors. -/
def ee (n : Nat) : List Byte := List.replicate n 0xEE#8

/-- The frame of "hi". -/
def hi : List Byte := [0x00#8, 0x00#8, 0x00#8, 0x02#8, 0x68#8, 0x69#8]

/-- The grid E1 leaves: 5 x 5 samples of 3, ones at the bit indices of "hi". -/
def e1 : List Byte :=
  (List.range 75).map (fun a => if [30, 33, 34, 36, 41, 42, 44, 47].contains a then 0x01#8 else 0x00#8)

/-- The first n samples of the grid of E2: (37 a + 11) mod 256. -/
def ramp (n : Nat) : List Byte := (List.range n).map (fun a => BitVec.ofNat 8 (37 * a + 11))

/-- The bytes of G from address 0. -/
def grid (s : State) (n : Nat) : List Byte := (List.range n).map (readG s)

/-! ### Well-formedness: each check refuses an ill-formed term -/

/-- Every command of the seven is well formed (R65, R68: no field to be out of range). -/
theorem smoke_instr : Instr.wellFormed .embed = true := by decide

/-- R18, R56, R58: a register access on a word boundary is a transaction of the block; one off it, a byte access to the
register window, a 32-bit access to F, and an address in no window are not. -/
theorem smoke_busOp :
    BusOp.wellFormed (params 75) (.write32 4 0#32) = true ∧ BusOp.wellFormed (params 75) (.read8 79) = true ∧
    BusOp.wellFormed (params 75) (.write8 154 0#8) = true ∧
    BusOp.wellFormed (params 75) (.write32 6 0#32) = false ∧ BusOp.wellFormed (params 75) (.read8 4) = false ∧
    BusOp.wellFormed (params 75) (.read32 64) = false ∧ BusOp.wellFormed (params 75) (.read32 80) = false ∧
    BusOp.wellFormed (params 75) (.read8 155) = false := by decide

/-- R7, R45: FRAME_BYTES below 4 or above 2^32 - 1, GRID_BYTES above its bound, and overlapping windows are refused. An
empty grid window strictly inside the frame or the register window is not (log 3). -/
theorem smoke_params :
    (params 75).wf = true ∧ ({ params 75 with frameBytes := 3 } : Params).wf = false ∧
    ({ params 75 with gBase := 0, regBase := 2 ^ 40, fBase := 2 ^ 41, frameBytes := 2 ^ 32 } : Params).wf = false ∧
    (params (4 * (2 ^ 16 - 1) ^ 2 + 1)).wf = false ∧ ({ params 75 with fBase := 63 } : Params).wf = false ∧
    ({ params 75 with gBase := 79 } : Params).wf = false ∧ ({ params 75 with gBase := 10, fBase := 100 } : Params).wf = false ∧
    ({ params 0 with gBase := 70 } : Params).wf = true ∧ ({ params 0 with gBase := 10 } : Params).wf = true := by
  decide

/-! ### The commands: vectors of spec/95_test_vectors.md -/

/-- F1: SERIALIZE of 2 bytes; F[6, 16) stays. -/
theorem test_serialize : frame (ran 1 (idle 0 0 3 2 9 0 (ee 4 ++ [0x68#8, 0x69#8] ++ ee 10) [])) 16 = hi ++ ee 10 ∧
    (ran 1 (idle 0 0 3 2 9 0 (ee 4 ++ [0x68#8, 0x69#8] ++ ee 10) [])).flen = 6#32 := by decide

/-- F4 and F12: 4 + L above FRAME_BYTES, without wrap. -/
theorem test_serialize_overflow : statusWord (ran 1 (idle 0 0 3 13 0 0 [] [])) = 0x00000502#32 ∧
    statusWord (ran 1 (idle 0 0 3 (2 ^ 32 - 1) 0 0 [] [])) = 0x00000502#32 := by decide

/-- F8: the prefix claims more than the frame holds. -/
theorem test_deserialize_truncated : (ran 2 (idle 0 0 3 9 6 0 [0xFF#8, 0xFF#8, 0xFF#8, 0xFF#8] [])).plen = 2#32 ∧
    statusWord (ran 2 (idle 0 0 3 9 6 0 [0xFF#8, 0xFF#8, 0xFF#8, 0xFF#8] [])) = 0x00000006#32 := by decide

/-- F9: a frame of 3 bytes is short; PLEN stays. -/
theorem test_deserialize_short : (ran 2 (idle 0 0 3 9 3 0 [] [])).plen = 9#32 ∧
    statusWord (ran 2 (idle 0 0 3 9 3 0 [] [])) = 0x00000402#32 := by decide

/-- E2: of the 75 samples exactly these 22 change. -/
theorem test_embed : grid (ran 3 (idle 5 5 3 0 6 0 hi (ramp 75))) 75 =
    [0x0A, 0x30, 0x54, 0x7A, 0x9E, 0xC4, 0xE8, 0x0E, 0x32, 0x58, 0x7C, 0xA2, 0xC6, 0xEC, 0x10, 0x36, 0x5A, 0x80, 0xA4,
      0xCA, 0xEE, 0x14, 0x38, 0x5E, 0x82, 0xA8, 0xCC, 0xF2, 0x16, 0x3C, 0x61, 0x86, 0xAA, 0xD1, 0xF5, 0x1A, 0x3F,
      0x64, 0x88, 0xAE, 0xD2, 0xF9, 0x1D, 0x42, 0x67, 0x8C, 0xB0, 0xD7] ++ (ramp 75).drop 48 := by decide

/-- E3: four channels; the alpha samples at 4p + 3 are skipped. -/
theorem test_embed_rgba : grid (ran 3 (idle 5 5 4 0 6 0 hi (List.replicate 100 0x00#8))) 100 =
    (List.range 100).map (fun a => if [40, 44, 45, 48, 54, 56, 58, 62].contains a then 0x01#8 else 0x00#8) := by
  decide +kernel

/-- X1: the prefix of the grid of E1. -/
theorem test_extractLength : (ran 4 (idle 5 5 3 7 0 0 [] e1)).plen = 2#32 := by decide

/-- X4: 30 slots are too few; PLEN stays. -/
theorem test_extractLength_small : (ran 4 (idle 2 5 3 7 0 0 [] [])).plen = 7#32 ∧
    statusWord (ran 4 (idle 2 5 3 7 0 0 [] [])) = 0x00000202#32 := by decide

/-- Y1: 48 bits into six bytes; the rest of F stays. -/
theorem test_extractBits : frame (ran 5 (idle 5 5 3 0 9 48 (ee 16) e1)) 16 = hi ++ ee 10 ∧
    (ran 5 (idle 5 5 3 0 9 48 (ee 16) e1)).flen = 6#32 := by decide

/-- Y3 and Y6: a count that is no multiple of 8; a count of 2^32. -/
theorem test_extractBits_errors : statusWord (ran 5 (idle 5 5 3 0 9 47 [] [])) = 0x00000702#32 ∧
    statusWord (ran 5 (idle 5 5 3 0 9 (2 ^ 32) [] [])) = 0x00000202#32 := by decide

/-- D1. -/
theorem test_decode : frame (ran 6 (idle 5 5 3 0 0 0 (ee 16) e1)) 16 = hi ++ ee 10 ∧
    (ran 6 (idle 5 5 3 0 0 0 (ee 16) e1)).plen = 2#32 ∧ (ran 6 (idle 5 5 3 0 0 0 (ee 16) e1)).flen = 6#32 := by
  decide

/-- D2: a prefix of all ones; PLEN and F stay. -/
theorem test_decode_prefix_too_long :
    (ran 6 (idle 5 5 3 3 0 0 (ee 16) (List.replicate 75 0xFF#8))).plen = 3#32 ∧
    frame (ran 6 (idle 5 5 3 3 0 0 (ee 16) (List.replicate 75 0xFF#8))) 16 = ee 16 ∧
    statusWord (ran 6 (idle 5 5 3 3 0 0 (ee 16) (List.replicate 75 0xFF#8))) = 0x00000202#32 := by decide

/-- N1: F is framed and G is as in E1. -/
theorem test_encode : frame (ran 7 (idle 5 5 3 2 0 0 (ee 4 ++ [0x68#8, 0x69#8]) (List.replicate 75 0x00#8))) 6 = hi ∧
    grid (ran 7 (idle 5 5 3 2 0 0 (ee 4 ++ [0x68#8, 0x69#8]) (List.replicate 75 0x00#8))) 75 = e1 := by decide

/-- N2: 48 bits on 48 slots; nothing is written. -/
theorem test_encode_capacity : statusWord (ran 7 (idle 4 4 3 2 0 0 (ee 4) (List.replicate 48 0x80#8))) = 0x00000102#32 ∧
    frame (ran 7 (idle 4 4 3 2 0 0 (ee 4) (List.replicate 48 0x80#8))) 4 = ee 4 ∧
    grid (ran 7 (idle 4 4 3 2 0 0 (ee 4) (List.replicate 48 0x80#8))) 48 = List.replicate 48 0x80#8 := by decide

/-- K1 to K3: words that are no command. -/
theorem test_illegal_words : statusWord (ran 0 (idle 5 5 3 0 0 0 [] [])) = 0x00000802#32 ∧
    statusWord (ran 8 (idle 5 5 3 0 0 0 [] [])) = 0x00000802#32 ∧
    statusWord (ran 0x11 (idle 5 5 3 0 0 0 [] [])) = 0x00000802#32 := by decide

/-- Q4, Q5, Q9, Q12, Q13: coordinates and addresses. -/
theorem test_coord : coord 14 5 = (0, 4, 2) ∧ coord 15 5 = (1, 0, 0) ∧ coord 5 5 = (0, 1, 2) ∧ seqAddr 4 5 = 6 ∧
    coord 32 1 = (10, 0, 2) ∧ seqAddr 4 74 = 98 ∧ coord 75 5 = (5, 0, 0) := by decide

/-- B1 to B7. -/
theorem test_lsb : lsbWrite 0x00#8 true = 0x01#8 ∧ lsbWrite 0xFF#8 false = 0xFE#8 ∧ lsbWrite 0xFE#8 false = 0xFE#8 ∧
    lsbWrite 0x81#8 true = 0x81#8 ∧ lsbWrite 0x80#8 true = 0x81#8 ∧ lsbRead 0x55#8 = true ∧ lsbRead 0xAA#8 = false := by
  decide

/-- B8 and B10. -/
theorem test_bitstream : bitstream [0xA5#8] = [true, false, true, false, false, true, false, true] ∧
    pack [true, false, true, false, false, true, false, true] = [0xA5#8] := by decide

/-- FD2, FD8 and FD9. -/
theorem test_framer_functions : serialize [0x68#8, 0x69#8] = .ok hi ∧
    deserialize [0x00#8, 0x00#8, 0x00#8, 0x01#8, 0x7F#8, 0x80#8] = [0x7F#8] ∧
    deserialize [0x00#8, 0x00#8, 0x00#8, 0x05#8, 0x41#8, 0x42#8] = [0x41#8, 0x42#8] := by
  refine ⟨rfl, ?_⟩
  decide

/-! ### Host accesses: K4 to K15 -/

/-- One host transaction on `s`. -/
def access (op : BusOp) (s : State) : State := after (step { s with inputs := [.host op] })

/-- K4 and K8: write-1-to-clear on DONE and HAZ; ERRCODE stays. -/
theorem test_status_write :
    statusWord (access (.write32 4 0x00000002#32) { idle 5 5 3 0 0 0 [] [] with done := true, errcode := 1#4 }) =
      0x00000100#32 ∧
    (access (.write32 4 0x00000008#32) { idle 5 5 3 0 0 0 [] [] with haz := true }).haz = false := by decide

/-- K5 and K6: while busy a register write and a write of G are dropped and set HAZ. -/
theorem test_busy_writes :
    (access (.write32 0x18 5#32) { idle 5 5 3 2 0 0 [] [] with busy := true }).plen = 2#32 ∧
    (access (.write32 0x18 5#32) { idle 5 5 3 2 0 0 [] [] with busy := true }).haz = true ∧
    (access (.write8 80 0xAA#8) { idle 5 5 3 2 0 0 [] [0x10#8] with busy := true }).gmem = [(0, 0x10#8)] ∧
    (access (.write8 80 0xAA#8) { idle 5 5 3 2 0 0 [] [0x10#8] with busy := true }).haz = true := by decide

/-- K9 and K10: the interrupt line. -/
theorem test_irq : ({ idle 5 5 3 0 0 0 [] [] with done := true, ie := true } : State).irq = true ∧
    (access (.write32 4 0x00000002#32) { idle 5 5 3 0 0 0 [] [] with done := true, ie := true }).irq = false := by
  decide

/-- K12, K13, K14 and K15: an unmapped offset, reserved bits, CMD reads 0. -/
theorem test_registers : (access (.read32 0x28) (idle 5 5 3 0 0 0 [] [])).rdata = 0#32 ∧
    (access (.write32 0x0C 0x12345678#32) (idle 5 5 3 0 0 0 [] [])).height = 0x5678#16 ∧
    regWord (access (.write32 0x14 0xFFFFFFFF#32) (idle 5 5 3 0 0 0 [] [])) .channels = 7#32 ∧
    (access (.read32 0x00) (started .embed (idle 5 5 3 0 0 0 [] []))).rdata = 0#32 := by decide

/-- R72: a round of POLL ends on DONE and goes on while the block is busy. -/
theorem test_poll : pollEnds (access (busRD (params 75) .status) { idle 5 5 3 0 0 0 [] [] with done := true }) = true ∧
    pollEnds (access (busRD (params 75) .status) (started .embed (idle 5 5 3 0 0 0 [] []))) = false := by decide

/-- R72: RUN EXTRACT_LENGTH on the grid of E1. Two reads before the engine's step do not end it, the read after it does,
with DONE as the value read. -/
theorem test_run : hostRun .extractLength [0, 0] (idle 5 5 3 7 0 0 [] e1) = none ∧
    (hostRun .extractLength [0, 0, 1] (idle 5 5 3 7 0 0 [] e1)).map (fun s => (s.plen, s.rdata)) =
      some (2#32, 0x00000002#32) := by decide

/-- K11: what reset leaves in the registers. -/
theorem test_reset : regWord State.reset .status = 0#32 ∧ regWord State.reset .channels = 3#32 ∧
    regWord State.reset .plen = 0#32 := by decide

/-- The engine runs each command as the first after reset. -/
theorem test_first_command : (goesOn (step (State.reset.withFetchWord 32 1)) && goesOn (step (State.reset.withFetchWord 32 2)) &&
    goesOn (step (State.reset.withFetchWord 32 3)) && goesOn (step (State.reset.withFetchWord 32 4)) &&
    goesOn (step (State.reset.withFetchWord 32 5)) && goesOn (step (State.reset.withFetchWord 32 6)) &&
    goesOn (step (State.reset.withFetchWord 32 7))) = true := by decide

/-! ### Witnesses: the hypotheses of each statement are met together, at a boundary of each clause -/

/-- The block with events pending. -/
def pending (es : List Event) (s : State) : State := { s with inputs := es }

/-- An accepted command on a grid of `w` columns and one row, FLEN and PLEN as given. -/
def onRow (i : Instr) (w plen flen t : Nat) : State :=
  started i (idle 1 w 3 plen flen t (ee 16) (List.replicate (w * 3) 0x10#8))

/-- A busy block. -/
def busyBlock : State := started .extractLength (idle 5 5 3 7 0 0 (ee 16) e1)

/-- An idle block. -/
def idleBlock : State := idle 5 5 3 7 0 0 (ee 16) e1

theorem witness_IllegalWordCompletes : idleBlock.rst = false ∧ idleBlock.busy = false ∧
    (∀ n ∈ [0x00000000, 0x00000008, 0x0000000F, 0x00000011, 0xFFFFFFF1],
      (BitVec.ofNat 32 n).toNat / 16 ≠ 0 ∨ (BitVec.ofNat 32 n).toNat % 16 = 0 ∨
        8 ≤ (BitVec.ofNat 32 n).toNat % 16) ∧
    (pending [.host (busWR idleBlock.params .cmd 0x8#32), .engine] idleBlock).inputs =
      [.host (busWR (pending [.host (busWR idleBlock.params .cmd 0x8#32), .engine] idleBlock).params .cmd 0x8#32),
        .engine] := by decide

theorem witness_PackIsMsbFirst : ([true, false, true, false, false, true, false, true] : List Bool).length = 8 * 1 ∧
    (0 : Nat) < 1 ∧ (7 : Nat) < 8 := by decide

theorem witness_SeqAddrIsLayoutOfCoord : (0 : Nat) < 1 := by decide

theorem witness_CoordIsBijection : 74 < capacity 5 5 ∧ ¬ 75 < capacity 5 5 ∧ (4 : Nat) < 5 ∧ (2 : Nat) < 3 ∧
    75 ≤ capacity 5 5 ∧ coord 74 5 = (4, 4, 2) := by decide

theorem witness_GeometryKeepsSamplesInside : geomOk (started .embed (idle 5 5 4 0 0 0 [] [])) = true ∧
    (4 < (started .embed (idle 5 5 4 0 0 0 [] [])).opH.toNat) ∧ (started .embed (idle 0 5 3 0 0 0 [] [])).opC = 3#3 ∧
    (started .embed (idle 0 5 3 0 0 0 [] [])).opH = 0#16 ∧ (started .embed (idle 5 0 4 0 0 0 [] [])).opC = 4#3 ∧
    (started .embed (idle 5 0 4 0 0 0 [] [])).opW = 0#16 := by decide

/-- F3: 4 + L = FRAME_BYTES. -/
theorem witness_FramerLengthInvariant : ([] : List Byte).length < 2 ^ 32 ∧ (params 0).wf = true ∧
    ∃ t, runCmd .serialize (idle 0 0 3 12 0 0 (ee 16) []) = .next t ∧ t.errcode = 0#4 :=
  ⟨by decide, by decide, _, rfl, by decide⟩

theorem witness_FramerInverseLaw : ([0x68#8, 0x69#8] : List Byte).length < 2 ^ 32 ∧
    (idle 0 0 3 12 0 0 (ee 16) []).params.wf = true ∧
    ∃ t, runCmd .serialize (idle 0 0 3 12 0 0 (ee 16) []) = .next t ∧ t.errcode = 0#4 :=
  ⟨by decide, by decide, _, rfl, by decide⟩

/-- A sequence of 2^32 bytes, the empty one, and a buffer of just the four prefix bytes. -/
theorem witness_FramerFunctions : (∃ p : List Byte, 2 ^ 32 ≤ p.length) ∧ ([] : List Byte).length < 2 ^ 32 ∧
    4 ≤ ([0x00#8, 0x00#8, 0x00#8, 0x00#8] : List Byte).length := by
  refine ⟨?_, by decide, by decide⟩
  generalize 2 ^ 32 = n
  exact ⟨List.replicate n 0x00#8, Nat.le_of_eq List.length_replicate.symm⟩

/-- PLEN 12 fits FRAME_BYTES = 16, PLEN 13 does not (F3, F4). -/
theorem witness_SerializeCompletes : (idle 0 0 3 12 0 0 [] []).params.wf = true ∧
    4 + (started .serialize (idle 0 0 3 12 0 0 [] [])).opL.toNat ≤ (params 0).frameBytes ∧
    ¬ 4 + (started .serialize (idle 0 0 3 13 0 0 [] [])).opL.toNat ≤ (params 0).frameBytes := by decide

/-- FLEN 4 and 16 are the ends of the range (F6). -/
theorem witness_DeserializeCompletes :
    (∀ n ∈ [4, 16], 4 ≤ (started .deserialize (idle 0 0 3 9 n 0 hi [])).opN.toNat ∧
      (started .deserialize (idle 0 0 3 9 n 0 hi [])).opN.toNat ≤ (params 0).frameBytes) ∧
    2 = (readF (idle 0 0 3 9 4 0 hi []) 0).toNat * 2 ^ 24 + (readF (idle 0 0 3 9 4 0 hi []) 1).toNat * 2 ^ 16 +
      (readF (idle 0 0 3 9 4 0 hi []) 2).toNat * 2 ^ 8 + (readF (idle 0 0 3 9 4 0 hi []) 3).toNat := by decide

theorem witness_FramerCommandErrors :
    (params 0).frameBytes < 4 + (started .serialize (idle 0 0 3 13 0 0 [] [])).opL.toNat ∧
    (started .deserialize (idle 0 0 3 9 3 0 [] [])).opN.toNat < 4 ∧
    4 ≤ (started .deserialize (idle 0 0 3 9 17 0 [] [])).opN.toNat ∧
    (params 0).frameBytes < (started .deserialize (idle 0 0 3 9 17 0 [] [])).opN.toNat := by decide

theorem witness_DeserializePayloadInPlace : ∀ n ∈ [4, 16],
    4 ≤ (started .deserialize (idle 0 0 3 9 n 0 hi [])).opN.toNat ∧
    (started .deserialize (idle 0 0 3 9 n 0 hi [])).opN.toNat ≤ (params 0).frameBytes := by decide

/-- E5: 32 bits on 33 slots, CAP - 1. Bit 31 is the last one embedded; address 32 is the first sample not visited. -/
theorem witness_EmbedCompletes : geomOk (onRow .embed 11 0 4 0) = true ∧
    8 * (onRow .embed 11 0 4 0).opN.toNat + 1 = cap (onRow .embed 11 0 4 0) ∧
    (onRow .embed 11 0 4 0).opN.toNat ≤ (onRow .embed 11 0 4 0).params.frameBytes ∧
    31 < 8 * (onRow .embed 11 0 4 0).opN.toNat ∧
    (∀ i, i < 8 * (onRow .embed 11 0 4 0).opN.toNat → 32 ≠ seqAddr (onRow .embed 11 0 4 0).opC.toNat i) := by
  decide

/-- E9; E7: 48 bits on 48 slots; E12. -/
theorem witness_EmbedErrors : geomOk (started .embed (idle 5 5 5 0 6 0 [] [])) = false ∧
    geomOk (onRow .embed 16 0 6 0) = true ∧ cap (onRow .embed 16 0 6 0) = 8 * (onRow .embed 16 0 6 0).opN.toNat ∧
    geomOk (started .embed (idle 100 100 3 0 17 0 [] [])) = true ∧
    8 * (started .embed (idle 100 100 3 0 17 0 [] [])).opN.toNat < cap (started .embed (idle 100 100 3 0 17 0 [] [])) ∧
    (params 0).frameBytes < (started .embed (idle 100 100 3 0 17 0 [] [])).opN.toNat := by decide

/-- An alpha sample, (4, 4, 3), and the last used one, (4, 4, 2), of a 5 x 5 image. -/
theorem witness_EmbedRefinesSource : geomOk (started .embed (idle 5 5 4 0 6 0 hi [])) = true ∧
    8 * (started .embed (idle 5 5 4 0 6 0 hi [])).opN.toNat < cap (started .embed (idle 5 5 4 0 6 0 hi [])) ∧
    (started .embed (idle 5 5 4 0 6 0 hi [])).opN.toNat ≤ 16 ∧ 4 < (started .embed (idle 5 5 4 0 6 0 hi [])).opH.toNat ∧
    4 < (started .embed (idle 5 5 4 0 6 0 hi [])).opW.toNat ∧ 3 < (started .embed (idle 5 5 4 0 6 0 hi [])).opC.toNat := by
  decide

theorem witness_CapacityBoundary : geomOk (onRow .embed 11 0 5 0) = true ∧ (onRow .embed 11 0 5 0).opN.toNat ≤ 16 ∧
    cap (onRow .embed 11 0 5 0) ≤ 8 * (onRow .embed 11 0 5 0).opN.toNat ∧ geomOk (onRow .embed 11 0 4 0) = true ∧
    8 * (onRow .embed 11 0 4 0).opN.toNat + 1 = cap (onRow .embed 11 0 4 0) ∧
    1 * 16 * 3 ≤ (bitstream hi).length ∧ (bitstream (hi.take 4)).length + 1 = 1 * 11 * 3 := by decide

theorem witness_ExtractLengthCompletes : geomOk (onRow .extractLength 11 7 0 0) = true ∧
    32 ≤ cap (onRow .extractLength 11 7 0 0) ∧ (31 : Nat) < 32 := by decide

/-- Y5 and Y2: no bits, and the largest whole number of bytes; T = CAP on a grid of 48 slots. -/
theorem witness_ExtractBitsCompletes : (params 75).wf = true ∧ geomOk (onRow .extractBits 16 0 9 48) = true ∧
    (∀ t ∈ [0, 48], (onRow .extractBits 16 0 9 t).opT.toNat % 8 = 0 ∧
      (onRow .extractBits 16 0 9 t).opT.toNat ≤ cap (onRow .extractBits 16 0 9 t) ∧
      (onRow .extractBits 16 0 9 t).opT.toNat / 8 ≤ (onRow .extractBits 16 0 9 t).params.frameBytes) ∧
    5 < (onRow .extractBits 16 0 9 48).opT.toNat / 8 := by decide

/-- E10 for both; X4; Y3; Y4; Y7. -/
theorem witness_ExtractErrors : geomOk (started .extractLength (idle 5 5 2 0 0 0 [] [])) = false ∧
    geomOk (started .extractLength (idle 2 5 3 0 0 0 [] [])) = true ∧
    cap (started .extractLength (idle 2 5 3 0 0 0 [] [])) < 32 ∧
    (started .extractBits (idle 5 5 3 0 0 47 [] [])).opT.toNat % 8 ≠ 0 ∧
    geomOk (started .extractBits (idle 5 5 3 0 0 80 [] [])) = true ∧
    (started .extractBits (idle 5 5 3 0 0 80 [] [])).opT.toNat % 8 = 0 ∧
    cap (started .extractBits (idle 5 5 3 0 0 80 [] [])) < (started .extractBits (idle 5 5 3 0 0 80 [] [])).opT.toNat ∧
    geomOk (started .extractBits (idle 100 100 3 0 0 136 [] [])) = true ∧
    (started .extractBits (idle 100 100 3 0 0 136 [] [])).opT.toNat % 8 = 0 ∧
    (started .extractBits (idle 100 100 3 0 0 136 [] [])).opT.toNat ≤
      cap (started .extractBits (idle 100 100 3 0 0 136 [] [])) ∧
    (params 0).frameBytes < (started .extractBits (idle 100 100 3 0 0 136 [] [])).opT.toNat / 8 := by decide

/-- Both outcomes: 72 bits of 75 succeed, 80 bits fail. -/
theorem witness_ExtractBitsRefinesSource : geomOk (started .extractBits (idle 5 5 3 0 0 72 (ee 16) e1)) = true ∧
    (∀ t ∈ [72, 80], (started .extractBits (idle 5 5 3 0 0 t (ee 16) e1)).opT.toNat % 8 = 0 ∧
      (started .extractBits (idle 5 5 3 0 0 t (ee 16) e1)).opT.toNat / 8 ≤ 16) ∧
    (ran 5 (idle 5 5 3 0 0 72 (ee 16) e1)).errcode = 0#4 ∧ (ran 5 (idle 5 5 3 0 0 80 (ee 16) e1)).errcode ≠ 0#4 := by
  decide

/-- D3: a prefix of 0 on 33 slots; D1: byte 5 is the last one recovered. -/
theorem witness_DecodeCompletes : (params 33).wf = true ∧ geomOk (onRow .decode 11 3 0 0) = true ∧
    32 + 8 * prefixG (onRow .decode 11 3 0 0) ≤ cap (onRow .decode 11 3 0 0) ∧
    4 + prefixG (onRow .decode 11 3 0 0) ≤ (onRow .decode 11 3 0 0).params.frameBytes ∧
    prefixG (started .decode (idle 5 5 3 0 0 0 (ee 16) e1)) = 2 ∧
    32 + 8 * prefixG (started .decode (idle 5 5 3 0 0 0 (ee 16) e1)) ≤
      cap (started .decode (idle 5 5 3 0 0 0 (ee 16) e1)) := by decide

/-- The grid of D4: 10 x 10 samples whose first 32 LSBs spell 20. -/
def grid20 : List Byte := (List.range 300).map (fun a => if [27, 29].contains a then 0x01#8 else 0x00#8)

theorem witness_DecodeErrors : geomOk (started .decode (idle 5 5 5 0 0 0 [] [])) = false ∧
    geomOk (started .decode (idle 2 5 3 0 0 0 [] [])) = true ∧ cap (started .decode (idle 2 5 3 0 0 0 [] [])) < 32 ∧
    geomOk (started .decode (idle 5 5 3 3 0 0 [] (List.replicate 75 0xFF#8))) = true ∧
    32 ≤ cap (started .decode (idle 5 5 3 3 0 0 [] (List.replicate 75 0xFF#8))) ∧
    cap (started .decode (idle 5 5 3 3 0 0 [] (List.replicate 75 0xFF#8))) <
      32 + 8 * prefixG (started .decode (idle 5 5 3 3 0 0 [] (List.replicate 75 0xFF#8))) ∧
    geomOk (started .decode (idle 10 10 3 0 0 0 [] grid20)) = true ∧
    prefixG (started .decode (idle 10 10 3 0 0 0 [] grid20)) = 20 ∧
    32 + 8 * prefixG (started .decode (idle 10 10 3 0 0 0 [] grid20)) ≤
      cap (started .decode (idle 10 10 3 0 0 0 [] grid20)) ∧
    (params 0).frameBytes < 4 + prefixG (started .decode (idle 10 10 3 0 0 0 [] grid20)) := by decide

theorem witness_DecodeRefinesSource : geomOk (started .decode (idle 5 5 3 0 0 0 (ee 16) e1)) = true ∧
    32 + 8 * prefixG (started .decode (idle 5 5 3 0 0 0 (ee 16) e1)) ≤
      cap (started .decode (idle 5 5 3 0 0 0 (ee 16) e1)) ∧
    4 + prefixG (started .decode (idle 5 5 3 0 0 0 (ee 16) e1)) ≤ 16 := by decide

/-- The whole of F on a grid of 129 slots: 128 bits = CAP - 1. Bit 127 is the last one embedded. -/
theorem witness_EncodeCompletes : (params 129).wf = true ∧ geomOk (onRow .encode 43 12 0 0) = true ∧
    8 * (4 + (onRow .encode 43 12 0 0).opL.toNat) + 1 = cap (onRow .encode 43 12 0 0) ∧
    4 + (onRow .encode 43 12 0 0).opL.toNat = (onRow .encode 43 12 0 0).params.frameBytes ∧
    127 < 8 * (4 + (onRow .encode 43 12 0 0).opL.toNat) ∧
    (∀ i, i < 8 * (4 + (onRow .encode 43 12 0 0).opL.toNat) → 128 ≠ seqAddr (onRow .encode 43 12 0 0).opC.toNat i) := by
  decide

/-- E9; N2: 48 bits on 48 slots; N5. -/
theorem witness_EncodeErrors : geomOk (started .encode (idle 5 5 5 2 0 0 [] [])) = false ∧
    geomOk (onRow .encode 16 2 0 0) = true ∧
    cap (onRow .encode 16 2 0 0) = 8 * (4 + (onRow .encode 16 2 0 0).opL.toNat) ∧
    geomOk (started .encode (idle 100 100 3 13 0 0 [] [])) = true ∧
    8 * (4 + (started .encode (idle 100 100 3 13 0 0 [] [])).opL.toNat) <
      cap (started .encode (idle 100 100 3 13 0 0 [] [])) ∧
    (params 0).frameBytes < 4 + (started .encode (idle 100 100 3 13 0 0 [] [])).opL.toNat := by decide

/-- SERIALIZE then EMBED of "hi" on 5 x 5; too many bits for 4 x 4; a frame too large; N5. -/
theorem witness_EncodeAgainstSerializeThenEmbed :
    (idle 5 5 3 2 0 0 hi e1).params.wf = true ∧ geomOk (latchOperands (idle 5 5 3 2 0 0 hi e1)) = true ∧
    (∃ t, runCmd .serialize (idle 5 5 3 2 0 0 hi e1) = .next t ∧ t.errcode = 0#4 ∧
      ∃ u, runCmd .embed t = .next u ∧ u.errcode = 0#4) ∧
    cap (latchOperands (idle 4 4 3 2 0 0 [] [])) ≤ 8 * (4 + (idle 4 4 3 2 0 0 [] []).plen.toNat) ∧
    4 + (idle 4 4 3 2 0 0 [] []).plen.toNat ≤ 16 ∧
    cap (latchOperands (idle 4 4 3 13 0 0 [] [])) ≤ 8 * (4 + (idle 4 4 3 13 0 0 [] []).plen.toNat) ∧
    16 < 4 + (idle 4 4 3 13 0 0 [] []).plen.toNat ∧
    8 * (4 + (idle 100 100 3 13 0 0 [] []).plen.toNat) < cap (latchOperands (idle 100 100 3 13 0 0 [] [])) :=
  ⟨by decide, by decide, ⟨_, rfl, by decide, _, rfl, by decide⟩, by decide,
    by decide, by decide, by decide, by decide⟩

theorem witness_SourceRoundTrip : ([] : List Byte).length < 2 ^ 32 ∧ 8 * (([] : List Byte).length + 4) < 1 * 11 * 3 := by
  decide

/-- N1, then DECODE of the state it leaves. -/
theorem witness_EncodeDecodeRoundTrip : (idle 5 5 3 2 0 0 hi e1).params.wf = true ∧
    ∃ t u : State, runCmd .encode (idle 5 5 3 2 0 0 hi e1) = .next t ∧ t.errcode = 0#4 ∧ u.params = t.params ∧
      u.gmem = t.gmem ∧ u.epoch = t.epoch ∧ u.height = t.height ∧ u.width = t.width ∧ u.channels = t.channels ∧
      u.fmem ≠ t.fmem :=
  ⟨by decide, _, { after (runCmd .encode (idle 5 5 3 2 0 0 hi e1)) with fmem := [] }, rfl, by decide, rfl, rfl,
    rfl, rfl, rfl, rfl, by decide⟩

theorem witness_EmbedThenExtractLength : 4 ≤ (idle 1 11 3 0 4 0 hi (e1.take 33)).flen.toNat ∧
    ∃ t, runCmd .embed (idle 1 11 3 0 4 0 hi (e1.take 33)) = .next t ∧ t.errcode = 0#4 :=
  ⟨by decide, _, rfl, by decide⟩

/-- N4. -/
theorem witness_EmptyPayload : 33 ≤ 1 * 11 * 3 ∧ (idle 1 11 3 0 0 0 [] []).params.wf = true ∧
    geomOk (latchOperands (idle 1 11 3 0 0 0 [] [])) = true ∧ 33 ≤ cap (latchOperands (idle 1 11 3 0 0 0 [] [])) ∧
    (idle 1 11 3 0 0 0 [] []).plen = 0#32 := by decide

theorem witness_PrefixInvariant : (params 75).wf = true ∧
    (∃ t, exec .serialize (started .serialize (idle 5 5 3 2 0 0 hi e1)) = .next t ∧ t.errcode = 0#4) ∧
    (∃ t, exec .decode (started .decode (idle 5 5 3 2 0 0 hi e1)) = .next t ∧ t.errcode = 0#4) ∧
    (∃ t, exec .encode (started .encode (idle 5 5 3 2 0 0 hi e1)) = .next t ∧ t.errcode = 0#4) :=
  ⟨by decide, ⟨_, rfl, by decide⟩, ⟨_, rfl, by decide⟩, ⟨_, rfl, by decide⟩⟩

theorem witness_AlphaSamplesNeverTouched : (started .embed (idle 5 5 4 0 6 0 hi [])).opC = 4#3 := by decide

theorem witness_ErrorLeavesNoMutation : ∃ t, exec .embed (onRow .embed 16 0 6 0) = .next t ∧ t.errcode ≠ 0#4 :=
  ⟨_, rfl, by decide⟩

/-- Any command answers a next state, so this holds for each. -/
theorem witness_CommandsWriteOnlyTheirResults : ∀ i ∈ [Instr.serialize, .deserialize, .embed, .extractLength,
    .extractBits, .decode, .encode], goesOn (exec i (onRow i 11 2 6 8)) = true := by decide

theorem witness_ErrorCodesByCommand : ∃ t, exec .decode (onRow .decode 11 2 6 8) = .next t := ⟨_, rfl⟩

/-- A command that writes PLEN and FLEN, and one that writes neither. -/
theorem witness_RunningCommandUsesLatchedOperands :
    (∃ t, exec .decode (onRow .decode 11 2 4 8) = .next t ∧ t.errcode = 0#4) ∧
    (∃ t, exec .embed (onRow .embed 11 2 4 8) = .next t ∧ t.errcode = 0#4) :=
  ⟨⟨_, rfl, by decide⟩, ⟨_, rfl, by decide⟩⟩

theorem witness_StepRunsAcceptedCommand : busyBlock.rst = false ∧ busyBlock.busy = true ∧
    Sys2Proof.decode busyBlock.engOp = .ok .extractLength ∧ (pending [.engine] busyBlock).inputs = .engine :: [] ∧
    busyBlock.inputs = [] := by decide

theorem witness_IdleEngineDoesNothing : idleBlock.busy = false ∧ ({ busyBlock with rst := true } : State).rst = true ∧
    (pending [.engine] idleBlock).inputs = .engine :: [] ∧ idleBlock.inputs = [] := by decide

theorem witness_HostCannotStopCompletion :
    (pending ([busRD (params 75) .status, busCMD (params 75) .embed].map .host) busyBlock).inputs =
      [busRD (params 75) .status, busCMD (params 75) .embed].map .host ∧
    (∀ op ∈ [busRD (params 75) .status, busCMD (params 75) .embed],
      op.wellFormed (pending [] busyBlock).params = true) ∧ busyBlock.busy = true ∧ busyBlock.rst = false ∧
    idleBlock.rst = false ∧ idleBlock.busy = false ∧ idleBlock.inputs = [] := by decide

theorem witness_AcceptLatchesOperands : idleBlock.rst = false ∧ idleBlock.busy = false ∧ busyBlock.busy = true ∧
    (pending [.host (busWR idleBlock.params .cmd 0xFFFFFFFF#32)] idleBlock).inputs =
      .host (busWR (params 75) .cmd 0xFFFFFFFF#32) :: [] := by decide

theorem witness_IdleRegisterWrites : idleBlock.rst = false ∧ idleBlock.busy = false ∧
    (Reg.status, 0x04) ∈ [(Reg.status, 0x04), (.irqen, 0x08), (.height, 0x0C), (.width, 0x10), (.channels, 0x14),
      (.plen, 0x18), (.flen, 0x1C), (.xbitsLo, 0x20), (.xbitsHi, 0x24)] ∧
    (Reg.xbitsHi, 0x24) ∈ [(Reg.status, 0x04), (.irqen, 0x08), (.height, 0x0C), (.width, 0x10), (.channels, 0x14),
      (.plen, 0x18), (.flen, 0x1C), (.xbitsLo, 0x20), (.xbitsHi, 0x24)] ∧
    (∀ off ∈ [0x04, 0x08, 0x0C, 0x10, 0x14, 0x18, 0x1C, 0x20, 0x24],
      (pending [.host (.write32 (idleBlock.params.regBase + off) 0xFFFFFFFF#32)] idleBlock).inputs =
        .host (.write32 ((params 75).regBase + off) 0xFFFFFFFF#32) :: []) := by decide

theorem witness_RegisterReads : idleBlock.rst = false ∧ busyBlock.rst = false ∧
    (Reg.cmd, 0x00) ∈ [(Reg.cmd, 0x00), (.status, 0x04), (.irqen, 0x08), (.height, 0x0C), (.width, 0x10),
      (.channels, 0x14), (.plen, 0x18), (.flen, 0x1C), (.xbitsLo, 0x20), (.xbitsHi, 0x24)] ∧
    (Reg.xbitsHi, 0x24) ∈ [(Reg.cmd, 0x00), (.status, 0x04), (.irqen, 0x08), (.height, 0x0C), (.width, 0x10),
      (.channels, 0x14), (.plen, 0x18), (.flen, 0x1C), (.xbitsLo, 0x20), (.xbitsHi, 0x24)] ∧
    (∀ off ∈ [0x00, 0x04, 0x08, 0x0C, 0x10, 0x14, 0x18, 0x1C, 0x20, 0x24],
      (pending [.host (.read32 (idleBlock.params.regBase + off))] idleBlock).inputs =
        .host (.read32 ((params 75).regBase + off)) :: []) := by decide

theorem witness_UnmappedOffsets : idleBlock.rst = false ∧ busyBlock.rst = false ∧
    (∀ off ∈ [0x28, 0x3C], off ∈ [0x28, 0x2C, 0x30, 0x34, 0x38, 0x3C] ∧
      (pending [.host (.read32 (idleBlock.params.regBase + off))] idleBlock).inputs =
        .host (.read32 (idleBlock.params.regBase + off)) :: []) := by decide

theorem witness_BusyRegisterWrites :
    ∃ t, step (pending [.engine] busyBlock) = .next t ∧ busyBlock.rst = false ∧ busyBlock.busy = true ∧
    (∀ r ∈ [Reg.cmd, .xbitsHi], r ≠ .status ∧ r ≠ .irqen) ∧
    (pending [.host (busWR (params 75) .plen 5#32), .engine] busyBlock).inputs =
      .host (busWR busyBlock.params .plen 5#32) :: .engine :: [] := ⟨_, rfl, by decide⟩

/-- Each of the four forms, at the last byte of its memory. -/
theorem witness_BusyMemoryAccesses :
    ∃ t, step (pending [.engine] busyBlock) = .next t ∧ busyBlock.params.wf = true ∧ busyBlock.rst = false ∧
    busyBlock.busy = true ∧ (15 < busyBlock.params.frameBytes ∧ ¬ 16 < busyBlock.params.frameBytes) ∧
    (74 < busyBlock.params.gridBytes ∧ ¬ 75 < busyBlock.params.gridBytes) ∧
    (∀ op ∈ [busWRF busyBlock.params 15 0xAA#8, busWRG busyBlock.params 74 0xAA#8, busRDF busyBlock.params 15,
        busRDG busyBlock.params 74],
      (pending [.host op, .engine] busyBlock).inputs = .host op :: .engine :: [] ∧
      goesOn (step (pending [.host op, .engine] busyBlock)) = true) := ⟨_, rfl, by decide⟩

/-- Each of the four forms, at the last byte of its memory. -/
theorem witness_IdleMemoryAccesses : idleBlock.params.wf = true ∧ idleBlock.rst = false ∧ idleBlock.busy = false ∧
    (15 < idleBlock.params.frameBytes ∧ ¬ 16 < idleBlock.params.frameBytes) ∧
    (74 < idleBlock.params.gridBytes ∧ ¬ 75 < idleBlock.params.gridBytes) ∧
    (∀ op ∈ [busWRF idleBlock.params 15 0xAA#8, busWRG idleBlock.params 74 0xAA#8, busRDF idleBlock.params 15,
        busRDG idleBlock.params 74], (pending [.host op] idleBlock).inputs = .host op :: [] ∧
      goesOn (step (pending [.host op] idleBlock)) = true) := by
  decide

/-- Address 63 is the last of the register window, 64 and 79 the ends of F, 80 and 154 of G, 155 is outside. -/
theorem witness_UnsupportedAccessesStop : (params 75).wf = true ∧
    ((params 75).regBase ≤ 63 ∧ 63 < (params 75).regBase + 64 ∧ (63 - (params 75).regBase) % 4 ≠ 0) ∧
    ((params 75).fBase ≤ 64 ∧ 79 < (params 75).fBase + (params 75).frameBytes) ∧
    ((params 75).gBase ≤ 80 ∧ 154 < (params 75).gBase + (params 75).gridBytes) ∧
    ((params 75).regBase + 64 ≤ 155 ∧ (params 75).fBase + (params 75).frameBytes ≤ 155 ∧
      (params 75).gBase + (params 75).gridBytes ≤ 155) ∧
    (pending [.host (.read32 63)] idleBlock).inputs = .host (.read32 63) :: [] := by decide

/-- BUSY rises by an accept, falls by a completion, and falls by reset. -/
theorem witness_BusyChangesOnlyByAcceptAndCompletion :
    (∃ t, step (pending [.host (busCMD (params 75) .embed)] idleBlock) = .next t ∧ idleBlock.busy = false ∧
      t.busy = true) ∧
    (∃ t, step (pending [.engine] busyBlock) = .next t ∧ busyBlock.busy = true ∧ t.busy = false) ∧
    (∃ t, step (pending [.assertRst .lost] busyBlock) = .next t ∧ t.busy = false ∧ t.done = false) :=
  ⟨⟨_, rfl, by decide⟩, ⟨_, rfl, by decide⟩, ⟨_, rfl, by decide⟩⟩

/-- HAZ rises by a write of a busy block, and falls by CLRHAZ and by reset. -/
theorem witness_HazChangesOnlyByProtocol :
    (∃ t, step (pending [.host (busWR (params 75) .plen 5#32)] busyBlock) = .next t ∧ busyBlock.haz = false ∧
      t.haz = true) ∧
    (∃ t, step (pending [.host (busCLRHAZ (params 75))] { idleBlock with haz := true }) = .next t ∧ t.haz = false) ∧
    (∃ t, step (pending [.assertRst .lost] { idleBlock with haz := true }) = .next t ∧ t.haz = false) :=
  ⟨⟨_, rfl, by decide⟩, ⟨_, rfl, by decide⟩, ⟨_, rfl, by decide⟩⟩

/-- The line falls by ACK, by an accept, by IRQEN = 0 and by reset. -/
theorem witness_InterruptLevel :
    (∃ t, runCommandWord 0x00000003#32 (onRow .embed 11 2 4 8) = .next t) ∧
    (∃ t, runCommandWord 0x00000000#32 (onRow .embed 11 2 4 8) = .next t) ∧
    ({ idleBlock with done := true, ie := true } : State).irq = true ∧
    (∀ e ∈ [Event.host (busACK (params 75)), .host (busCMD (params 75) .embed), .host (busWR (params 75) .irqen 0#32),
      .assertRst .lost], (after (step (pending [e] { idleBlock with done := true, ie := true }))).irq = false ∧
        goesOn (step (pending [e] { idleBlock with done := true, ie := true })) = true) :=
  ⟨⟨_, rfl⟩, ⟨_, rfl⟩, by decide, by decide⟩

theorem witness_StatusWriteAgainstCompletion : busyBlock.rst = false ∧ busyBlock.busy = true ∧
    (0x00000002#32 : Word).getLsbD 1 = true ∧
    (pending [.host (busACK (params 75)), .engine] busyBlock).inputs =
      [.host (busWR busyBlock.params .status 0x00000002#32), .engine] ∧
    (pending [.engine, .host (busACK (params 75))] busyBlock).inputs =
      [.engine, .host (busWR busyBlock.params .status 0x00000002#32)] := by decide

theorem witness_ResetRegisterValues : (pending [.assertRst .lost] busyBlock).inputs = .assertRst .lost :: [] := by
  decide

theorem witness_ResetInputHeld : idleBlock.busy = false ∧
    (pending [.assertRst (.kept [] [])] idleBlock).inputs = .assertRst (.kept [] []) :: [] ∧
    ({ idleBlock with rst := true } : State).rst = true ∧
    (busRD (params 75) .status).wellFormed idleBlock.params = true ∧
    (pending [.host (busRD (params 75) .status)] { idleBlock with rst := true }).inputs =
      .host (busRD (params 75) .status) :: [] ∧
    (pending [.assertRst .lost] busyBlock).inputs = .assertRst .lost :: [] ∧
    (pending [.releaseRst] { idleBlock with rst := true }).inputs = .releaseRst :: [] := by decide

/-- A reset in the middle of an ENCODE, after the first byte of F and sample 5 of G had been written. -/
theorem witness_ResetDuringCommand :
    ∃ u, exec .encode (started .encode (idle 5 5 3 2 0 0 hi e1)) = .next u ∧
      (started .encode (idle 5 5 3 2 0 0 hi e1)).memoriesOk = true ∧
      (started .encode (idle 5 5 3 2 0 0 hi e1)).busy = true ∧
      Sys2Proof.decode (started .encode (idle 5 5 3 2 0 0 hi e1)).engOp = .ok .encode ∧
      (pending [.assertRst (.kept [0] [5])] (started .encode (idle 5 5 3 2 0 0 hi e1))).inputs =
        .assertRst (.kept [0] [5]) :: [] := ⟨_, rfl, by decide⟩

/-- A busy block in the invariant, and its next step. -/
theorem witness_StepKeepsInvariant : (busyBlock.params.wf = true ∧ busyBlock.memoriesOk = true ∧
      busyBlock.busyOk = true ∧ busyBlock.codeOk = true ∧ busyBlock.heldOk = true) ∧
    ∃ t, step busyBlock = .next t := ⟨by decide, _, rfl⟩

end Sys2Proof.Tests
end

section
/-! PROOFS. The framer's two functions (40_framer R73, R74), and that an error leaves no mutation (60_exceptions R123). -/

namespace Sys2Proof.Machine

/-! ### The framer's functions -/

theorem serialize_of_ge {p : List Byte} (h : 2 ^ 32 ≤ p.length) : serialize p = .error .outOfRange := if_pos h

theorem serialize_of_lt {p : List Byte} (h : p.length < 2 ^ 32) :
    serialize p = .ok (be32 (BitVec.ofNat 32 p.length) ++ p) := if_neg (Nat.not_le.2 h)

theorem take_four_be32_append (v : Word) (p : List Byte) : (be32 v ++ p).take 4 = be32 v := rfl

theorem drop_four_be32_append (v : Word) (p : List Byte) : (be32 v ++ p).drop 4 = p := rfl

/-- The end `min(4 + L, len(fb))` of R74 is the clamp `List.take` makes by itself (D15, log 20). -/
theorem deserialize_eq_take_drop (fb : List Byte) :
    deserialize fb = (fb.drop 4).take (fromBE (fb.take 4)) := by
  rw [deserialize, ← List.take_eq_take_min, List.take_drop]

/-- Settles O11: the equations of serialize on both sides of 2^32, with R10's `fromBE(BE32(v)) = v` for the prefix, and
the one of deserialize. -/
theorem framerFunctions : Obligations.FramerFunctions := by
  refine ⟨fun p => serialize_of_ge, fun p h => ⟨_, serialize_of_lt h, ?_, drop_four_be32_append _ p⟩,
    fun fb _ => deserialize_eq_take_drop fb⟩
  rw [take_four_be32_append, fromBE_be32, BitVec.toNat_ofNat, Nat.mod_eq_of_lt h]

/-! ### A command that ends with an error -/

theorem raiseError_eq_endedWith (e : CmdError) (s : State) : raiseError e s = endedWith e.code s := rfl

/-- Settles O37, by the two ways a command can end (R121): an error is raised in the state at the start, the bit index
apart; success leaves ERRCODE 0, against the hypothesis. -/
theorem errorLeavesNoMutation : Obligations.ErrorLeavesNoMutation := by
  intro i s t ht hcode
  rcases exec_cases i s with ⟨e, b, herr⟩ | ⟨u, hok, _⟩
  · obtain rfl := Host.Outcome.next.inj (ht.symm.trans herr)
    rw [raiseError_eq_endedWith]
    rfl
  · obtain rfl := Host.Outcome.next.inj (ht.symm.trans hok)
    exact absurd (complete_errcode u) hcode

end Sys2Proof.Machine
end

section
/-! PROOFS. What one host access and one step of the machine can do, said once (70_reset R137 to R145; 60_exceptions R129,
R136), and the invariant of the machine that follows from it. -/

namespace Sys2Proof.Machine

/-! ### What one host access can do -/

theorem offset_of_regAt {off : Nat} {r : Reg} (h : regAt off = some r) : off = r.offset := by
  unfold regAt at h
  split at h <;> cases h <;> rfl

/-- `t` differs from `s` at most in the operand registers (R28 to R34). -/
def SameButOperands (s t : State) : Prop :=
  t = { s with
        height := t.height, width := t.width, channels := t.channels, plen := t.plen, flen := t.flen,
        xbitsLo := t.xbitsLo, xbitsHi := t.xbitsHi }

/-- The accesses that break the busy-ownership protocol while BUSY = 1: a write of a register but STATUS and IRQEN
(R143), any access to F or G (R144). -/
def BusyForbidden (a : Access) : Prop :=
  (∃ r v, a = .writeReg (Reg.offset r) v ∧ r ≠ .status ∧ r ≠ .irqen) ∨ (∃ x b, a = .writeF x b) ∨
    (∃ x, a = .readF x) ∨ (∃ x b, a = .writeG x b) ∨ (∃ x, a = .readG x)

theorem busyForbidden_writeReg {off : Nat} {r : Reg} (h : regAt off = some r) (h1 : r ≠ .status) (h2 : r ≠ .irqen)
    (v : Word) : BusyForbidden (.writeReg off v) := .inl ⟨r, v, by rw [offset_of_regAt h], h1, h2⟩

/-- Everything a host access can do while `rst` is released (R19 to R34, R57, R143 to R145). -/
inductive AccessEffect (s : State) : Access → State → Prop where
  /-- A write of an unmapped offset (R19). -/
  | unmapped {off : Nat} (v : Word) (h : regAt off = none) : AccessEffect s (.writeReg off v) s
  /-- A host read that the busy rules allow: only the answer changes (R57, R145). -/
  | read {a : Access} (v : Word) : AccessEffect s a (answer v s)
  /-- A host write of STATUS, busy or not (R21, R143). -/
  | status {off : Nat} (v : Word) (h : regAt off = some .status) : AccessEffect s (.writeReg off v) (writeStatus v s)
  /-- A host write of IRQEN, busy or not (R27, R143). -/
  | irqen {off : Nat} (v : Word) (h : regAt off = some .irqen) : AccessEffect s (.writeReg off v) (writeIrqen v s)
  /-- The accept of a command (R119). -/
  | accept {off : Nat} (w : Word) (h : regAt off = some .cmd) (hi : s.busy = false) :
    AccessEffect s (.writeReg off w) (accept w s)
  /-- A host write of an operand register (R28 to R34). -/
  | operand {a : Access} {t : State} (hi : s.busy = false) (ht : SameButOperands s t) : AccessEffect s a t
  /-- A host write of a byte of F (R46). -/
  | frame (x : Nat) (b : Byte) (hi : s.busy = false) : AccessEffect s (.writeF x b) (writeF s x b)
  /-- A host write of a sample of G (R48). -/
  | grid (x : Nat) (b : Byte) (hi : s.busy = false) : AccessEffect s (.writeG x b) (writeG s x b)
  /-- An access that breaks the busy-ownership protocol: HAZ, and a read gets some answer (R143, R144). -/
  | violation {a : Access} {t : State} (hb : s.busy = true) (ha : BusyForbidden a)
    (ht : t = { s with haz := true, rdata := t.rdata, draws := t.draws }) : AccessEffect s a t

theorem accessEffect_whenIdle {a : Access} {f : State → State} {s : State} (ha : BusyForbidden a)
    (hf : s.busy = false → AccessEffect s a (f s)) : AccessEffect s a (whenIdle f s) := by
  cases hb : s.busy with
  | false => rw [whenIdle_idle f hb]; exact hf hb
  | true => rw [whenIdle_busy f hb]; exact .violation hb ha rfl

theorem accessEffect_readByte {a : Access} (b : Byte) {s : State} (ha : BusyForbidden a) :
    AccessEffect s a (readByte b s) := by
  cases hb : s.busy with
  | false => rw [readByte_idle b hb]; exact .read _
  | true => rw [readByte_busy b hb]; exact .violation hb ha rfl

theorem accessEffect_writeReg {off : Nat} {r : Reg} (h : regAt off = some r) (v : Word) (s : State) :
    AccessEffect s (.writeReg off v) (writeReg r v s) := by
  cases r with
  | status => exact .status v h
  | irqen => exact .irqen v h
  | cmd => exact accessEffect_whenIdle (busyForbidden_writeReg h nofun nofun v) (.accept v h)
  | _ =>
    unfold writeReg
    exact accessEffect_whenIdle (busyForbidden_writeReg h nofun nofun v) fun hi => .operand hi (by exact rfl)

theorem hostAccess_writeReg {off : Nat} {r : Reg} (h : regAt off = some r) (v : Word) (s : State) :
    hostAccess (.writeReg off v) s = writeReg r v s := by simp only [hostAccess, h]

theorem hostAccess_writeReg_unmapped {off : Nat} (h : regAt off = none) (v : Word) (s : State) :
    hostAccess (.writeReg off v) s = s := by simp only [hostAccess, h]

theorem hostAccess_readReg {off : Nat} {r : Reg} (h : regAt off = some r) (s : State) :
    hostAccess (.readReg off) s = answer (regWord s r) s := by simp only [hostAccess, h]

theorem hostAccess_readReg_unmapped {off : Nat} (h : regAt off = none) (s : State) :
    hostAccess (.readReg off) s = answer 0#32 s := by simp only [hostAccess, h]

theorem hostAccess_effect (a : Access) (s : State) : AccessEffect s a (hostAccess a s) := by
  cases a with
  | writeReg off v =>
    cases h : regAt off with
    | none => rw [hostAccess_writeReg_unmapped h]; exact .unmapped v h
    | some r => rw [hostAccess_writeReg h]; exact accessEffect_writeReg h v s
  | readReg off =>
    cases h : regAt off with
    | none => rw [hostAccess_readReg_unmapped h]; exact .read _
    | some r => rw [hostAccess_readReg h]; exact .read _
  | writeF x b => exact accessEffect_whenIdle (f := (writeF · x b)) (.inr (.inl ⟨x, b, rfl⟩)) (.frame x b)
  | readF x => exact accessEffect_readByte _ (.inr (.inr (.inl ⟨x, rfl⟩)))
  | writeG x b =>
    exact accessEffect_whenIdle (f := (writeG · x b)) (.inr (.inr (.inr (.inl ⟨x, b, rfl⟩)))) (.grid x b)
  | readG x => exact accessEffect_readByte _ (.inr (.inr (.inr (.inr ⟨x, rfl⟩))))

/-! ### What one event can do -/

/-- Everything the machine's answer to an event can do, when it is a next state (R129). -/
inductive EventEffect (s : State) : Event → State → Prop where
  /-- The engine does nothing: it is idle (R136) or `rst` is held (R137). -/
  | idle (h : s.rst = true ∨ s.busy = false) : EventEffect s .engine s
  /-- The engine performs and completes the running command (R39, R121). -/
  | command {t : State} (hr : s.rst = false) (hb : s.busy = true) (h : runCommandWord s.engOp s = .next t) :
    EventEffect s .engine t
  /-- The host makes an access of the block. -/
  | access {op : BusOp} {a : Access} {t : State} (ha : busAccess s.params op = .ok a) (hr : s.rst = false)
    (h : AccessEffect s a t) : EventEffect s (.host op) t
  /-- The host makes an access while `rst` is held (R137). -/
  | held {op : BusOp} {a : Access} (ha : busAccess s.params op = .ok a) (hr : s.rst = true) :
    EventEffect s (.host op) (heldAccess a s)
  /-- `rst` is asserted (R137). -/
  | reset (m : MemoryAtReset) : EventEffect s (.assertRst m) (assertReset m s)
  /-- `rst` is released (R139). -/
  | release : EventEffect s .releaseRst (releaseReset s)

theorem engine_effect {s t : State} (h : react .engine s = .next t) : EventEffect s .engine t := by
  simp only [react, engineStep] at h
  split at h
  · next hr =>
    cases h
    exact .idle (.inl hr)
  · next hr =>
    split at h
    · next hb => exact .command (Bool.eq_false_iff.2 hr) hb h
    · next hb =>
      cases h
      exact .idle (.inr (Bool.eq_false_iff.2 hb))

theorem hostStep_effect {s t : State} {op : BusOp} (h : hostStep op s = .next t) : EventEffect s (.host op) t := by
  rcases hostStep_cases op s with ⟨a, ha, h1⟩ | ⟨_, h1⟩ | ⟨_, addr, h1⟩
  · obtain rfl := Host.Outcome.next.inj (h1.symm.trans h)
    split
    · next hr => exact .held ha hr
    · next hr => exact .access ha (Bool.eq_false_iff.2 hr) (hostAccess_effect a s)
  · cases h1.symm.trans h
  · cases h1.symm.trans h

theorem react_effect {s t : State} {e : Event} (h : react e s = .next t) : EventEffect s e t := by
  cases e with
  | host op => exact hostStep_effect h
  | engine => exact engine_effect h
  | assertRst m => cases h; exact .reset m
  | releaseRst => cases h; exact .release

/-- A step takes the first pending event, or the engine's when none is pending (log 1). -/
theorem step_effect {s t : State} (h : step s = .next t) :
    ∃ e rest, (s.inputs = e :: rest ∨ e = .engine) ∧ EventEffect { s with inputs := rest } e t := by
  rcases step_cases s with ⟨hi, h1⟩ | ⟨e, rest, hi, h1⟩
  · exact ⟨.engine, s.inputs, .inr rfl, react_effect (h1.symm.trans h)⟩
  · exact ⟨e, rest, .inl hi, react_effect (h1.symm.trans h)⟩

/-! ### The invariant -/

theorem busyOk_iff (s : State) : s.busyOk = true ↔ (s.busy = true → s.done = false ∧ s.trunc = false ∧
    s.errcode = 0#4 ∧ s.opH = s.height ∧ s.opW = s.width ∧ s.opC = s.channels ∧ s.opL = s.plen ∧ s.opN = s.flen ∧
    s.opT = operandT s) := by
  cases h : s.busy <;> simp [State.busyOk, h, and_assoc]

theorem codeOk_iff (s : State) : s.codeOk = true ↔ s.errcode.toNat ≤ 8 ∧ (s.trunc = true → s.errcode = 0#4) := by
  cases h : s.trunc <;> simp [State.codeOk, h]

theorem busyOk_of_idle {s : State} (h : s.busy = false) : s.busyOk = true := by
  rw [busyOk_iff, h]
  exact nofun

theorem heldOk_of_released {s : State} (h : s.rst = false) : s.heldOk = true := by
  simp [State.heldOk, h]

/-- Settles O59: the platform meets its bounds (R7, R45), the memories are empty, every flag is 0. -/
theorem resetMeetsInvariant : Obligations.ResetMeetsInvariant :=
  ⟨Config.platform.ok, (memoriesOk_iff _).2 ⟨reset_memories_wf.1, reset_memories_wf.2, rfl, rfl⟩, rfl, rfl, rfl⟩

theorem writeF_memoriesOk {s : State} (h : s.memoriesOk = true) {x : Nat} (hx : x < s.params.frameBytes) (b : Byte) :
    (writeF s x b).memoriesOk = true := by
  obtain ⟨hf, hg, hfb, hgb⟩ := (memoriesOk_iff s).1 h
  exact (memoriesOk_iff _).2 ⟨Memory.put_wf hf x b, hg, Memory.put_below hfb hx b, hgb⟩

theorem writeG_memoriesOk {s : State} (h : s.memoriesOk = true) {x : Nat} (hx : x < s.params.gridBytes) (b : Byte) :
    (writeG s x b).memoriesOk = true := by
  obtain ⟨hf, hg, hfb, hgb⟩ := (memoriesOk_iff s).1 h
  exact (memoriesOk_iff _).2 ⟨hf, Memory.put_wf hg x b, hfb, Memory.put_below hgb hx b⟩

theorem accept_busyOk (w : Word) (s : State) : (accept w s).busyOk = true :=
  (busyOk_iff _).2 fun _ => ⟨rfl, rfl, rfl, rfl, rfl, rfl, rfl, rfl, rfl⟩

theorem writeStatus_busyOk (v : Word) {s : State} (h : s.busyOk = true) : (writeStatus v s).busyOk = true := by
  rw [busyOk_iff] at h ⊢
  intro hb
  obtain ⟨hd, hrest⟩ := h hb
  exact ⟨by simp [hd], hrest⟩

/-- A host access keeps the invariant; one to F or G names an address inside its memory (R46, R48). -/
theorem accessEffect_inv {s t : State} {op : BusOp} {a : Access} (hI : s.Inv) (ha : busAccess s.params op = .ok a)
    (hr : s.rst = false) (h : AccessEffect s a t) : t.Inv ∧ t.params = s.params := by
  obtain ⟨hw, hm, hb, hc, hh⟩ := hI
  cases h with
  | unmapped => exact ⟨⟨hw, hm, hb, hc, hh⟩, rfl⟩
  | read => exact ⟨⟨hw, hm, hb, hc, hh⟩, rfl⟩
  | status v => exact ⟨⟨hw, hm, writeStatus_busyOk v hb, hc, heldOk_of_released hr⟩, rfl⟩
  | irqen v => exact ⟨⟨hw, hm, hb, hc, heldOk_of_released hr⟩, rfl⟩
  | accept w => exact ⟨⟨hw, hm, accept_busyOk w s, rfl, heldOk_of_released hr⟩, rfl⟩
  | operand hi ht => rw [ht]; exact ⟨⟨hw, hm, busyOk_of_idle hi, hc, heldOk_of_released hr⟩, rfl⟩
  | frame x b hi => exact ⟨⟨hw, writeF_memoriesOk hm (access_lt.1 ha) b, busyOk_of_idle hi, hc, hh⟩, rfl⟩
  | grid x b hi => exact ⟨⟨hw, writeG_memoriesOk hm (access_lt.2 ha) b, busyOk_of_idle hi, hc, hh⟩, rfl⟩
  | violation _ _ ht => rw [ht]; exact ⟨⟨hw, hm, hb, hc, heldOk_of_released hr⟩, rfl⟩

/-- How a running command ends (R121, R122): idle, DONE 1, a code of R118, TRUNC 0 beside an error if it was 0. -/
theorem runCommandWord_ends {w : Word} {s t : State} (h : runCommandWord w s = .next t) :
    t.params = s.params ∧ t.busy = false ∧ (s.trunc = false → t.codeOk = true) := by
  rw [codeOk_iff]
  rcases runCommandWord_cases w s with ⟨e, b, h1⟩ | ⟨u, h1, hu⟩
  · obtain rfl := Host.Outcome.next.inj (h1.symm.trans h)
    exact ⟨rfl, rfl, fun htr => ⟨e.code_le, fun ht => absurd (htr.symm.trans ht) nofun⟩⟩
  · obtain rfl := Host.Outcome.next.inj (h1.symm.trans h)
    unfold SameButResults at hu
    exact ⟨by rw [hu]; rfl, rfl, fun _ => ⟨Nat.zero_le _, fun _ => rfl⟩⟩

/-- What a running command leaves of the fields it does not read (R26, R38, R121). -/
theorem runCommandWord_keeps {w : Word} {s t : State} (h : runCommandWord w s = .next t) :
    t.rst = s.rst ∧ t.haz = s.haz ∧ t.done = true := by
  rw [eq_endUnread_of_run h]
  exact ⟨rfl, rfl, rfl⟩

/-- A command's end keeps the invariant. An error leaves TRUNC as the accept did, 0 (R119, R122). -/
theorem runCommandWord_inv {w : Word} {s t : State} (hI : s.Inv) (hr : s.rst = false) (hb : s.busy = true)
    (h : runCommandWord w s = .next t) : t.Inv ∧ t.params = s.params := by
  obtain ⟨hw, hm, hbo, _, _⟩ := hI
  obtain ⟨_, htr, _⟩ := (busyOk_iff s).1 hbo hb
  obtain ⟨hp, hbt, hc⟩ := runCommandWord_ends h
  obtain ⟨hrt, _, _⟩ := runCommandWord_keeps h
  exact ⟨⟨(congrArg Params.wf hp).trans hw, runCommandWord_memoriesOk hm h, busyOk_of_idle hbt, hc htr,
    heldOk_of_released (hrt.trans hr)⟩, hp⟩

theorem abortedMemories_of_idle (lf lg : List Nat) {s : State} (h : s.busy = false) :
    abortedMemories lf lg s = (s.fmem, s.gmem) := by
  unfold abortedMemories
  rw [if_neg (by rw [h]; exact Bool.false_ne_true)]

theorem abortedMemories_of_busy (lf lg : List Nat) {s t : State} (h : s.busy = true)
    (ht : runCommandWord s.engOp s = .next t) :
    abortedMemories lf lg s = (Memory.mix s.fmem t.fmem lf, Memory.mix s.gmem t.gmem lg) := by
  unfold abortedMemories
  rw [if_pos h, ht]

/-- A reset during a command leaves the memories canonical and inside their sizes, whatever writes had landed (R138). -/
theorem abortedMemories_ok (lf lg : List Nat) {s : State} (h : s.memoriesOk = true) :
    Memory.wf (abortedMemories lf lg s).1 = true ∧ Memory.wf (abortedMemories lf lg s).2 = true ∧
      Memory.below s.params.frameBytes (abortedMemories lf lg s).1 = true ∧
      Memory.below s.params.gridBytes (abortedMemories lf lg s).2 = true := by
  obtain ⟨hf, hg, hfb, hgb⟩ := (memoriesOk_iff s).1 h
  cases hb : s.busy with
  | false => rw [abortedMemories_of_idle lf lg hb]; exact ⟨hf, hg, hfb, hgb⟩
  | true =>
    obtain ⟨t, ht⟩ := runCommandWord_next s.engOp s
    obtain ⟨hp, _, _⟩ := runCommandWord_ends ht
    obtain ⟨_, _, htfb, htgb⟩ := (memoriesOk_iff t).1 (runCommandWord_memoriesOk h ht)
    rw [hp] at htfb htgb
    rw [abortedMemories_of_busy lf lg hb ht]
    exact ⟨Memory.mix_wf _ _ _ hf, Memory.mix_wf _ _ _ hg, Memory.mix_below _ _ _ hfb htfb,
      Memory.mix_below _ _ _ hgb htgb⟩

theorem assertReset_memoriesOk (m : MemoryAtReset) {s : State} (h : s.memoriesOk = true) :
    (assertReset m s).memoriesOk = true := by
  rw [memoriesOk_iff]
  cases m with
  | kept lf lg => exact abortedMemories_ok lf lg h
  | lost => exact ⟨reset_memories_wf.1, reset_memories_wf.2, rfl, rfl⟩

/-- Every event keeps the invariant and the platform's parameters. -/
theorem eventEffect_inv {s t : State} {e : Event} (hI : s.Inv) (h : EventEffect s e t) :
    t.Inv ∧ t.params = s.params := by
  cases h with
  | idle => exact ⟨hI, rfl⟩
  | command hr hb h => exact runCommandWord_inv hI hr hb h
  | access ha hr h => exact accessEffect_inv hI ha hr h
  | held => rw [heldAccess_frame]; exact ⟨hI, rfl⟩
  | reset m =>
    obtain ⟨hw, hm, _, _, _⟩ := hI
    exact ⟨⟨hw, assertReset_memoriesOk m hm, rfl, rfl, rfl⟩, rfl⟩
  | release =>
    obtain ⟨hw, hm, hb, hc, _⟩ := hI
    exact ⟨⟨hw, hm, hb, hc, rfl⟩, rfl⟩

/-- Settles O60: the invariant does not speak of the pending events, and each event keeps it. -/
theorem stepKeepsInvariant : Obligations.StepKeepsInvariant := by
  intro s t hI h
  obtain ⟨e, rest, _, he⟩ := step_effect h
  exact eventEffect_inv (s := { s with inputs := rest }) hI he

end Sys2Proof.Machine
end

section
/-! PROOFS. Which events change BUSY and HAZ (10_state R22, R26), from what one event can do. -/

namespace Sys2Proof.Machine

/-- A host access changes BUSY only by an accept (R22). -/
theorem AccessEffect.busy_or_accept {s t : State} {a : Access} (h : AccessEffect s a t) :
    t.busy = s.busy ∨ ∃ off w, a = .writeReg off w ∧ regAt off = some .cmd ∧ t.busy = true := by
  cases h with
  | accept w h _ => exact .inr ⟨_, w, rfl, h, rfl⟩
  | operand _ ht => rw [ht]; exact .inl rfl
  | violation _ _ ht => rw [ht]; exact .inl rfl
  | _ => exact .inl rfl

/-- A host access changes HAZ only by breaking the protocol or by a write of STATUS (R26). -/
theorem AccessEffect.haz_cases {s t : State} {a : Access} (h : AccessEffect s a t) :
    t.haz = s.haz ∨ (s.busy = true ∧ BusyForbidden a ∧ t.haz = true) ∨
      ∃ off v, a = .writeReg off v ∧ regAt off = some .status ∧ t.haz = (s.haz && !v.getLsbD 3) := by
  cases h with
  | status v h => exact .inr (.inr ⟨_, v, rfl, h, rfl⟩)
  | operand _ ht => rw [ht]; exact .inl rfl
  | violation hb ha ht => rw [ht]; exact .inr (.inl ⟨hb, ha, rfl⟩)
  | _ => exact .inl rfl

theorem EventEffect.accept_of_busy_rises {s t : State} {e : Event} (h : EventEffect s e t) (hs : s.busy = false)
    (ht : t.busy = true) : ∃ w, e = .host (busWR s.params .cmd w) := by
  cases h with
  | idle => cases hs.symm.trans ht
  | command _ hb _ => cases hs.symm.trans hb
  | access ha _ h =>
    rcases h.busy_or_accept with hbusy | ⟨off, w, rfl, hoff, _⟩
    · cases hs.symm.trans (hbusy.symm.trans ht)
    · exact ⟨w, congrArg _ (busWR_of_access ha hoff)⟩
  | held => rw [heldAccess_frame] at ht; cases hs.symm.trans ht
  | reset m => cases ht
  | release => cases hs.symm.trans ht

theorem EventEffect.done_or_reset_of_busy_falls {s t : State} {e : Event} (h : EventEffect s e t)
    (hs : s.busy = true) (ht : t.busy = false) : t.done = true ∨ ∃ m, e = .assertRst m := by
  cases h with
  | idle => cases hs.symm.trans ht
  | command _ _ h => exact .inl (runCommandWord_keeps h).2.2
  | access _ _ h =>
    rcases h.busy_or_accept with hbusy | ⟨_, _, _, _, hbusy⟩
    · cases hs.symm.trans (hbusy.symm.trans ht)
    · cases hbusy.symm.trans ht
  | held => rw [heldAccess_frame] at ht; cases hs.symm.trans ht
  | reset m => exact .inr ⟨m, rfl⟩
  | release => cases hs.symm.trans ht

/-- Settles O52: of all events only an accept raises BUSY; only a command's end, which sets DONE, and reset lower it. -/
theorem busyChangesOnlyByAcceptAndCompletion : Obligations.BusyChangesOnlyByAcceptAndCompletion := by
  intro s t h
  obtain ⟨e, rest, hi, he⟩ := step_effect h
  refine ⟨fun hs ht => ?_, fun hs ht => ?_⟩
  · obtain ⟨w, rfl⟩ := he.accept_of_busy_rises hs ht
    exact ⟨w, rest, hi.resolve_right nofun⟩
  · rcases he.done_or_reset_of_busy_falls hs ht with hd | ⟨m, rfl⟩
    · exact .inl hd
    · exact .inr ⟨m, rest, hi.resolve_right nofun⟩

theorem EventEffect.violation_of_haz_rises {s t : State} {e : Event} (h : EventEffect s e t) (hs : s.haz = false)
    (ht : t.haz = true) :
    s.busy = true ∧ ∃ op a, e = .host op ∧ busAccess s.params op = .ok a ∧ BusyForbidden a := by
  cases h with
  | idle => cases hs.symm.trans ht
  | command _ _ h => cases hs.symm.trans ((runCommandWord_keeps h).2.1.symm.trans ht)
  | access ha _ h =>
    rcases h.haz_cases with hhaz | ⟨hb, hf, _⟩ | ⟨off, v, _, _, hhaz⟩
    · cases hs.symm.trans (hhaz.symm.trans ht)
    · exact ⟨hb, _, _, rfl, ha, hf⟩
    · rw [hs, ht] at hhaz; cases hhaz
  | held => rw [heldAccess_frame] at ht; cases hs.symm.trans ht
  | reset m => cases ht
  | release => cases hs.symm.trans ht

theorem EventEffect.clear_or_reset_of_haz_falls {s t : State} {e : Event} (h : EventEffect s e t)
    (hs : s.haz = true) (ht : t.haz = false) :
    (∃ v, e = .host (busWR s.params .status v) ∧ v.getLsbD 3 = true) ∨ ∃ m, e = .assertRst m := by
  cases h with
  | idle => cases hs.symm.trans ht
  | command _ _ h => cases hs.symm.trans ((runCommandWord_keeps h).2.1.symm.trans ht)
  | access ha _ h =>
    rcases h.haz_cases with hhaz | ⟨_, _, hhaz⟩ | ⟨off, v, rfl, hoff, hhaz⟩
    · cases hs.symm.trans (hhaz.symm.trans ht)
    · cases ht.symm.trans hhaz
    · rw [hs, ht] at hhaz
      exact .inl ⟨v, congrArg _ (busWR_of_access ha hoff), by simpa using hhaz⟩
  | held => rw [heldAccess_frame] at ht; cases hs.symm.trans ht
  | reset m => exact .inr ⟨m, rfl⟩
  | release => cases hs.symm.trans ht

/-- Settles O53: of all events only an access that breaks the protocol raises HAZ; only a write of STATUS with bit 3 set
and reset lower it. -/
theorem hazChangesOnlyByProtocol : Obligations.HazChangesOnlyByProtocol := by
  intro s t h
  obtain ⟨e, rest, hi, he⟩ := step_effect h
  refine ⟨fun hs ht => ?_, fun hs ht => ?_⟩
  · obtain ⟨hb, op, a, rfl, ha, hf⟩ := he.violation_of_haz_rises hs ht
    exact ⟨hb, op, a, rest, hi.resolve_right nofun, ha, hf⟩
  · rcases he.clear_or_reset_of_haz_falls hs ht with ⟨v, rfl, hv⟩ | ⟨m, rfl⟩
    · exact .inl ⟨v, rest, hi.resolve_right nofun, hv⟩
    · exact .inr ⟨m, rest, hi.resolve_right nofun⟩

end Sys2Proof.Machine
end

section
/-! PROOFS. What a command may write, and what it does not read (10_state R25, R26, R35; 30_encoding R68). -/

namespace Sys2Proof.Machine

/-- The results `i` does not write are in `u` as in `s` (R35, R75 to R112). -/
def KeepsOthersResults (i : Instr) (s u : State) : Prop :=
  (i ≠ .deserialize → u.trunc = s.trunc) ∧
  (i = .deserialize ∨ i = .embed ∨ i = .extractLength → u.fmem = s.fmem ∧ u.flen = s.flen) ∧
  (i ≠ .embed → i ≠ .encode → u.gmem = s.gmem) ∧
  (i = .serialize ∨ i = .embed ∨ i = .extractBits ∨ i = .encode → u.plen = s.plen)

theorem KeepsOthersResults.refl (i : Instr) (s : State) : KeepsOthersResults i s s :=
  ⟨fun _ => rfl, fun _ => ⟨rfl, rfl⟩, fun _ _ => rfl, fun _ => rfl⟩

/-- Neither way of ending writes a result (R121). -/
theorem command_keepsOthersResults {i : Instr} {s : State} (checks : List (Bool × CmdError))
    {effect : State → State} (h : KeepsOthersResults i s (effect s)) :
    KeepsOthersResults i s (command checks effect s) := by
  rcases command_cases checks effect s with ⟨e, _, h1⟩ | ⟨_, h1⟩
  · rw [h1]; exact .refl i s
  · rw [h1]; exact h

theorem exec_keepsOthersResults {i : Instr} {s t : State} (ht : exec i s = .next t) : KeepsOthersResults i s t := by
  cases i with
  | serialize =>
    obtain rfl := Host.Outcome.next.inj ht
    refine command_keepsOthersResults _ ?_
    rw [writePrefix_frame]
    exact ⟨fun _ => rfl, nofun, fun _ _ => rfl, fun _ => rfl⟩
  | deserialize =>
    obtain rfl := Host.Outcome.next.inj ht
    refine command_keepsOthersResults _ ?_
    rw [deserializeEffect_frame]
    exact ⟨(absurd rfl ·), fun _ => ⟨rfl, rfl⟩, fun _ _ => rfl, nofun⟩
  | embed =>
    obtain rfl := Host.Outcome.next.inj ht
    refine command_keepsOthersResults _ ?_
    rw [embedFrame_frame]
    exact ⟨fun _ => rfl, fun _ => ⟨rfl, rfl⟩, (absurd rfl ·), fun _ => rfl⟩
  | extractLength =>
    obtain rfl := Host.Outcome.next.inj ht
    exact command_keepsOthersResults _ ⟨fun _ => rfl, fun _ => ⟨rfl, rfl⟩, fun _ _ => rfl, nofun⟩
  | extractBits =>
    obtain rfl := Host.Outcome.next.inj ht
    refine command_keepsOthersResults _ ?_
    rw [extractFrame_frame]
    exact ⟨fun _ => rfl, nofun, fun _ _ => rfl, fun _ => rfl⟩
  | encode =>
    obtain rfl := Host.Outcome.next.inj ht
    refine command_keepsOthersResults _ ?_
    rw [embedFrame_frame, writePrefix_frame]
    exact ⟨fun _ => rfl, nofun, fun _ => (absurd rfl ·), fun _ => rfl⟩
  | decode =>
    rcases execDecode_cases s with ⟨e, _, h⟩ | ⟨_, e, _, h⟩ | ⟨_, _, h⟩ <;>
      obtain rfl := Host.Outcome.next.inj (h.symm.trans ht)
    · exact .refl _ s
    · exact .refl _ s
    · rw [finishDecode_frame, extractFrame_frame, readLength_frame]
      exact ⟨fun _ => rfl, nofun, fun _ _ => rfl, nofun⟩

/-- What no command writes, whichever way it ends (R35, R121). -/
theorem exec_frame {i : Instr} {s t : State} (ht : exec i s = .next t) : t = { s with
    busy := false, done := true, errcode := t.errcode, trunc := t.trunc, plen := t.plen, flen := t.flen,
    bitIdx := t.bitIdx, acc := t.acc, fmem := t.fmem, gmem := t.gmem } := by
  rcases exec_cases i s with ⟨e, b, h⟩ | ⟨u, h, hu⟩
  · obtain rfl := Host.Outcome.next.inj (h.symm.trans ht)
    rfl
  · obtain rfl := Host.Outcome.next.inj (h.symm.trans ht)
    unfold SameButResults at hu
    rw [hu]
    rfl

/-- Settles O38: the frame of every command, and for each command the results that are another's. -/
theorem commandsWriteOnlyTheirResults : Obligations.CommandsWriteOnlyTheirResults :=
  fun _ _ _ ht => ⟨exec_frame ht, exec_keepsOthersResults ht⟩

/-- Settles O40: the other values are put into PLEN and FLEN, which a success may write, then into the registers no
command reads or writes. -/
theorem runningCommandUsesLatchedOperands : Obligations.RunningCommandUsesLatchedOperands := by
  intro i s t hz h w c l n lo hi ht
  have hrun := exec_withUnread
    { s with haz := hz, height := h, width := w, channels := c, xbitsLo := lo, xbitsHi := hi } (exec_withLengths l n ht)
  refine hrun.trans (congrArg Host.Outcome.next ?_)
  rw [exec_frame ht]
  rfl

/-- Settles O41: the engine's step performs the latched word, and that is the command it decodes to (R39, R67). -/
theorem stepRunsAcceptedCommand : Obligations.StepRunsAcceptedCommand := by
  intro s i rest hr hb hd
  refine ⟨fun hi => ?_, fun hi => ?_⟩
  · rw [step_engine hr hb hi, runCommandWord_of_ok hd]
  · rw [step_engine_nil hr hb hi, runCommandWord_of_ok hd]

end Sys2Proof.Machine
end

section
/-! PROOFS. The host's register window: the ten registers, the unmapped offsets, and the transactions without a move
(10_state R17 to R34; 20_memory R56, R58). -/

namespace Sys2Proof.Machine

/-! ### The transactions the window takes -/

theorem word32_reg (p : Params) {off : Nat} (h : off < 64) (h4 : off % 4 = 0) (k : Nat → Access) :
    word32 p (p.regBase + off) k = .ok (k off) := by
  have hw : inWindow p.regBase 64 (p.regBase + off) = true := by rw [inWindow_iff]; omega
  simp only [word32, hw, Nat.add_sub_cancel_left, h4, if_true]

theorem regAt_unmapped : ∀ off ∈ [0x28, 0x2C, 0x30, 0x34, 0x38, 0x3C], off < 64 ∧ off % 4 = 0 ∧ regAt off = none := by
  decide

/-- Settles O47: the transaction is an access of the block, and no register is at its offset (R19). -/
theorem unmappedOffsets : Obligations.UnmappedOffsets := by
  intro s off v rest hr hoff
  obtain ⟨hlt, h4, hnone⟩ := regAt_unmapped off hoff
  refine ⟨fun hi => ?_, fun hi => ?_⟩
  · rw [step_host_released hr hi (word32_reg _ hlt h4 _), hostAccess_readReg_unmapped hnone]
    rfl
  · rw [step_host_released hr hi (word32_reg _ hlt h4 fun o => .writeReg o v), hostAccess_writeReg_unmapped hnone]

/-! ### What a read of a register answers -/

theorem toNat_ofBool_setWidth (b : Bool) : ((BitVec.ofBool b).setWidth 32).toNat = b.toNat := by cases b <;> rfl

/-- The flags of STATUS at their bits (R21). -/
theorem statusWord_toNat (s : State) : (statusWord s).toNat =
    s.busy.toNat + 2 * s.done.toNat + 4 * s.trunc.toNat + 8 * s.haz.toNat + 256 * s.errcode.toNat := by
  have flags : ∀ (b d t h : Bool) (e : BitVec 4), (0#20 ++ e ++ 0#4 ++ BitVec.ofBool h ++ BitVec.ofBool t ++
      BitVec.ofBool d ++ BitVec.ofBool b : BitVec 32).toNat =
      b.toNat + 2 * d.toNat + 4 * t.toNat + 8 * h.toNat + 256 * e.toNat := by decide
  exact flags _ _ _ _ _

/-- The ten registers and their offsets, as R17 lists them. -/
def offsetTable : List (Reg × Nat) :=
  [(.cmd, 0x00), (.status, 0x04), (.irqen, 0x08), (.height, 0x0C), (.width, 0x10), (.channels, 0x14), (.plen, 0x18),
    (.flen, 0x1C), (.xbitsLo, 0x20), (.xbitsHi, 0x24)]

theorem offset_of_mem_offsetTable {r : Reg} {off : Nat} (h : (r, off) ∈ offsetTable) : r.offset = off := by
  have all : ∀ p ∈ offsetTable, Reg.offset p.1 = p.2 := by decide
  exact all _ h

/-- Settles O46: a read at an offset of R17 answers the word of its register, whose value is that of its field. -/
theorem registerReads : Obligations.RegisterReads := by
  intro s r off rest hr hmem hi
  obtain rfl := offset_of_mem_offsetTable hmem
  refine ⟨rfl, _, step_busRD hr hi, rfl, ?_⟩
  rw [answer_rdata]
  cases r with
  | cmd => rfl
  | status => exact statusWord_toNat s
  | irqen => exact toNat_ofBool_setWidth s.ie
  | height => exact BitVec.toNat_setWidth_of_le (by decide)
  | width => exact BitVec.toNat_setWidth_of_le (by decide)
  | channels => exact BitVec.toNat_setWidth_of_le (by decide)
  | plen => rfl
  | flen => rfl
  | xbitsLo => rfl
  | xbitsHi => exact BitVec.toNat_setWidth_of_le (by decide)

/-! ### What a write of a register does while idle -/

/-- Settles O45: a write at an offset of R17 is the write of its register, which while idle takes the field's bits. -/
theorem idleRegisterWrites : Obligations.IdleRegisterWrites := by
  intro s r off v rest hr hb hmem hi
  obtain rfl := offset_of_mem_offsetTable (List.mem_cons_of_mem _ hmem)
  have hstep := step_busWR hr hi
  have hidle (f : State → State) : whenIdle f { s with inputs := rest } = f { s with inputs := rest } :=
    whenIdle_idle f hb
  cases r with
  | cmd => exact absurd hmem (by decide)
  | status => exact ⟨_, hstep, by simp [writeReg, writeStatus]⟩
  | irqen => exact ⟨_, hstep, by simp [writeReg, writeIrqen]⟩
  | _ => -- an operand register: the low bits of the word
    simp only [writeReg, hidle] at hstep
    exact ⟨_, hstep, by simp⟩

/-! ### The transactions without a move -/

/-- The address of a bus transaction. -/
def BusOp.addr : BusOp → Nat
  | .write32 addr _ => addr
  | .read32 addr => addr
  | .write8 addr _ => addr
  | .read8 addr => addr

theorem step_unsupported {s : State} {op : BusOp} {rest : List Event} (hi : s.inputs = .host op :: rest)
    (h : busAccess s.params op = .error .unsupported) : step s = .refused (.unsupportedAccess op) := by
  rw [step_cons hi]
  simp only [react, hostStep, h]

theorem step_outside {s : State} {op : BusOp} {rest : List Event} (hi : s.inputs = .host op :: rest)
    (h : busAccess s.params op = .error .outside) : step s = .fault (.noSuchAddress op.addr) := by
  rw [step_cons hi]
  cases op <;> simp only [react, hostStep, h, BusOp.addr]

theorem busAccess_word {op : BusOp} {addr : Nat} {v : Word} (h : op = .write32 addr v ∨ op = .read32 addr)
    (p : Params) : ∃ k, busAccess p op = word32 p addr k := by
  rcases h with rfl | rfl
  · exact ⟨fun off => .writeReg off v, rfl⟩
  · exact ⟨.readReg, rfl⟩

theorem busAccess_byte {op : BusOp} {addr : Nat} {b : Byte} (h : op = .write8 addr b ∨ op = .read8 addr)
    (p : Params) : ∃ kf kg, busAccess p op = byte8 p addr kf kg := by
  rcases h with rfl | rfl
  · exact ⟨fun a => .writeF a b, fun a => .writeG a b, rfl⟩
  · exact ⟨.readF, .readG, rfl⟩

theorem word32_misaligned {p : Params} {addr : Nat} (h : inWindow p.regBase 64 addr = true)
    (h4 : (addr - p.regBase) % 4 ≠ 0) (k : Nat → Access) : word32 p addr k = .error .unsupported := by
  rw [word32, if_pos h, if_neg h4]

theorem word32_memory {p : Params} {addr : Nat} (hr : inWindow p.regBase 64 addr = false)
    (h : inWindow p.fBase p.frameBytes addr = true ∨ inWindow p.gBase p.gridBytes addr = true) (k : Nat → Access) :
    word32 p addr k = .error .unsupported := by
  rw [word32, hr, if_neg Bool.false_ne_true, if_pos (by simpa using h)]

theorem byte8_reg {p : Params} {addr : Nat} (hf : inWindow p.fBase p.frameBytes addr = false)
    (hg : inWindow p.gBase p.gridBytes addr = false) (hr : inWindow p.regBase 64 addr = true)
    (kf kg : Nat → Access) : byte8 p addr kf kg = .error .unsupported := by
  rw [byte8, hf, hg, hr]
  rfl

theorem busAccess_outside {p : Params} {op : BusOp} (hr : inWindow p.regBase 64 op.addr = false)
    (hf : inWindow p.fBase p.frameBytes op.addr = false) (hg : inWindow p.gBase p.gridBytes op.addr = false) :
    busAccess p op = .error .outside := by
  cases op <;> simp only [BusOp.addr] at hr hf hg <;>
    simp only [busAccess, word32, byte8, hr, hf, hg, Bool.or_self, Bool.false_eq_true, if_false]

/-- The windows of a platform share no address (R45). -/
theorem inWindow_reg_memory {p : Params} (h : p.wf = true) {addr : Nat} (hr : inWindow p.regBase 64 addr = true) :
    inWindow p.fBase p.frameBytes addr = false ∧ inWindow p.gBase p.gridBytes addr = false := by
  obtain ⟨hrf, hrg, _⟩ := Params.wf_apart h
  rw [inWindow_iff] at hr
  rw [Bool.eq_false_iff, Bool.eq_false_iff, ne_eq, ne_eq, inWindow_iff, inWindow_iff]
  omega

/-- Settles O51: window by window, no access of the block is found, and the stop has that reason's name. -/
theorem unsupportedAccessesStop : Obligations.UnsupportedAccessesStop := by
  intro s op addr v b rest hw hi
  refine ⟨fun h1 h2 h4 hop => ?_, fun h1 h2 hop => ?_, fun hmem hop => ?_, fun hr hf hg hop => ?_⟩
  · have hr := (inWindow_iff s.params.regBase 64 addr).2 ⟨h1, h2⟩
    obtain ⟨k, hk⟩ := busAccess_word hop s.params
    exact step_unsupported hi (hk.trans (word32_misaligned hr h4 k))
  · have hr := (inWindow_iff s.params.regBase 64 addr).2 ⟨h1, h2⟩
    obtain ⟨hf, hg⟩ := inWindow_reg_memory hw hr
    obtain ⟨kf, kg, hk⟩ := busAccess_byte hop s.params
    exact step_unsupported hi (hk.trans (byte8_reg hf hg hr kf kg))
  · rw [← inWindow_iff, ← inWindow_iff] at hmem
    have hr : inWindow s.params.regBase 64 addr = false := by
      rw [Bool.eq_false_iff]
      intro hr
      obtain ⟨hf, hg⟩ := inWindow_reg_memory hw hr
      simp [hf, hg] at hmem
    obtain ⟨k, hk⟩ := busAccess_word hop s.params
    exact step_unsupported hi (hk.trans (word32_memory hr hmem k))
  · have haddr : op.addr = addr := by rcases hop with rfl | rfl | rfl | rfl <;> rfl
    subst haddr
    exact step_outside hi (busAccess_outside (inWindow_not hr) (inWindow_not hf) (inWindow_not hg))

end Sys2Proof.Machine
end

section
/-! PROOFS. The reset input (10_state R41, R43; 70_reset R137, R139). -/

namespace Sys2Proof.Machine

theorem step_assertRst {s : State} {m : MemoryAtReset} {rest : List Event} (hi : s.inputs = .assertRst m :: rest) :
    step s = .next (assertReset m { s with inputs := rest }) := step_cons hi

theorem regWord_reset (r : Reg) : regWord State.reset r = if r = .channels then 3#32 else 0#32 := by
  cases r <;> rfl

theorem regWord_assertReset (m : MemoryAtReset) (s : State) (r : Reg) :
    regWord (assertReset m s) r = regWord State.reset r := by
  cases r <;> rfl

/-- Settles O56: the table of R41, and asserting rst puts the registers there. -/
theorem resetRegisterValues : Obligations.ResetRegisterValues :=
  ⟨regWord_reset, fun _ m _ hi => ⟨_, step_assertRst hi, fun r => (regWord_assertReset m _ r).trans (regWord_reset r)⟩⟩

theorem busAccess_of_wellFormed {p : Params} {op : BusOp} (h : op.wellFormed p = true) :
    ∃ a, busAccess p op = .ok a := by
  unfold BusOp.wellFormed at h
  cases ha : busAccess p op with
  | ok a => exact ⟨a, rfl⟩
  | error _ => rw [ha] at h; cases h

/-- An idle block's memories, kept, read as before (R137). -/
theorem assertReset_kept_of_idle (lf lg : List Nat) {s : State} (h : s.busy = false) :
    (assertReset (.kept lf lg) s).fmem = s.fmem ∧ (assertReset (.kept lf lg) s).gmem = s.gmem ∧
      (assertReset (.kept lf lg) s).epoch = s.epoch := by
  exact ⟨congrArg Prod.fst (abortedMemories_of_idle lf lg h),
    congrArg Prod.snd (abortedMemories_of_idle lf lg h), rfl⟩

/-- Settles O57: clause by clause, the next state is the one the event's operation gives. -/
theorem resetInputHeld : Obligations.ResetInputHeld := by
  refine ⟨fun s lf lg rest hb hi => ?_, fun s op rest hr hop hi => ?_, fun s rest hi => ?_, fun s rest hi => step_cons hi⟩
  · obtain ⟨hf, hg, he⟩ := assertReset_kept_of_idle lf lg (s := { s with inputs := rest }) hb
    refine ⟨_, step_assertRst hi, rfl, rfl, rfl, rfl, rfl, fun a => ?_, fun a => ?_⟩
    · simp only [readF, hf, he]
    · simp only [readG, hg, he]
  · obtain ⟨a, ha⟩ := busAccess_of_wellFormed hop
    exact ⟨_, step_host_held hr hi ha, heldAccess_frame a _⟩
  · exact ⟨_, step_assertRst hi, rfl, rfl, rfl, rfl, rfl, fun _ => rfl, fun _ => rfl⟩

end Sys2Proof.Machine
end

section
/-! PROOFS. The packer against the serializer (20_memory R54; 42_lsb_codec R95, R96), and the layout of G against the
address generator (20_memory R49 to R51; 41_sequencer R84, R86). -/

namespace Sys2Proof.Machine

/-! ### The packer -/

theorem pack_bitstream (bytes : List Byte) : pack (bitstream bytes) = bytes := by
  induction bytes with
  | nil => rfl
  | cons b rest ih => rw [bitstream_cons, pack_byteBits_append, ih]

/-- On whole groups of 8 the serializer undoes the packer too (R95, R96). -/
theorem bitstream_pack (n : Nat) : ∀ bits : List Bool, bits.length = 8 * n → bitstream (pack bits) = bits := by
  induction n with
  | zero => intro bits h; rw [List.length_eq_zero_iff.1 h]; rfl
  | succ n ih =>
    intro bits h
    have h8 : (bits.take 8).length = 8 := by rw [List.length_take]; omega
    have hrest : (bits.drop 8).length = 8 * n := by rw [List.length_drop]; omega
    calc bitstream (pack bits)
        = bitstream (pack (bits.take 8 ++ bits.drop 8)) := by rw [List.take_append_drop]
      _ = bits.take 8 ++ bits.drop 8 := by
        rw [pack_eight_append h8, bitstream_cons, byteBits_eight h8, ih _ hrest]
      _ = bits := List.take_append_drop 8 bits

/-- Settles O5: bit `8 * k + m` of the sequence is read where the serializer puts it back, at bit `7 - m` of byte `k` of
the packed bytes. -/
theorem packIsMsbFirst : Obligations.PackIsMsbFirst := by
  refine ⟨pack_bitstream, fun bits n hbits => ⟨pack_length n bits hbits, fun k m hk hm => ?_⟩⟩
  have hlen := pack_length n bits hbits
  have hbit : 8 * k + m < (bitstream (pack bits)).length := by rw [bitstream_length]; omega
  have hdiv : (8 * k + m) / 8 = k := by omega
  have hmod : (8 * k + m) % 8 = m := by omega
  have hget := bitstream_getElem (pack bits) (8 * k + m) hbit (by omega)
  simp only [hdiv, hmod] at hget
  calc (pack bits)[k]?.map (fun byte => byte.getLsbD (7 - m))
      = (bitstream (pack bits))[8 * k + m]? := by
        rw [List.getElem?_eq_getElem (by omega), List.getElem?_eq_getElem hbit, hget, Option.map_some]
    _ = bits[8 * k + m]? := by rw [bitstream_pack n bits hbits]

/-! ### The layout of G -/

/-- The layout's address of the coordinate of an index is the generated one (R49, R84, R86). -/
theorem gaddr_coord (c i w : Nat) : gaddr w c (coord i w).1 (coord i w).2.1 (coord i w).2.2 = seqAddr c i := by
  simp only [gaddr, coord, seqAddr, Nat.div_add_mod']

/-- An address inside a row is the generated address of the index its coordinate counts to (R49, R85). -/
theorem gaddr_eq_seqAddr {w col ch : Nat} (c row : Nat) (hcol : col < w) (hch : ch < 3) :
    gaddr w c row col ch = seqAddr c ((row * w + col) * 3 + ch) := by
  rw [← gaddr_coord c _ w, coord_of_index row hcol hch]

theorem index_lt_capacity {h w row col ch : Nat} (hrow : row < h) (hcol : col < w) (hch : ch < 3) :
    (row * w + col) * 3 + ch < capacity h w := by
  have hpixel : row * w + col < h * w :=
    calc row * w + col < (row + 1) * w := by rw [Nat.succ_mul]; omega
      _ ≤ h * w := Nat.mul_le_mul_right w hrow
  unfold capacity
  omega

theorem seqAddr_four_ne_alpha (i p : Nat) : seqAddr 4 i ≠ 4 * p + 3 := by
  unfold seqAddr
  omega

/-- Settles O6: pixel and channel of the index recombine (R84); for C = 4 the address is `i % 3` modulo 4. -/
theorem seqAddrIsLayoutOfCoord : Obligations.SeqAddrIsLayoutOfCoord := by
  refine ⟨fun i w c _ => (gaddr_coord c i w).symm, fun i => ?_, fun i p => ⟨?_, seqAddr_four_ne_alpha i p⟩⟩
  · exact Nat.div_add_mod' i 3
  · rw [seqAddr, Nat.mul_comm]

/-- Settles O8: a used sample is the one of an index below CAP, whose address `geom_ok` bounds; an empty image has no
sample to bound. -/
theorem geometryKeepsSamplesInside : Obligations.GeometryKeepsSamplesInside := by
  refine fun s => ⟨geomOk_iff s, fun hgeom row col ch hrow hcol hch => ?_, fun hC hempty => ?_⟩
  · rw [gaddr_eq_seqAddr _ _ hcol hch]
    exact seqAddr_lt_gridBytes hgeom (index_lt_capacity hrow hcol hch)
  · have hpixels : s.opH.toNat * s.opW.toNat = 0 := by rcases hempty with h | h <;> simp [h]
    refine ⟨(geomOk_iff s).2 ⟨?_, by rw [hpixels, Nat.zero_mul]; exact Nat.zero_le _⟩, ?_⟩
    · exact hC.imp (congrArg BitVec.toNat) (congrArg BitVec.toNat)
    · rw [cap, capacity, hpixels]

end Sys2Proof.Machine
end

section
/-! PROOFS. EMBED and ENCODE that pass their checks (42_lsb_codec R104, R105, R112), and EXTRACT_LENGTH on a grid EMBED
wrote (R107). -/

namespace Sys2Proof.Machine

@[simp] theorem readF_embedFrame (n : Nat) (s : State) (a : Nat) : readF (embedFrame n s) a = readF s a := by
  rw [embedFrame_frame]
  rfl

@[simp] theorem readG_writePrefix (s : State) (a : Nat) : readG (writePrefix s) a = readG s a := by
  rw [writePrefix_frame]
  rfl

/-- Settles O16: the embedding loop, its count of bits below 2^36 because CAP is (R90). -/
theorem embedCompletes : Obligations.EmbedCompletes := by
  intro s hgeom hcap hfit
  have hbits : 8 * s.opN.toNat < 2 ^ 36 := by have := cap_lt s; omega
  refine ⟨_, exec_embed_of_checks hgeom hcap hfit, ?_, fun i hi => ?_, fun a ha => ?_⟩
  · rw [embedFrame_frame]
    rfl
  · exact readG_embedFrame_visited (geomOk_three_le hgeom) hbits hi
  · exact readG_embedFrame_other hbits ha

/-- Settles O27: the embedding loop runs on the state with the prefix written, whose grid and latches are those of the
start; `Params.wf` keeps FLEN below 2^32. -/
theorem encodeCompletes : Obligations.EncodeCompletes := by
  intro s hwf hgeom hcap hfit
  have hbits : 8 * (4 + s.opL.toNat) < 2 ^ 36 := by have := cap_lt s; omega
  have hflen : 4 + s.opL.toNat < 2 ^ 32 := by have := (Params.wf_frameBytes hwf).2; omega
  have hC : (writePrefix s).opC = s.opC := by rw [writePrefix_frame]
  refine ⟨_, exec_encode_of_checks hgeom hcap hfit, ?_, ?_, ?_, ?_, ?_, ?_, fun a ha => ?_, fun i hi => ?_,
    fun a ha => ?_⟩
  · rw [embedFrame_frame, writePrefix_frame]
    rfl
  · exact Nat.mod_eq_of_lt hflen
  · simp [readF_writePrefix, be32]
  · simp [readF_writePrefix, be32]
  · simp [readF_writePrefix, be32]
  · simp [readF_writePrefix, be32]
  · simp [readF_writePrefix, Nat.not_lt.2 ha]
  · have hvisited := readG_embedFrame_visited (s := writePrefix s) (by rw [hC]; exact geomOk_three_le hgeom) hbits hi
    simpa [hC] using hvisited
  · have hother := readG_embedFrame_other (s := writePrefix s) hbits (by rw [hC]; exact ha)
    simpa using hother

/-- A command that completes with ERRCODE 0 has passed its checks and had its effect (R118, R121). -/
theorem command_of_success {checks : List (Bool × CmdError)} {effect : State → State} {s : State}
    (h : (command checks effect s).errcode = 0#4) :
    firstFailing checks = none ∧ command checks effect s = complete (effect s) := by
  rcases command_cases checks effect s with ⟨e, _, herr⟩ | hok
  · rw [herr] at h
    exact absurd h e.code_ne_zero
  · exact hok

theorem exec_embed_of_success {s t : State} (h : exec .embed s = .next t) (hcode : t.errcode = 0#4) :
    geomOk s = true ∧ 8 * s.opN.toNat < cap s ∧ s.opN.toNat ≤ s.params.frameBytes ∧
      t = complete (embedFrame s.opN.toNat s) := by
  obtain rfl := Host.Outcome.next.inj h
  obtain ⟨hchecks, heffect⟩ := command_of_success hcode
  obtain ⟨hgeom, hcap, hfit⟩ := (embedChecks_none s).1 hchecks
  exact ⟨hgeom, hcap, hfit, heffect⟩

/-- The packed slots of the grid after EMBED's loop are the bytes it embedded (R94, R107). -/
theorem slotByte_embedFrame {n : Nat} {s : State} (h3 : 3 ≤ s.opC.toNat) (hn : 8 * n < 2 ^ 36) {k : Nat}
    (hk : k < n) : slotByte (embedFrame n s) k = readF s k := by
  have hC : (embedFrame n s).opC = s.opC := by rw [embedFrame_frame]
  refine slotByte_of_embedded (f := readF s) fun i _ hi => ⟨readG s (seqAddr s.opC.toNat i), ?_⟩
  rw [hC]
  exact readG_embedFrame_visited h3 hn (by omega)

theorem extractLengthEffect_plen (s : State) : (extractLengthEffect s).plen.toNat = prefixG s := by
  rw [extractLengthEffect, setPlen_plen, readLength_prefixG, BitVec.toNat_ofNat, Nat.mod_eq_of_lt (prefixG_lt s)]

/-! A command accepted after EMBED, the registers as EMBED found them, latches EMBED's geometry (R38, R68). -/

theorem geomOk_accept_embedded (w w' : Word) (n : Nat) (s : State) :
    geomOk (accept w' (complete (embedFrame n (accept w s)))) = geomOk (accept w s) := by
  rw [embedFrame_frame]
  rfl

theorem cap_accept_embedded (w w' : Word) (n : Nat) (s : State) :
    cap (accept w' (complete (embedFrame n (accept w s)))) = cap (accept w s) := by
  rw [embedFrame_frame]
  rfl

theorem slotByte_accept_embedded (w w' : Word) (n : Nat) (s : State) (k : Nat) :
    slotByte (accept w' (complete (embedFrame n (accept w s)))) k = slotByte (embedFrame n (accept w s)) k := by
  rw [embedFrame_frame]
  rfl

/-- Settles O32: EXTRACT_LENGTH runs with EMBED's geometry, and 32 <= 8 * N < CAP; the four bytes of slots it reads are
the first four EMBED wrote. -/
theorem embedThenExtractLength : Obligations.EmbedThenExtractLength := by
  intro s t h4 ht hcode
  obtain ⟨hgeom, hcap, _, rfl⟩ := exec_embed_of_success ht hcode
  have hN : (accept (encode .embed) s).opN = s.flen := rfl
  have hcaplt := cap_lt (accept (encode .embed) s)
  rw [hN] at hcap ⊢
  refine ⟨_, exec_extractLength_of_checks ((geomOk_accept_embedded _ _ _ s).trans hgeom) ?_, rfl, ?_⟩
  · rw [cap_accept_embedded]
    omega
  · refine (extractLengthEffect_plen _).trans (prefixG_of_bytes (f := readF s) fun k hk => ?_)
    rw [slotByte_accept_embedded]
    exact slotByte_embedFrame (geomOk_three_le hgeom) (by omega) (by omega)

end Sys2Proof.Machine
end

section
/-! PROOFS. A sample the address generator never makes is neither read nor written by a command: the write of such a
sample commutes with every command (20_memory R50; 42_lsb_codec R103). -/

namespace Sys2Proof.Machine

theorem Memory.put_comm_of_lt (m : Memory) {a a' : Nat} (h : a < a') (b b' : Byte) :
    Memory.put (Memory.put m a b) a' b' = Memory.put (Memory.put m a' b') a b := by
  have hne : ¬ a' < a ∧ a' ≠ a := by omega
  induction m with
  | nil => simp [Memory.put, h, hne]
  | cons c rest ih =>
    obtain ⟨k, v⟩ := c
    rcases Nat.lt_trichotomy a k with hk | rfl | hk
    · rcases Nat.lt_trichotomy a' k with hk' | rfl | hk'
      · simp [Memory.put, h, hne, hk, hk']
      · simp [Memory.put, h, hne]
      · have : ¬ a' < k ∧ a' ≠ k := by omega
        simp [Memory.put, hne, hk, this]
    · simp [Memory.put, hne]
    · have : ¬ a < k ∧ a ≠ k ∧ ¬ a' < k ∧ a' ≠ k := by omega
      simp [Memory.put, this, ih]

/-- Writes of two addresses commute, in any list of cells. -/
theorem Memory.put_comm (m : Memory) {a a' : Nat} (h : a ≠ a') (b b' : Byte) :
    Memory.put (Memory.put m a b) a' b' = Memory.put (Memory.put m a' b') a b := by
  rcases Nat.lt_or_gt_of_ne h with h | h
  · exact Memory.put_comm_of_lt m h b b'
  · exact (Memory.put_comm_of_lt m h b' b).symm

theorem writeG_comm (s : State) {a a' : Nat} (h : a ≠ a') (b b' : Byte) :
    writeG (writeG s a b) a' b' = writeG (writeG s a' b') a b := by
  unfold writeG
  rw [Memory.put_comm s.gmem h]

/-- The address generator never makes `a`, for the number of channels the command runs with. -/
def Unaddressed (s : State) (a : Nat) : Prop := ∀ i, a ≠ seqAddr s.opC.toNat i

theorem unaddressed_alpha {s : State} (h : s.opC = 4#3) (p : Nat) : Unaddressed s (4 * p + 3) := by
  intro i
  rw [h]
  exact (seqAddr_four_ne_alpha i p).symm

/-! ### The write commutes with every operation of the engine -/

theorem embedBit_writeG {s : State} {a : Nat} (h : Unaddressed s a) (b : Byte) (bit : Bool) :
    embedBit (writeG s a b) bit = writeG (embedBit s bit) a b := by
  have hcur : a ≠ curAddr s := h s.bitIdx.toNat
  show nextBit (writeG (writeG s a b) (curAddr s) (lsbWrite (readG (writeG s a b) (curAddr s)) bit)) = _
  rw [readG_writeG, if_neg hcur.symm, writeG_comm s hcur]
  rfl

theorem foldl_embedBit_writeG {a : Nat} (b : Byte) (bits : List Bool) : ∀ {s : State}, Unaddressed s a →
    bits.foldl embedBit (writeG s a b) = writeG (bits.foldl embedBit s) a b := by
  induction bits with
  | nil => intro s _; rfl
  | cons bit rest ih =>
    intro s h
    rw [List.foldl_cons, embedBit_writeG h, List.foldl_cons]
    exact ih (s := embedBit s bit) h

theorem embedFrame_writeG {s : State} {a : Nat} (h : Unaddressed s a) (b : Byte) (n : Nat) :
    embedFrame n (writeG s a b) = writeG (embedFrame n s) a b :=
  foldl_embedBit_writeG b _ (s := startWalk s) h

theorem slot_writeG {s : State} {a : Nat} (h : Unaddressed s a) (b : Byte) (i : Nat) :
    slot (writeG s a b) i = slot s i := by
  show lsbRead (readG (writeG s a b) (seqAddr s.opC.toNat i)) = _
  rw [readG_writeG, if_neg (h i).symm]
  rfl

theorem slotsFrom_writeG {s : State} {a : Nat} (h : Unaddressed s a) (b : Byte) (n : Nat) :
    slotsFrom (writeG s a b) n = slotsFrom s n :=
  List.map_congr_left fun _ _ => slot_writeG h b _

theorem extractByte_writeG {s : State} {a : Nat} (h : Unaddressed s a) (b : Byte) (k : Nat) :
    extractByte (writeG s a b) k = writeG (extractByte s k) a b := by
  have hassemble : assembleByte (writeG s a b) = writeG (assembleByte s) a b := by
    unfold assembleByte
    rw [slotsFrom_writeG h]
    rfl
  unfold extractByte
  rw [hassemble]
  rfl

theorem foldl_extractByte_writeG {a : Nat} (b : Byte) (ks : List Nat) : ∀ {s : State}, Unaddressed s a →
    ks.foldl extractByte (writeG s a b) = writeG (ks.foldl extractByte s) a b := by
  induction ks with
  | nil => intro s _; rfl
  | cons k rest ih =>
    intro s h
    rw [List.foldl_cons, extractByte_writeG h, List.foldl_cons]
    exact ih (s := extractByte s k) h

theorem extractFrame_writeG {s : State} {a : Nat} (h : Unaddressed s a) (b : Byte) (n : Nat) :
    extractFrame n (writeG s a b) = writeG (extractFrame n s) a b :=
  foldl_extractByte_writeG b _ (s := startWalk s) h

theorem readLength_writeG {s : State} {a : Nat} (h : Unaddressed s a) (b : Byte) :
    (readLength (writeG s a b)).1 = (readLength s).1 ∧
      (readLength (writeG s a b)).2 = writeG (readLength s).2 a b := by
  refine ⟨?_, rfl⟩
  unfold readLength
  rw [show startWalk (writeG s a b) = writeG (startWalk s) a b from rfl, slotsFrom_writeG (s := startWalk s) h]

theorem writeFBytes_writeG (a : Nat) (b : Byte) (bytes : List Byte) : ∀ (s : State) (x : Nat),
    writeFBytes (writeG s a b) x bytes = writeG (writeFBytes s x bytes) a b := by
  induction bytes with
  | nil => intro s x; rfl
  | cons c rest ih => intro s x; exact ih (writeF s x c) (x + 1)

theorem writePrefix_writeG (s : State) (a : Nat) (b : Byte) :
    writePrefix (writeG s a b) = writeG (writePrefix s) a b := writeFBytes_writeG a b _ s 0

theorem deserializeEffect_writeG (s : State) (a : Nat) (b : Byte) :
    deserializeEffect (writeG s a b) = writeG (deserializeEffect s) a b := by
  unfold deserializeEffect
  rw [show prefixF (writeG s a b) = prefixF s from rfl, writeG_opN]
  split <;> rfl

theorem finishDecode_writeG (s : State) (a : Nat) (b : Byte) :
    finishDecode (writeG s a b) = writeG (finishDecode s) a b := rfl

/-- A command whose effect commutes with the write commutes with it, whichever way it ends. -/
theorem command_writeG {s : State} {a : Nat} {b : Byte} (checks : List (Bool × CmdError))
    {effect effect' : State → State} (h : effect' (writeG s a b) = writeG (effect s) a b) :
    command checks effect' (writeG s a b) = writeG (command checks effect s) a b := by
  unfold command
  cases firstFailing checks with
  | some e => rfl
  | none => simp only [h]; rfl

/-! ### Any command -/

theorem unaddressed_writePrefix {s : State} {a : Nat} (h : Unaddressed s a) : Unaddressed (writePrefix s) a := by
  rw [writePrefix_frame]
  exact h

theorem decodeBody_writeG {s : State} {a : Nat} (h : Unaddressed s a) (b : Byte) :
    decodeBody (writeG s a b) = writeG (decodeBody s) a b := by
  obtain ⟨hlen, hread⟩ := readLength_writeG h b
  have hchecks : ∀ l, decodeChecks l (writeG s a b) = decodeChecks l s := fun _ => rfl
  simp only [decodeBody, hlen, hread, hchecks]
  refine command_writeG (decodeChecks (readLength s).1 s) ?_
  rw [extractFrame_writeG (s := (readLength s).2) h, finishDecode_writeG]

/-- A command after the write of a sample the generator never makes does what it does without it, and the write
stays. -/
theorem exec_writeG {i : Instr} {s t : State} {a : Nat} (h : Unaddressed s a) (b : Byte) (ht : exec i s = .next t) :
    exec i (writeG s a b) = .next (writeG t a b) := by
  have key : ∀ checks effect effect', exec i s = .next (command checks effect s) →
      exec i (writeG s a b) = .next (command checks effect' (writeG s a b)) →
      effect' (writeG s a b) = writeG (effect s) a b → exec i (writeG s a b) = .next (writeG t a b) := by
    intro checks effect effect' hs hw heffect
    obtain rfl := Host.Outcome.next.inj (hs.symm.trans ht)
    rw [hw, command_writeG checks heffect]
  obtain ⟨hlen, hread⟩ := readLength_writeG h b
  cases i with
  | serialize => exact key (serializeChecks s) _ _ rfl rfl (congrArg (setFlen _) (writePrefix_writeG s a b))
  | deserialize => exact key (deserializeChecks s) _ _ rfl rfl (deserializeEffect_writeG s a b)
  | embed => exact key (embedChecks s) _ _ rfl rfl (embedFrame_writeG h b _)
  | extractLength =>
    refine key (lengthChecks s) _ _ rfl rfl ?_
    rw [extractLengthEffect, hlen, hread]
    rfl
  | extractBits => exact key (extractBitsChecks s) _ _ rfl rfl (congrArg (setFlen _) (extractFrame_writeG h b _))
  | encode =>
    refine key (encodeChecks s) _ _ rfl rfl ?_
    rw [writePrefix_writeG, embedFrame_writeG (unaddressed_writePrefix h)]
    rfl
  | decode =>
    obtain rfl := Host.Outcome.next.inj ht
    have hchecks : lengthChecks (writeG s a b) = lengthChecks s := rfl
    show execDecode (writeG s a b) = _
    rw [execDecode, hchecks]
    cases firstFailing (lengthChecks s) with
    | some e => rfl
    | none => exact congrArg Host.Outcome.next (decodeBody_writeG h b)

theorem readG_embedFrame_unaddressed {s : State} {a : Nat} (h : Unaddressed s a) (n : Nat) :
    readG (embedFrame n s) a = readG s a := readG_foldl_embedBit_never _ (startWalk s) a h

theorem readG_command {s : State} {a : Nat} (checks : List (Bool × CmdError)) {effect : State → State}
    (h : readG (effect s) a = readG s a) : readG (command checks effect s) a = readG s a := by
  rcases command_cases checks effect s with ⟨e, _, hend⟩ | ⟨_, hend⟩
  · rw [hend, readG_raiseError]
  · rw [hend, readG_complete, h]

/-- No command writes a sample the generator never makes: only EMBED and ENCODE write G, by the embedding loop. -/
theorem readG_exec_unaddressed {i : Instr} {s t : State} {a : Nat} (h : Unaddressed s a) (ht : exec i s = .next t) :
    readG t a = readG s a := by
  by_cases hembed : i = .embed
  · subst hembed
    obtain rfl := Host.Outcome.next.inj ht
    exact readG_command _ (readG_embedFrame_unaddressed h _)
  by_cases hencode : i = .encode
  · subst hencode
    obtain rfl := Host.Outcome.next.inj ht
    refine readG_command _ ?_
    rw [readG_setFlen, readG_embedFrame_unaddressed (unaddressed_writePrefix h), readG_writePrefix]
  · obtain ⟨_, _, hG, _⟩ := exec_keepsOthersResults ht
    have hepoch : t.epoch = s.epoch := by rw [exec_frame ht]
    rw [readG, hG hembed hencode, hepoch, readG]

/-- Settles O35: the generator makes no alpha address for C = 4, so a command leaves the alpha sample and commutes with
a write of it. -/
theorem alphaSamplesNeverTouched : Obligations.AlphaSamplesNeverTouched := by
  intro i s p b hC
  have h := unaddressed_alpha hC p
  obtain ⟨t, ht⟩ := exec_next i s
  refine ⟨t, _, ht, exec_writeG h b ht, readG_exec_unaddressed h ht, rfl, fun a ha => ?_⟩
  rw [readG_writeG, if_neg ha]

end Sys2Proof.Machine
end

section
/-! PROOFS. The host's accesses to F and G while idle (20_memory R46, R48, R57). -/

namespace Sys2Proof.Machine

theorem hostAccess_writeF_idle {s : State} (h : s.busy = false) (a : Nat) (b : Byte) :
    hostAccess (.writeF a b) s = writeF s a b := by
  rw [hostAccess, whenIdle_idle _ h]

theorem hostAccess_writeG_idle {s : State} (h : s.busy = false) (a : Nat) (b : Byte) :
    hostAccess (.writeG a b) s = writeG s a b := by
  rw [hostAccess, whenIdle_idle _ h]

theorem hostAccess_readF_idle {s : State} (h : s.busy = false) (a : Nat) :
    hostAccess (.readF a) s = answer ((readF s a).setWidth 32) s := readByte_idle _ h

theorem hostAccess_readG_idle {s : State} (h : s.busy = false) (a : Nat) :
    hostAccess (.readG a) s = answer ((readG s a).setWidth 32) s := readByte_idle _ h

/-- A byte answered in a word: bits 7 to 0, the rest 0 (R57; log 10). -/
theorem setWidth_byte_fields (b : Byte) :
    (b.setWidth 32).extractLsb' 0 8 = b ∧ (b.setWidth 32).extractLsb' 8 24 = 0#24 := by
  constructor
  · ext i hi
    simp [show i < 32 by omega, BitVec.getLsbD_eq_getElem hi]
  · ext i hi
    simp

/-- Settles O50: each transaction is the access of the block at its address, which while idle is the write of that byte
or the answer of it. -/
theorem idleMemoryAccesses : Obligations.IdleMemoryAccesses := by
  intro s op a b rest hwf hrst hbusy hi
  have hidle : ({ s with inputs := rest } : State).busy = false := hbusy
  have hstep : ∀ {acc : Access}, busAccess s.params op = .ok acc →
      step s = .next (hostAccess acc { s with inputs := rest }) := step_host_released hrst hi
  refine ⟨fun ha hop => ?_, fun ha hop => ?_, fun ha hop => ?_, fun ha hop => ?_⟩ <;> subst hop
  · rw [hstep (busAccess_busWRF ha b), hostAccess_writeF_idle hidle]
    refine ⟨_, rfl, rfl, ?_, fun x hx => ?_⟩
    · rw [readF_writeF, if_pos rfl]
    · rw [readF_writeF, if_neg hx]
      rfl
  · rw [hstep (busAccess_busWRG hwf ha b), hostAccess_writeG_idle hidle]
    refine ⟨_, rfl, rfl, ?_, fun x hx => ?_⟩
    · rw [readG_writeG, if_pos rfl]
    · rw [readG_writeG, if_neg hx]
      rfl
  · rw [hstep (busAccess_busRDF ha), hostAccess_readF_idle hidle]
    exact ⟨_, rfl, rfl, setWidth_byte_fields (readF s a)⟩
  · rw [hstep (busAccess_busRDG hwf ha), hostAccess_readG_idle hidle]
    exact ⟨_, rfl, rfl, setWidth_byte_fields (readG s a)⟩

end Sys2Proof.Machine
end

section
/-! PROOFS. The decoder of a command word against the encoder (30_encoding R64 to R67). -/

namespace Sys2Proof

/-! ### The fields of a word -/

theorem opField_toNat (w : Word) : (opField w).toNat = w.toNat % 16 := by
  simp [opField]

theorem rsvField_toNat (w : Word) : (rsvField w).toNat = w.toNat / 16 := by
  have h : w.toNat / 16 < 2 ^ 28 := by omega
  rw [rsvField, BitVec.extractLsb'_toNat, Nat.shiftRight_eq_div_pow, Nat.mod_eq_of_lt h]

theorem rsvField_eq_zero_iff (w : Word) : rsvField w = 0#28 ↔ w.toNat / 16 = 0 := by
  rw [← BitVec.toNat_inj, rsvField_toNat]
  rfl

/-- A word is its two fields (R64). -/
theorem eq_of_fields {w v : Word} (hrsv : rsvField w = rsvField v) (hop : opField w = opField v) : w = v := by
  rw [← BitVec.toNat_inj, rsvField_toNat, rsvField_toNat] at hrsv
  rw [← BitVec.toNat_inj, opField_toNat, opField_toNat] at hop
  rw [← BitVec.toNat_inj]
  omega

/-- The RSV of every command word is 0 (R65). -/
theorem rsvField_encode (i : Instr) : rsvField (encode i) = 0#28 := by
  cases i <;> rfl

/-! ### The opcode map -/

/-- Each command has one OP, its word's (R65). -/
theorem commandOf_eq_some_iff (i : Instr) (op : BitVec 4) : commandOf op = some i ↔ op = opField (encode i) := by
  cases i <;> revert op <;> decide

/-- The OPs of no command (R67). -/
theorem commandOf_eq_none_iff : ∀ op : BitVec 4, commandOf op = none ↔ op.toNat = 0 ∨ 8 ≤ op.toNat := by
  decide

/-! ### The decoder -/

theorem decode_of_reservedBits {w : Word} (h : rsvField w ≠ 0#28) : decode w = .error .reservedBits := if_pos h

theorem decode_of_reservedOp {w : Word} (hrsv : rsvField w = 0#28) (hop : commandOf (opField w) = none) :
    decode w = .error .reservedOp := by
  rw [decode, if_neg (not_not_intro hrsv), hop]

theorem decode_of_command {w : Word} {i : Instr} (hrsv : rsvField w = 0#28) (hop : commandOf (opField w) = some i) :
    decode w = .ok i := by
  rw [decode, if_neg (not_not_intro hrsv), hop]

theorem decode_encode (i : Instr) : decode (encode i) = .ok i :=
  decode_of_command (rsvField_encode i) ((commandOf_eq_some_iff i _).2 rfl)

/-- Everything the decoder answers (R67): an error for a reserved bit, an error for a reserved OP, or a command for
that command's own word. -/
theorem decode_cases (w : Word) :
    (rsvField w ≠ 0#28 ∧ decode w = .error .reservedBits) ∨
    (rsvField w = 0#28 ∧ commandOf (opField w) = none ∧ decode w = .error .reservedOp) ∨
    (∃ i, w = encode i ∧ decode w = .ok i) := by
  by_cases hrsv : rsvField w = 0#28
  · cases hop : commandOf (opField w) with
    | none => exact .inr (.inl ⟨hrsv, rfl, decode_of_reservedOp hrsv hop⟩)
    | some i =>
      have hw : w = encode i :=
        eq_of_fields (hrsv.trans (rsvField_encode i).symm) ((commandOf_eq_some_iff i _).1 hop)
      exact .inr (.inr ⟨i, hw, decode_of_command hrsv hop⟩)
  · exact .inl ⟨hrsv, decode_of_reservedBits hrsv⟩

theorem decode_eq_ok_iff (i : Instr) (w : Word) : decode w = .ok i ↔ w = encode i := by
  refine ⟨fun h => ?_, fun h => h ▸ decode_encode i⟩
  rcases decode_cases w with ⟨_, he⟩ | ⟨_, _, he⟩ | ⟨j, hw, hj⟩
  · cases he.symm.trans h
  · cases he.symm.trans h
  · obtain rfl := Except.ok.inj (hj.symm.trans h)
    exact hw

/-- The illegal words of R66 and R67, on the word's fields. -/
theorem decode_eq_error_iff (w : Word) :
    (∃ e, decode w = .error e) ↔ rsvField w ≠ 0#28 ∨ commandOf (opField w) = none := by
  rcases decode_cases w with ⟨hrsv, he⟩ | ⟨_, hop, he⟩ | ⟨i, rfl, hi⟩
  · exact iff_of_true ⟨_, he⟩ (.inl hrsv)
  · exact iff_of_true ⟨_, he⟩ (.inr hop)
  · refine iff_of_false (fun ⟨_, he⟩ => nomatch hi.symm.trans he) ?_
    rw [rsvField_encode, (commandOf_eq_some_iff i _).2 rfl]
    exact fun h => h.elim (· rfl) nofun

/-- The illegal words of R66 and R67, on the word's value. -/
theorem decode_eq_error_iff_toNat (w : Word) :
    (∃ e, decode w = .error e) ↔ w.toNat / 16 ≠ 0 ∨ w.toNat % 16 = 0 ∨ 8 ≤ w.toNat % 16 := by
  rw [decode_eq_error_iff, ne_eq, rsvField_eq_zero_iff, commandOf_eq_none_iff, opField_toNat]

/-- Settles O2: a word is its two fields, RSV of a command word is 0, and each command has one OP. -/
theorem decodeAndEncodeAgree : Obligations.DecodeAndEncodeAgree :=
  ⟨decode_eq_ok_iff, decode_eq_error_iff_toNat⟩

/-- Settles O1: the seven words are the commands' own, and the other three have a reserved OP or a reserved bit. -/
theorem commandWordsDecode : Obligations.CommandWordsDecode :=
  ⟨decode_encode .serialize, decode_encode .deserialize, decode_encode .embed, decode_encode .extractLength,
    decode_encode .extractBits, decode_encode .decode, decode_encode .encode,
    decode_of_reservedOp rfl rfl, decode_of_reservedOp rfl rfl, decode_of_reservedBits (by decide)⟩

end Sys2Proof
end

section
/-! PROOFS. From an accepted command word to its completion: an illegal word (30_encoding R66, R67), a busy block whose
host goes on making transactions (70_reset R132, R151), and RUN (30_encoding R72). -/

namespace Sys2Proof.Machine

/-! ### The accept -/

theorem writeReg_cmd_idle (w : Word) {s : State} (h : s.busy = false) : writeReg .cmd w s = accept w s :=
  whenIdle_idle (accept w) h

/-- A host write of CMD while idle accepts its word (R64, R119). -/
theorem step_accept {s : State} {w : Word} {rest : List Event} (hr : s.rst = false) (hb : s.busy = false)
    (hi : s.inputs = .host (busWR s.params .cmd w) :: rest) : step s = .next (accept w { s with inputs := rest }) := by
  rw [step_busWR hr hi, writeReg_cmd_idle w (s := { s with inputs := rest }) hb]

theorem hostMove_busCMD {s : State} (hr : s.rst = false) (hb : s.busy = false) (i : Instr) :
    hostMove (busCMD s.params i) s = some (accept (encode i) s) := by
  rw [busCMD, hostMove_busWR hr, writeReg_cmd_idle _ hb]

/-! ### An illegal word -/

theorem step_engine_illegal {s : State} {e : IllegalWord} {rest : List Event} (hr : s.rst = false)
    (hb : s.busy = true) (he : decode s.engOp = .error e) (hi : s.inputs = .engine :: rest) :
    step s = .next (raiseError .illegalCmd { s with inputs := rest }) :=
  (step_engine hr hb hi).trans (runCommandWord_of_error he _)

/-- An illegal word, accepted and completed, leaves every register but STATUS (R66, R119). -/
theorem regWord_illegal (w : Word) (s : State) (es es' : List Event) {r : Reg} (h : r ≠ .status) :
    regWord (raiseError .illegalCmd { accept w { s with inputs := es } with inputs := es' }) r = regWord s r := by
  cases r with
  | status => exact absurd rfl h
  | _ => rfl

/-- Settles O3: the word is accepted as any other, and the engine's step ends it with ILLEGAL_CMD. -/
theorem illegalWordCompletes : Obligations.IllegalWordCompletes := by
  intro s w hr hb hw hi
  obtain ⟨e, he⟩ := (decode_eq_error_iff_toNat w).2 hw
  have hengine := step_engine_illegal (s := accept w { s with inputs := [.engine] }) (rest := []) hr rfl he rfl
  exact ⟨_, _, step_accept hr hb hi, rfl, hengine, rfl, rfl, rfl, rfl, rfl, rfl, rfl, rfl,
    fun _ h => regWord_illegal w s _ _ h⟩

/-! ### A busy block -/

/-- With no event pending a busy block's step completes its command (R39, R151). -/
theorem step_completes {s : State} (hr : s.rst = false) (hb : s.busy = true) (hi : s.inputs = []) :
    ∃ t, step s = .next t ∧ t.busy = false ∧ t.done = true ∧ t.inputs = [] := by
  obtain ⟨t, ht⟩ := runCommandWord_next s.engOp s
  obtain ⟨_, hbt, _⟩ := runCommandWord_ends ht
  obtain ⟨_, _, hdt⟩ := runCommandWord_keeps ht
  have hit : t.inputs = s.inputs := by rw [eq_endUnread_of_run ht]; rfl
  exact ⟨t, (step_engine_nil hr hb hi).trans ht, hbt, hdt, hit.trans hi⟩

/-- A transaction of the host on a busy block leaves it busy, its other inputs pending (R143, R144). -/
theorem step_host_keeps_busy {s : State} {op : BusOp} {rest : List Event} (hr : s.rst = false) (hb : s.busy = true)
    (hi : s.inputs = .host op :: rest) (hop : op.wellFormed s.params = true) :
    ∃ t, step s = .next t ∧ t.rst = false ∧ t.busy = true ∧ t.inputs = rest ∧ t.params = s.params := by
  obtain ⟨a, ha⟩ := busAccess_of_wellFormed hop
  obtain ⟨hp, hin, hrst, _⟩ := hostAccess_keeps a { s with inputs := rest }
  refine ⟨_, step_host_released hr hi ha, hrst.trans hr, ?_, hin, hp⟩
  rw [hostAccess_busy a (s := { s with inputs := rest }) hb]
  exact hb

/-- Whatever transactions the host makes, the step after them completes the command (R132, R151). -/
theorem reachesIn_completion (ops : List BusOp) : ∀ s : State, s.rst = false → s.busy = true →
    s.inputs = ops.map .host → (∀ op ∈ ops, op.wellFormed s.params = true) →
    ∃ t, reachesIn (ops.length + 1) s t ∧ t.busy = false ∧ t.done = true ∧ t.inputs = [] := by
  induction ops with
  | nil =>
    intro s hr hb hi _
    obtain ⟨t, hst, hend⟩ := step_completes hr hb hi
    exact ⟨t, ⟨t, hst, rfl⟩, hend⟩
  | cons op ops ih =>
    intro s hr hb hi hops
    obtain ⟨m, hsm, hrm, hbm, him, hpm⟩ := step_host_keeps_busy hr hb hi (hops op List.mem_cons_self)
    obtain ⟨t, hmt, hend⟩ := ih m hrm hbm him fun o ho => hpm ▸ hops o (List.mem_cons_of_mem op ho)
    exact ⟨t, ⟨m, hsm, hmt⟩, hend⟩

/-! ### RUN -/

/-- What the host read before does not reach a running command, which keeps it (log 10). -/
theorem runCommandWord_answer {w : Word} {s t : State} (h : runCommandWord w s = .next t) (v : Word) :
    runCommandWord w (answer v s) = .next (answer v t) := by
  have hrun : runCommandWord w (answer v s) = .next (endUnread (answer v s) t) :=
    runCommandWord_withUnread (answer v s) h
  rw [hrun, eq_endUnread_of_run h]
  rfl

/-- POLL on a busy block while no other agent moves is left by none of its reads (R72). -/
theorem hostPoll_replicate_zero (k : Nat) {s : State} (hr : s.rst = false) (hd : s.done = false) :
    hostPoll (List.replicate k 0) s = none := by
  obtain ⟨v, hv⟩ := hostPoll_waits k [] hr hd
  rw [← List.append_nil (List.replicate k 0), hv]
  rfl

/-- POLL on a busy block ends with the first read after the engine's step, whatever was read before (R72, R147). -/
theorem hostPoll_ends {s t : State} (hr : s.rst = false) (hb : s.busy = true) (hd : s.done = false)
    (hi : s.inputs = []) (h : runCommandWord s.engOp s = .next t) (k n : Nat) (gaps : List Nat) :
    hostPoll (List.replicate k 0 ++ (n + 1) :: gaps) s = some (answer (statusWord t) t) := by
  obtain ⟨v, hv⟩ := hostPoll_waits k ((n + 1) :: gaps) hr hd
  rw [hv, hostPoll_completes (s := answer v s) hr hb hi (runCommandWord_answer h v)]
  rfl

theorem hostRun_eq_hostPoll {s : State} (hr : s.rst = false) (hb : s.busy = false) (i : Instr) (gaps : List Nat) :
    hostRun i gaps s = hostPoll gaps (accept (encode i) s) := by
  rw [hostRun, hostMove_busCMD hr hb, Option.bind_some]

/-- Settles O43: by induction on the host's transactions; and RUN is POLL on the block that accepted the command. -/
theorem hostCannotStopCompletion : Obligations.HostCannotStopCompletion := by
  refine ⟨reachesIn_completion, fun i s k n gaps hr hb hi => ?_⟩
  obtain ⟨t, ht⟩ := exec_next i (accept (encode i) s)
  have hrun : runCommandWord (encode i) (accept (encode i) s) = .next t :=
    (runCommandWord_of_ok (decode_encode i) _).trans ht
  obtain ⟨_, _, hdt⟩ := runCommandWord_keeps hrun
  rw [hostRun_eq_hostPoll hr hb, hostRun_eq_hostPoll hr hb]
  exact ⟨hostPoll_replicate_zero k (s := accept (encode i) s) hr rfl, t, ht,
    hostPoll_ends (s := accept (encode i) s) hr rfl rfl hi hrun k n gaps, (statusWord_done t).trans hdt⟩

end Sys2Proof.Machine
end

section
/-! PROOFS. SERIALIZE and DESERIALIZE (40_framer R75, R76): what each leaves on success, its errors, the laws of the
framer (R77, R78), and which command can end with which error (60_exceptions R118). -/

namespace Sys2Proof.Machine

/-! ### Error codes -/

/-- The code of the first failing check is that of a check that does not hold (R12, R120). -/
theorem code_mem_of_firstFailing {checks : List (Bool × CmdError)} {e : CmdError} {codes : List Nat}
    (he : firstFailing checks = some e) (h : ∀ c ∈ checks, c.1 = false → c.2.code.toNat ∈ codes) :
    e.code.toNat ∈ codes := by
  induction checks with
  | nil => cases he
  | cons c rest ih =>
    obtain ⟨hc, hrest⟩ := List.forall_mem_cons.1 h
    obtain ⟨ok, e'⟩ := c
    cases ok with
    | true => exact ih he hrest
    | false => cases he; exact hc rfl

/-- A command ends with code 0 or with the code of one of its checks that does not hold (R118, R121). -/
theorem command_code_mem {checks : List (Bool × CmdError)} {effect : State → State} {s t : State} {codes : List Nat}
    (ht : Host.Outcome.next (φ := Fault) (ρ := Refusal) (command checks effect s) = .next t) (h0 : 0 ∈ codes)
    (h : ∀ c ∈ checks, c.1 = false → c.2.code.toNat ∈ codes) : t.errcode.toNat ∈ codes := by
  obtain rfl := Host.Outcome.next.inj ht
  rcases command_cases checks effect s with ⟨e, he, herr⟩ | ⟨_, hok⟩
  · rw [herr]; exact code_mem_of_firstFailing he h
  · rw [hok]; exact h0

theorem word_le (v : Word) : v.toNat ≤ 4294967295 := Nat.le_sub_one_of_lt v.isLt

/-- Settles O39: each command's checks name its codes; the one of OUT_OF_RANGE always holds, L having 32 bits. -/
theorem errorCodesByCommand : Obligations.ErrorCodesByCommand := by
  intro i s t ht
  cases i with
  | serialize =>
    exact command_code_mem ht List.mem_cons_self (by simp [serializeChecks, CmdError.code, word_le s.opL])
  | deserialize => exact command_code_mem ht List.mem_cons_self (by simp [deserializeChecks, CmdError.code])
  | embed => exact command_code_mem ht List.mem_cons_self (by simp [embedChecks, CmdError.code])
  | extractLength => exact command_code_mem ht List.mem_cons_self (by simp [lengthChecks, CmdError.code])
  | extractBits => exact command_code_mem ht List.mem_cons_self (by simp [extractBitsChecks, CmdError.code])
  | encode => exact command_code_mem ht List.mem_cons_self (by simp [encodeChecks, CmdError.code, word_le s.opL])
  | decode =>
    rcases execDecode_cases s with ⟨e, he, h⟩ | ⟨_, e, he, h⟩ | ⟨_, _, h⟩ <;>
      obtain rfl := Host.Outcome.next.inj (h.symm.trans ht)
    · exact code_mem_of_firstFailing he (by simp [lengthChecks, CmdError.code])
    · exact code_mem_of_firstFailing he (by simp [decodeChecks, CmdError.code])
    · exact List.mem_cons_self

/-! ### The answer of a framer command whose check fails -/

theorem exec_serialize_of_overflow {s : State} (h : s.params.frameBytes < 4 + s.opL.toNat) :
    exec .serialize s = .next (raiseError .frameOverflow s) := by
  have hfirst : firstFailing (serializeChecks s) = some .frameOverflow := by
    simp [firstFailing, serializeChecks, word_le s.opL, Nat.not_le.2 h]
  exact congrArg _ (command_of_some hfirst _ s)

theorem exec_deserialize_of_short {s : State} (h : s.opN.toNat < 4) :
    exec .deserialize s = .next (raiseError .shortFrame s) := by
  have hfirst : firstFailing (deserializeChecks s) = some .shortFrame := by
    simp [firstFailing, deserializeChecks, Nat.not_le.2 h]
  exact congrArg _ (command_of_some hfirst _ s)

theorem exec_deserialize_of_overflow {s : State} (h4 : 4 ≤ s.opN.toNat) (h : s.params.frameBytes < s.opN.toNat) :
    exec .deserialize s = .next (raiseError .frameOverflow s) := by
  have hfirst : firstFailing (deserializeChecks s) = some .frameOverflow := by
    simp [firstFailing, deserializeChecks, h4, Nat.not_le.2 h]
  exact congrArg _ (command_of_some hfirst _ s)

/-- Settles O14: an error is raised in the state at the start, as ending with its code (R122). -/
theorem framerCommandErrors : Obligations.FramerCommandErrors :=
  fun _ => ⟨exec_serialize_of_overflow, exec_deserialize_of_short, exec_deserialize_of_overflow⟩

/-! ### SERIALIZE that passes its checks -/

/-- The state a SERIALIZE that passes its checks leaves (R75). -/
def serialized (s : State) : State := complete (setFlen (BitVec.ofNat 32 (4 + s.opL.toNat)) (writePrefix s))

theorem exec_serialize_of_fit {s : State} (h : 4 + s.opL.toNat ≤ s.params.frameBytes) :
    exec .serialize s = .next (serialized s) := exec_serialize_of_checks h

theorem exec_serialize_of_success {s t : State} (h : exec .serialize s = .next t) (hcode : t.errcode = 0#4) :
    4 + s.opL.toNat ≤ s.params.frameBytes ∧ t = serialized s := by
  obtain rfl := Host.Outcome.next.inj h
  obtain ⟨hchecks, heffect⟩ := command_of_success hcode
  exact ⟨(serializeChecks_none s).1 hchecks, heffect⟩

/-- A success of SERIALIZE writes F and FLEN and nothing else but STATUS. -/
theorem serialized_frame (s : State) :
    serialized s = { endedWith 0#4 s with fmem := (serialized s).fmem, flen := (serialized s).flen } := by
  unfold serialized
  rw [writePrefix_frame]
  rfl

theorem serialized_plen (s : State) : (serialized s).plen = s.plen := by
  rw [serialized_frame]
  rfl

theorem lt_of_le_frameBytes {p : Params} (h : p.wf = true) {n : Nat} (hn : n ≤ p.frameBytes) : n < 2 ^ 32 := by
  have := (Params.wf_frameBytes h).2
  omega

/-- FLEN after SERIALIZE; a frame that fits a well-formed F does not wrap (R7). -/
theorem serialized_flen {s : State} (hwf : s.params.wf = true) (hfit : 4 + s.opL.toNat ≤ s.params.frameBytes) :
    (serialized s).flen.toNat = 4 + s.opL.toNat := Nat.mod_eq_of_lt (lt_of_le_frameBytes hwf hfit)

theorem readF_serialized (s : State) (a : Nat) : readF (serialized s) a = readF (writePrefix s) a := rfl

theorem readF_writePrefix_payload (s : State) {a : Nat} (h : 4 ≤ a) : readF (writePrefix s) a = readF s a := by
  rw [readF_writePrefix, dif_neg (Nat.not_lt.2 h)]

/-- Settles O12: F and FLEN are written, and the four bytes at the front are BE32(L). -/
theorem serializeCompletes : Obligations.SerializeCompletes := by
  intro s hwf hfit
  refine ⟨_, exec_serialize_of_fit hfit, serialized_frame s, serialized_flen hwf hfit, ?_, ?_, ?_, ?_,
    fun a => readF_writePrefix_payload s⟩ <;>
    simp [readF_serialized, readF_writePrefix, be32]

theorem serialize_length {p fb : List Byte} (h : serialize p = .ok fb) : fb.length = p.length + 4 := by
  unfold serialize at h
  split at h
  · cases h
  · cases h
    rw [List.length_append, be32_length, Nat.add_comm]

/-- Settles O9: four bytes are put in front of the payload, and PLEN stays as latched. -/
theorem framerLengthInvariant : Obligations.FramerLengthInvariant := by
  refine ⟨fun p hp => ⟨_, serialize_of_lt hp, serialize_length (serialize_of_lt hp)⟩, fun s t hwf ht hcode => ?_⟩
  obtain ⟨hfit, rfl⟩ := exec_serialize_of_success ht hcode
  set r := accept (encode .serialize) s
  calc (serialized r).flen.toNat = 4 + s.plen.toNat := serialized_flen hwf hfit
    _ = (serialized r).plen.toNat + 4 := by rw [serialized_plen, Nat.add_comm]; rfl

/-! ### DESERIALIZE that passes its checks -/

theorem deserializeEffect_plen (s : State) :
    (deserializeEffect s).plen.toNat = min (prefixF s) (s.opN.toNat - 4) := by
  have hprefix := prefixF_lt s
  have hN := s.opN.isLt
  unfold deserializeEffect
  split <;> rw [setTrunc_plen, setPlen_plen, BitVec.toNat_ofNat] <;> omega

theorem deserializeEffect_trunc (s : State) :
    (deserializeEffect s).trunc = decide (s.opN.toNat - 4 < prefixF s) := by
  unfold deserializeEffect
  split
  · next h => simp [h]
  · next h => simp [Nat.not_le.1 h]

@[simp] theorem readF_deserializeEffect (s : State) (a : Nat) : readF (deserializeEffect s) a = readF s a := by
  rw [deserializeEffect_frame]
  rfl

/-- Settles O13: PLEN and TRUNC compare the prefix with N - 4. -/
theorem deserializeCompletes : Obligations.DeserializeCompletes := by
  rintro s _ h4 hfit rfl
  refine ⟨_, exec_deserialize_of_checks h4 hfit, ?_, ?_, ?_⟩
  · rw [deserializeEffect_frame]
    rfl
  · rw [complete_plen, deserializeEffect_plen, prefixF_eq]
  · rw [complete_trunc, deserializeEffect_trunc, decide_eq_true_iff, prefixF_eq]

/-- A frame of four bytes or more is its prefix and what follows (R53). -/
theorem frame_four_add (s : State) (n : Nat) :
    frame s (4 + n) = frame s 4 ++ (List.range n).map (fun k => readF s (4 + k)) := by
  simp only [frame, List.range_add, List.map_append, List.map_map, Function.comp_def]

/-- deserialize on a frame in F: as many bytes after the prefix as it claims and the frame holds (R74). -/
theorem deserialize_frame (s : State) (n : Nat) :
    deserialize (frame s (4 + n)) = (List.range (min (prefixF s) n)).map (fun k => readF s (4 + k)) := by
  have hlen : (frame s 4).length = 4 := frame_length s 4
  rw [deserialize_eq_take_drop, frame_four_add, List.take_left' hlen, List.drop_left' hlen, ← List.map_take,
    List.take_range]
  rfl

/-- Settles O15: PLEN is the count of bytes deserialize returns, and F is as it was. -/
theorem deserializePayloadInPlace : Obligations.DeserializePayloadInPlace := by
  intro s h4 hfit
  refine ⟨_, exec_deserialize_of_checks h4 hfit, ?_⟩
  have hframe := deserialize_frame s (s.opN.toNat - 4)
  rw [Nat.add_sub_cancel' h4] at hframe
  rw [hframe, complete_plen, deserializeEffect_plen]
  simp

/-- deserialize of what serialize puts together (R78). -/
theorem deserialize_be32_append {p : List Byte} (hp : p.length < 2 ^ 32) :
    deserialize (be32 (BitVec.ofNat 32 p.length) ++ p) = p := by
  rw [deserialize_eq_take_drop, take_four_be32_append, drop_four_be32_append, fromBE_be32, BitVec.toNat_ofNat,
    Nat.mod_eq_of_lt hp, List.take_length]

theorem prefixF_serialized (s : State) : prefixF (serialized s) = s.opL.toNat := prefixF_writePrefix s

/-- Settles O10: the prefix DESERIALIZE finds is the L that SERIALIZE wrote, which is N - 4. -/
theorem framerInverseLaw : Obligations.FramerInverseLaw := by
  refine ⟨fun p hp => ⟨_, serialize_of_lt hp, deserialize_be32_append hp⟩, fun s t hwf ht hcode => ?_⟩
  obtain ⟨hfit, rfl⟩ := exec_serialize_of_success ht hcode
  change 4 + s.plen.toNat ≤ s.params.frameBytes at hfit
  set r := accept (encode .serialize) s
  set d := accept (encode .deserialize) (serialized r) with hd
  have hN : d.opN.toNat = 4 + s.plen.toNat := serialized_flen (s := r) hwf hfit
  have hprefix : prefixF d = s.plen.toNat := prefixF_serialized r
  have hparams : d.params = s.params := by rw [hd, serialized_frame]; rfl
  have hsize : d.opN.toNat - 4 = s.plen.toNat := by omega
  refine ⟨_, exec_deserialize_of_checks (s := d) (by omega) (by rw [hN, hparams]; exact hfit), rfl, ?_, ?_,
    fun k _ => ?_⟩
  · apply BitVec.eq_of_toNat_eq
    rw [complete_plen, deserializeEffect_plen, hprefix, hsize, Nat.min_self]
  · rw [complete_trunc, deserializeEffect_trunc, hprefix, hsize, decide_eq_false (Nat.lt_irrefl _)]
  · calc readF (complete (deserializeEffect d)) (4 + k) = readF d (4 + k) := by simp
      _ = readF s (4 + k) := readF_writePrefix_payload r (Nat.le_add_right 4 k)

end Sys2Proof.Machine
end

section
/-! PROOFS. ENCODE against SERIALIZE followed by EMBED (40_framer R75; 42_lsb_codec R104, R112, R113), and the frame
SERIALIZE, DECODE and ENCODE leave in F (40_framer R79). -/

namespace Sys2Proof.Machine

/-! ### The answers of ENCODE, DECODE and EMBED -/

/-- The state an ENCODE that passes its checks leaves (R112). -/
def encoded (s : State) : State :=
  complete (setFlen (BitVec.ofNat 32 (4 + s.opL.toNat)) (embedFrame (4 + s.opL.toNat) (writePrefix s)))

theorem exec_encode_of_fit {s : State} (hgeom : geomOk s = true) (hcap : 8 * (4 + s.opL.toNat) < cap s)
    (hfit : 4 + s.opL.toNat ≤ s.params.frameBytes) : exec .encode s = .next (encoded s) :=
  exec_encode_of_checks hgeom hcap hfit

theorem exec_encode_of_success {s t : State} (h : exec .encode s = .next t) (hcode : t.errcode = 0#4) :
    geomOk s = true ∧ 8 * (4 + s.opL.toNat) < cap s ∧ 4 + s.opL.toNat ≤ s.params.frameBytes ∧ t = encoded s := by
  obtain rfl := Host.Outcome.next.inj h
  obtain ⟨hchecks, heffect⟩ := command_of_success hcode
  obtain ⟨hgeom, hcap, hfit⟩ := (encodeChecks_none s).1 hchecks
  exact ⟨hgeom, hcap, hfit, heffect⟩

/-- The state a DECODE that passes its checks leaves (R110). -/
def decoded (s : State) : State := complete (finishDecode (extractFrame (4 + prefixG s) (readLength s).2))

theorem exec_decode_of_fit {s : State} (hgeom : geomOk s = true) (hcap : 32 + 8 * prefixG s ≤ cap s)
    (hfit : 4 + prefixG s ≤ s.params.frameBytes) : exec .decode s = .next (decoded s) :=
  exec_decode_of_checks hgeom hcap hfit

theorem exec_decode_of_success {s t : State} (h : exec .decode s = .next t) (hcode : t.errcode = 0#4) :
    geomOk s = true ∧ 32 + 8 * prefixG s ≤ cap s ∧ 4 + prefixG s ≤ s.params.frameBytes ∧ t = decoded s := by
  rcases execDecode_cases s with ⟨e, _, he⟩ | ⟨_, e, _, he⟩ | ⟨hlength, hdecode, hok⟩
  · obtain rfl := Host.Outcome.next.inj (he.symm.trans h)
    exact absurd hcode e.code_ne_zero
  · obtain rfl := Host.Outcome.next.inj (he.symm.trans h)
    exact absurd hcode e.code_ne_zero
  · rw [readLength_prefixG] at hdecode hok
    obtain ⟨hcap, hfit⟩ := (decodeChecks_none _ s).1 hdecode
    exact ⟨((lengthChecks_none s).1 hlength).1, hcap, hfit, Host.Outcome.next.inj (h.symm.trans hok)⟩

theorem exec_embed_of_capacity {s : State} (hgeom : geomOk s = true) (h : cap s ≤ 8 * s.opN.toNat) :
    exec .embed s = .next (raiseError .capacityExceeded s) := by
  have hfirst : firstFailing (embedChecks s) = some .capacityExceeded := by
    simp [firstFailing, embedChecks, hgeom, Nat.not_lt.2 h]
  exact congrArg _ (command_of_some hfirst _ s)

theorem exec_encode_of_capacity {s : State} (hgeom : geomOk s = true) (h : cap s ≤ 8 * (4 + s.opL.toNat)) :
    exec .encode s = .next (raiseError .capacityExceeded s) := by
  have hfirst : firstFailing (encodeChecks s) = some .capacityExceeded := by
    simp [firstFailing, encodeChecks, hgeom, word_le s.opL, Nat.not_lt.2 h]
  exact congrArg _ (command_of_some hfirst _ s)

theorem exec_encode_of_overflow {s : State} (hgeom : geomOk s = true) (hcap : 8 * (4 + s.opL.toNat) < cap s)
    (h : s.params.frameBytes < 4 + s.opL.toNat) : exec .encode s = .next (raiseError .frameOverflow s) := by
  have hfirst : firstFailing (encodeChecks s) = some .frameOverflow := by
    simp [firstFailing, encodeChecks, hgeom, word_le s.opL, hcap, Nat.not_le.2 h]
  exact congrArg _ (command_of_some hfirst _ s)

/-! ### The prefix in F -/

theorem prefixF_encoded (s : State) : prefixF (encoded s) = s.opL.toNat :=
  (prefixF_congr fun a _ => readF_embedFrame _ _ a).trans (prefixF_writePrefix s)

theorem prefixF_decoded {s : State} (hcap : 32 + 8 * prefixG s ≤ cap s) : prefixF (decoded s) = prefixG s := by
  rw [← prefixF_decodeFrame hcap]
  exact prefixF_congr fun a _ => by rw [decoded, readF_complete, readF_finishDecode]

theorem decoded_plen {s : State} (hcap : 32 + 8 * prefixG s ≤ cap s) :
    (decoded s).plen = BitVec.ofNat 32 (prefixG s) := by
  rw [decoded, complete_plen, finishDecode_plen, prefixF_decodeFrame hcap]

theorem decoded_flen {s : State} (hcap : 32 + 8 * prefixG s ≤ cap s) :
    (decoded s).flen = BitVec.ofNat 32 (4 + prefixG s) := by
  rw [decoded, complete_flen, finishDecode_flen, prefixF_decodeFrame hcap]

/-- Settles O34: each of the three leaves the length it framed as the prefix, and that length plus 4 in FLEN, where
it does not wrap. -/
theorem prefixInvariant : Obligations.PrefixInvariant := by
  intro i s t hwf hi ht hcode
  change prefixF t + 4 = t.flen.toNat
  rcases hi with rfl | rfl | rfl
  · obtain ⟨hfit, rfl⟩ := exec_serialize_of_success ht hcode
    rw [prefixF_serialized, serialized_flen hwf hfit, Nat.add_comm]
  · obtain ⟨_, hcap, hfit, rfl⟩ := exec_decode_of_success ht hcode
    rw [prefixF_decoded hcap, decoded_flen hcap, BitVec.toNat_ofNat, Nat.mod_eq_of_lt (lt_of_le_frameBytes hwf hfit),
      Nat.add_comm]
  · obtain ⟨_, _, hfit, rfl⟩ := exec_encode_of_success ht hcode
    rw [prefixF_encoded, Nat.add_comm]
    exact (Nat.mod_eq_of_lt (lt_of_le_frameBytes hwf hfit)).symm

/-! ### EMBED's loop on states that agree on what it reads -/

theorem foldl_embedBit_gmem_congr (bits : List Bool) : ∀ {s t : State}, t.gmem = s.gmem → t.epoch = s.epoch →
    t.opC = s.opC → t.bitIdx = s.bitIdx → (bits.foldl embedBit t).gmem = (bits.foldl embedBit s).gmem := by
  induction bits with
  | nil => intro s t hg _ _ _; exact hg
  | cons b rest ih =>
    intro s t hg he hC hi
    refine ih ?_ he hC (congrArg (· + 1#36) hi)
    simp only [embedBit, nextBit_gmem, writeG_gmem, curAddr, readG, hg, he, hC, hi]

/-- What EMBED's loop leaves in G depends on F, G, the free values of unwritten bytes and C only (R104). -/
theorem embedFrame_gmem_congr {s t : State} (n : Nat) (hf : t.fmem = s.fmem) (hg : t.gmem = s.gmem)
    (he : t.epoch = s.epoch) (hC : t.opC = s.opC) : (embedFrame n t).gmem = (embedFrame n s).gmem := by
  have hframe : frame t n = frame s n := List.map_congr_left fun a _ => by simp only [readF, hf, he]
  unfold embedFrame
  rw [hframe]
  exact foldl_embedBit_gmem_congr _ hg he hC rfl

/-! ### The geometry of the running command depends on the latches and the platform only -/

theorem geomOk_congr {s t : State} (hp : t.params = s.params) (hH : t.opH = s.opH) (hW : t.opW = s.opW)
    (hC : t.opC = s.opC) : geomOk t = geomOk s := by
  unfold geomOk
  rw [hp, hH, hW, hC]

theorem cap_congr {s t : State} (hH : t.opH = s.opH) (hW : t.opW = s.opW) : cap t = cap s := by
  unfold cap
  rw [hH, hW]

/-! ### A command accepted after SERIALIZE latches the geometry of the start and the frame's length -/

theorem geomOk_accept_serialized (w w' : Word) (s : State) :
    geomOk (accept w' (serialized (accept w s))) = geomOk (latchOperands s) := by
  rw [serialized_frame]
  rfl

theorem cap_accept_serialized (w w' : Word) (s : State) :
    cap (accept w' (serialized (accept w s))) = cap (latchOperands s) := by
  rw [serialized_frame]
  rfl

theorem opN_accept_serialized (w w' : Word) {s : State} (hwf : s.params.wf = true)
    (hfit : 4 + s.plen.toNat ≤ s.params.frameBytes) :
    (accept w' (serialized (accept w s))).opN.toNat = 4 + s.plen.toNat := serialized_flen (s := accept w s) hwf hfit

/-- EMBED after SERIALIZE embeds F and G as ENCODE does, and leaves FLEN (R113). -/
theorem encoded_eq_serialized_embedded (w w₁ w₂ : Word) (s : State) :
    (encoded (accept w s)).fmem = (embedFrame (4 + s.plen.toNat) (accept w₂ (serialized (accept w₁ s)))).fmem ∧
    (encoded (accept w s)).gmem = (embedFrame (4 + s.plen.toNat) (accept w₂ (serialized (accept w₁ s)))).gmem ∧
    (encoded (accept w s)).flen = (embedFrame (4 + s.plen.toNat) (accept w₂ (serialized (accept w₁ s)))).flen := by
  refine ⟨?_, embedFrame_gmem_congr _ rfl rfl rfl rfl, ?_⟩
  · rw [encoded, embedFrame_frame, embedFrame_frame (s := accept w₂ _)]
    rfl
  · rw [embedFrame_frame]
    rfl

/-- Settles O29: the two ways embed the same frame into the same grid; when the bits do not fit, both EMBED and ENCODE
say so, but SERIALIZE has framed the payload first; when only F is too small, SERIALIZE and ENCODE say so. -/
theorem encodeAgainstSerializeThenEmbed : Obligations.EncodeAgainstSerializeThenEmbed := by
  intro s hwf hgeom
  refine ⟨fun t u ht htcode hu hucode => ?_, fun hcap => ⟨?_, fun hfit => ?_, fun hover => ?_⟩, fun hcap hover => ?_⟩
  · obtain ⟨hfit, rfl⟩ := exec_serialize_of_success ht htcode
    obtain ⟨_, hcap, _, rfl⟩ := exec_embed_of_success hu hucode
    rw [opN_accept_serialized _ _ hwf hfit, cap_accept_serialized] at hcap
    rw [opN_accept_serialized _ _ hwf hfit]
    exact ⟨_, exec_encode_of_fit hgeom hcap hfit, rfl, encoded_eq_serialized_embedded _ _ _ s⟩
  · exact ⟨_, exec_encode_of_capacity hgeom hcap, rfl, rfl, rfl, rfl, rfl⟩
  · refine ⟨_, _, exec_serialize_of_fit hfit, rfl, frame_writePrefix _, serialized_flen hwf hfit,
      exec_embed_of_capacity ?_ ?_, rfl⟩
    · rw [geomOk_accept_serialized]
      exact hgeom
    · rw [opN_accept_serialized _ _ hwf hfit, cap_accept_serialized]
      exact hcap
  · exact ⟨_, exec_serialize_of_overflow hover, rfl⟩
  · exact ⟨_, _, exec_serialize_of_overflow hover, rfl, rfl, rfl, rfl, exec_encode_of_overflow hgeom hcap hover, rfl,
      rfl, rfl, rfl⟩

end Sys2Proof.Machine
end

section
/-! PROOFS. The source's round trip (42_lsb_codec R98, R101, R111) and the empty payload (R114). -/

namespace Sys2Proof.Machine

/-- Extraction on the source's side gives back the bits Embed's loop wrote (R94, R97, R98). -/
theorem sourceBits_embedLoop {w : Nat} (hw : 0 < w) (bits : List Bool) (g : Grid) {n : Nat} (hn : n ≤ bits.length) :
    sourceBits w (embedLoop w bits 0 g) n = bits.take n := by
  apply List.ext_getElem
  · simp [sourceBits, hn]
  · intro i hi _
    have hin : i < n := by simpa [sourceBits] using hi
    have hcol : (coord i w).2.1 < w := Nat.mod_lt _ hw
    have hch : (coord i w).2.2 < 3 := Nat.mod_lt _ (by decide)
    have hloop := embedLoop_spec bits 0 g (coord i w).1 _ (coord i w).2.2 hcol
    simp only [coord_index, Nat.sub_zero] at hloop
    rw [dif_pos ⟨hch, Nat.zero_le _, by omega⟩] at hloop
    simp only [sourceBits, List.getElem_map, List.getElem_range, Grid.at, hloop, lsbRead_lsbWrite, List.getElem_take]

theorem bitstream_append (xs ys : List Byte) : bitstream (xs ++ ys) = bitstream xs ++ bitstream ys :=
  List.flatMap_append

/-- The source reads back the length in front of what it embedded (R99, R107). -/
theorem sourceLength_embedLoop {w : Nat} (hw : 0 < w) (v : Word) (p : List Byte) (g : Grid) :
    sourceLength w (embedLoop w (bitstream (be32 v ++ p)) 0 g) = v.toNat := by
  have hprefix : (bitstream (be32 v)).length = 32 := bitstream_length _
  have hlong : 32 ≤ (bitstream (be32 v ++ p)).length := by rw [bitstream_append, List.length_append]; omega
  rw [sourceLength, sourceBits_embedLoop hw _ g hlong, bitstream_append, List.take_left' hprefix, pack_bitstream,
    fromBE_be32]

/-- Settles O30: Embed's bits read back are the frame's, so the length read first is the payload's. -/
theorem sourceRoundTrip : Obligations.SourceRoundTrip := by
  intro h w g p hp hfit
  have hw : 0 < w := by
    rcases Nat.eq_zero_or_pos w with rfl | hw
    · simp at hfit
    · exact hw
  set fb := be32 (BitVec.ofNat 32 p.length) ++ p with hfb
  set g' := embedLoop w (bitstream fb) 0 g with hg'
  have hbits : (bitstream fb).length = 32 + p.length * 8 := by
    rw [bitstream_length, List.length_append, be32_length]
    omega
  have hlength : sourceLength w g' = p.length := by
    rw [hg', sourceLength_embedLoop hw, BitVec.toNat_ofNat, Nat.mod_eq_of_lt hp]
  have hextract : sourceExtract h w g' (32 + p.length * 8) = .ok fb := by
    rw [sourceExtract, if_pos (by omega), hg', sourceBits_embedLoop hw _ g (Nat.le_of_eq hbits.symm), ← hbits,
      List.take_length, pack_bitstream]
  refine ⟨fb, g', serialize_of_lt hp, if_pos (by omega), ?_⟩
  rw [sourceDecode, if_pos (by omega), hlength, hextract]
  exact congrArg _ (deserialize_be32_append hp)

/-- 32 slots that are 0 spell the prefix 0 (R99, R114). -/
theorem prefixG_of_zero_slots {s : State} (h : ∀ i, i < 32 → slot s i = false) : prefixG s = 0 := by
  have hslots : extract s 32 = List.replicate 32 false :=
    List.eq_replicate_iff.2 ⟨extract_length s 32, fun b hb => by
      obtain ⟨i, hi, rfl⟩ := List.mem_map.1 hb
      exact h i (List.mem_range.1 hi)⟩
  rw [prefixG, hslots]
  rfl

/-- An ENCODE of the empty payload succeeds on 33 slots; it keeps the geometry, and its first 32 slots are those of
BE32(0), all 0 (R112, R114). -/
theorem encode_empty {s : State} (hwf : s.params.wf = true) (hgeom : geomOk (latchOperands s) = true)
    (hcap : 33 ≤ cap (latchOperands s)) (hL : s.plen = 0#32) :
    ∃ t, runCmd .encode s = .next t ∧ t.errcode = 0#4 ∧ t.params = s.params ∧
      t.height = s.height ∧ t.width = s.width ∧ t.channels = s.channels ∧
      ∀ i, i < 32 → lsbRead (readG t (seqAddr s.channels.toNat i)) = false := by
  have hopL : (accept (encode .encode) s).opL = 0#32 := hL
  have hcompletes := encodeCompletes (accept (encode .encode) s) hwf hgeom
  rw [hopL] at hcompletes
  obtain ⟨t, ht, hframe, _, h0, h1, h2, h3, _, hvisited, _⟩ := hcompletes hcap (Params.wf_frameBytes hwf).1
  refine ⟨t, ht, by rw [hframe]; rfl, by rw [hframe]; rfl, by rw [hframe]; rfl, by rw [hframe]; rfl,
    by rw [hframe]; rfl, fun i hi => ?_⟩
  have hprefix : ∀ k, k < 4 → readF t k = 0#8 := by
    intro k hk
    interval_cases k
    exacts [h0, h1, h2, h3]
  refine (congrArg lsbRead (hvisited i hi)).trans ?_
  rw [lsbRead_lsbWrite, hprefix _ (by omega), BitVec.getLsbD_zero]

/-- A DECODE of a grid whose first 32 slots are 0 succeeds with the empty payload (R110, R114). -/
theorem decode_zero_slots {s : State} (hwf : s.params.wf = true) (hgeom : geomOk (latchOperands s) = true)
    (hcap : 32 ≤ cap (latchOperands s)) (hzero : ∀ i, i < 32 → lsbRead (readG s (seqAddr s.channels.toNat i)) = false) :
    ∃ t, runCmd .decode s = .next t ∧ t.errcode = 0#4 ∧ t.plen = 0#32 ∧ t.flen = 4#32 := by
  have hprefix : prefixG (accept (encode .decode) s) = 0 := prefixG_of_zero_slots hzero
  have hbits : 32 + 8 * prefixG (accept (encode .decode) s) ≤ cap (accept (encode .decode) s) := by
    rw [hprefix]
    exact hcap
  refine ⟨_, exec_decode_of_fit hgeom hbits (by rw [hprefix]; exact (Params.wf_frameBytes hwf).1), rfl, ?_, ?_⟩
  · rw [decoded_plen hbits, hprefix]
  · rw [decoded_flen hbits, hprefix]

/-- Settles O33: of the functions by the round trip of the empty payload; of the commands, ENCODE leaves 32 zero slots
and the geometry DECODE latches. -/
theorem emptyPayload : Obligations.EmptyPayload := by
  have hserialize : serialize [] = .ok [0x00#8, 0x00#8, 0x00#8, 0x00#8] := serialize_of_lt (Nat.two_pow_pos 32)
  refine ⟨hserialize, fun h w g hcap => ?_, fun s hwf hgeom hcap hL => ?_⟩
  · obtain ⟨fb, g', hfb, hembed, hdecode⟩ := sourceRoundTrip h w g [] (Nat.two_pow_pos 32) hcap
    obtain rfl := Except.ok.inj (hserialize.symm.trans hfb)
    exact ⟨g', hembed, hdecode⟩
  · obtain ⟨t, ht, hcode, hparams, hH, hW, hC, hzero⟩ := encode_empty hwf hgeom hcap hL
    have hgeom' : geomOk (latchOperands t) = geomOk (latchOperands s) := geomOk_congr hparams hH hW hC
    have hcap' : cap (latchOperands t) = cap (latchOperands s) := cap_congr hH hW
    obtain ⟨u, hu⟩ := decode_zero_slots (s := t) (by rw [hparams]; exact hwf) (hgeom'.trans hgeom)
      (by rw [hcap']; omega) (by rw [hC]; exact hzero)
    exact ⟨t, u, ht, hcode, hzero, hu⟩

end Sys2Proof.Machine
end

section
/-! PROOFS. The Coordinate Sequence visits each used sample once (41_sequencer R85), and the capacity test is strict
(42_lsb_codec R98, R104; 41_sequencer R88). -/

namespace Sys2Proof.Machine

/-! ### The coordinate function -/

/-- The index a sample carries is the one whose coordinate it is (R85). -/
theorem coord_eq_iff {w col ch : Nat} (i row : Nat) (hcol : col < w) (hch : ch < 3) :
    coord i w = (row, col, ch) ↔ i = (row * w + col) * 3 + ch := by
  constructor
  · intro h
    rw [← coord_index i w, h]
  · rintro rfl
    exact coord_of_index row hcol hch

theorem coord_inj {i j w : Nat} (h : coord i w = coord j w) : i = j := by
  rw [← coord_index i w, h, coord_index]

/-- An index below CAP has its coordinate inside the image; such an index needs a column, so W is not 0 (R84, R85). -/
theorem coord_inside {h w i : Nat} (hi : i < capacity h w) :
    (coord i w).1 < h ∧ (coord i w).2.1 < w ∧ (coord i w).2.2 < 3 := by
  have hpixel : i / 3 < h * w := Nat.div_lt_of_lt_mul (by rwa [Nat.mul_comm])
  have hw : 0 < w := Nat.pos_of_mul_pos_left (Nat.zero_lt_of_lt hpixel)
  exact ⟨Nat.div_lt_of_lt_mul (by rwa [Nat.mul_comm]), Nat.mod_lt _ hw, Nat.mod_lt _ (by decide)⟩

/-- Settles O7: `(row * W + col) * 3 + ch` is the two-sided inverse of the coordinate function. -/
theorem coordIsBijection : Obligations.CoordIsBijection := by
  refine fun h w => ⟨fun i hi => ?_, fun row col ch hrow hcol hch => ?_, fun i j _ _ => coord_inj,
    fun n row col ch _ _ hcol hch => ?_⟩
  · obtain ⟨hrow, hcol, hch⟩ := coord_inside hi
    exact ⟨hrow, hcol, hch, coord_index i w⟩
  · exact ⟨index_lt_capacity hrow hcol hch, coord_of_index row hcol hch⟩
  · simp only [coord_eq_iff _ row hcol hch, exists_eq_right]

/-! ### The capacity test -/

theorem sourceEmbed_of_fit {h w : Nat} (g : Grid) {fb : List Byte} (hfit : (bitstream fb).length < h * w * 3) :
    sourceEmbed h w g fb = .ok (embedLoop w (bitstream fb) 0 g) :=
  if_pos hfit

theorem sourceEmbed_of_capacity {h w : Nat} (g : Grid) {fb : List Byte} (hcap : h * w * 3 ≤ (bitstream fb).length) :
    sourceEmbed h w g fb = .error .capacityExceeded :=
  if_neg (Nat.not_lt.2 hcap)

/-- Settles O19: CAP bits fail the strict test, at the command as in the source's Embed, and CAP - 1 bits pass it. -/
theorem capacityBoundary : Obligations.CapacityBoundary := by
  refine ⟨fun s hgeom hframe => ⟨fun hcap => ?_, fun hlast => ?_⟩, fun h w g fb => ⟨sourceEmbed_of_capacity g,
    fun hlast => ⟨_, sourceEmbed_of_fit g (Nat.lt_of_succ_le hlast.le)⟩⟩⟩
  · exact ⟨_, exec_embed_of_capacity hgeom hcap, rfl, rfl⟩
  · exact ⟨_, exec_embed_of_checks hgeom (Nat.lt_of_succ_le hlast.le) hframe, rfl⟩

end Sys2Proof.Machine
end

section
/-! PROOFS. The write path of a sample (42_lsb_codec R92 to R94), and EMBED against the source's Embed (R98, R104). -/

namespace Sys2Proof.Machine

/-! ### The write path -/

theorem lsbRead_eq_getLsbD : ∀ x : Byte, lsbRead x = x.getLsbD 0 := by decide

theorem extractLsb'_lsbWrite : ∀ (x : Byte) (b : Bool), (lsbWrite x b).extractLsb' 1 7 = x.extractLsb' 1 7 := by decide

/-- Writing a bit keeps the sample that has it, and flips bit 0 of one that does not (R94). -/
theorem lsbWrite_eq_ite : ∀ (x : Byte) (b : Bool), lsbWrite x b = if lsbRead x = b then x else x ^^^ 0x01#8 := by decide

theorem toNat_xor_one_near : ∀ x : Byte, (x ^^^ 0x01#8).toNat ≤ x.toNat + 1 ∧ x.toNat ≤ (x ^^^ 0x01#8).toNat + 1 := by
  decide

/-- Settles O4: a written sample is the old one or the old one with bit 0 flipped, which is 1 away. -/
theorem lsbWriteLaws : Obligations.LsbWriteLaws := by
  intro x b
  have hkept : lsbWrite x b = x ∨ lsbWrite x b = x ^^^ 0x01#8 := by
    rw [lsbWrite_eq_ite]
    exact ite_eq_or_eq ..
  refine ⟨extractLsb'_lsbWrite x b, lsbRead_lsbWrite x b, hkept, ?_, lsbRead_eq_getLsbD x, ?_⟩
  · rcases hkept with h | h <;> rw [h]
    · exact ⟨Nat.le_succ _, Nat.le_succ _⟩
    · exact toNat_xor_one_near x
  · rw [← lsbRead_eq_getLsbD, lsbRead_lsbWrite]

/-! ### EMBED against the source's Embed -/

/-- The address of a sample of the image is generated by its own index only, and by none for an alpha sample (R49, R50,
R86). -/
theorem gaddr_eq_seqAddr_iff {w c row col ch i : Nat} (hc : 3 ≤ c) (hch : ch < c) :
    gaddr w c row col ch = seqAddr c i ↔ ch < 3 ∧ (row * w + col) * 3 + ch = i := by
  have hsplit : gaddr w c row col ch = seqAddr c i ↔ seqAddr c i / c = row * w + col ∧ seqAddr c i % c = ch := by
    rw [Nat.div_mod_unique (by omega), and_iff_left hch, gaddr, Nat.add_comm, Nat.mul_comm c]
  rw [hsplit, seqAddr_div hc, seqAddr_mod hc]
  omega

/-- EMBED's loop over addresses of G is Embed's loop over coordinates, on every sample of the image (R98, R102, R104). -/
theorem gridOf_embedFrame {n : Nat} {s : State} (h3 : 3 ≤ s.opC.toNat) (hn : 8 * n < 2 ^ 36) {row col ch : Nat}
    (hcol : col < s.opW.toNat) (hch : ch < s.opC.toNat) :
    gridOf (embedFrame n s) row col ch =
      embedLoop s.opW.toNat (bitstream (frame s n)) 0 (gridOf s) row col ch := by
  have hbits : (bitstream (frame s n)).length = 8 * n := by rw [bitstream_length, frame_length]
  have hW : (embedFrame n s).opW = s.opW := by rw [embedFrame_frame]
  have hC : (embedFrame n s).opC = s.opC := by rw [embedFrame_frame]
  rw [embedLoop_spec _ _ _ _ _ _ hcol, gridOf, hW, hC]
  by_cases hvisited : ch < 3 ∧ (row * s.opW.toNat + col) * 3 + ch < 8 * n
  · obtain ⟨hch3, hlt⟩ := hvisited
    rw [dif_pos ⟨hch3, Nat.zero_le _, by omega⟩, bitstream_getElem _ _ _ (by rw [frame_length]; omega),
      frame_getElem, gridOf, (gaddr_eq_seqAddr_iff h3 hch).2 ⟨hch3, rfl⟩]
    exact readG_embedFrame_visited h3 hn hlt
  · rw [dif_neg (by rw [hbits]; omega)]
    refine readG_embedFrame_other hn fun i hi haddr => hvisited ?_
    obtain ⟨hch3, rfl⟩ := (gaddr_eq_seqAddr_iff h3 hch).1 haddr
    exact ⟨hch3, hi⟩

/-- Settles O18: both capacity tests pass, and the two loops agree on every sample of the image. -/
theorem embedRefinesSource : Obligations.EmbedRefinesSource := by
  intro s hgeom hcap hfit
  have hbits : (bitstream (frame s s.opN.toNat)).length < s.opH.toNat * s.opW.toNat * 3 := by
    rw [bitstream_length, frame_length]
    exact hcap
  refine ⟨_, _, exec_embed_of_checks hgeom hcap hfit, sourceEmbed_of_fit _ hbits, fun row col ch _ hcol hch => ?_⟩
  have hcaplt := cap_lt s
  exact gridOf_embedFrame (geomOk_three_le hgeom) (by omega) hcol hch

end Sys2Proof.Machine
end

section
/-! PROOFS. EXTRACT_LENGTH, EXTRACT_BITS and DECODE that pass their checks (42_lsb_codec R106, R108, R110), and against
the source's ExtractBits and Decode (R100, R101). -/

namespace Sys2Proof.Machine

/-! ### EXTRACT_LENGTH -/

theorem prefixG_eq_natOfBits (s : State) : prefixG s = natOfBits (extract s 32) := by
  rw [← readLength_prefixG, readLength_fst]

/-- Bit slot `i` is bit `31 - i` of the prefix (R107). -/
theorem prefixG_testBit (s : State) {i : Nat} (hi : i < 32) : (prefixG s).testBit (31 - i) = slot s i := by
  have hlen := extract_length s 32
  have hbit := natOfBits_testBit (extract s 32) i (by rw [hlen]; exact hi)
  simpa [prefixG_eq_natOfBits, hlen, extract] using hbit

/-- Settles O20: the value the 32 reads fold up is the prefix. -/
theorem extractLengthCompletes : Obligations.ExtractLengthCompletes := by
  intro s hgeom hcap
  have hplen := extractLengthEffect_plen s
  refine ⟨_, exec_extractLength_of_checks hgeom hcap, rfl, hplen, fun i hi => ?_⟩
  rw [complete_plen, BitVec.getLsbD, hplen, prefixG_testBit s hi]

/-! ### EXTRACT_BITS -/

/-- The state an EXTRACT_BITS that passes its checks leaves (R108). -/
def bitsExtracted (s : State) : State :=
  complete (setFlen (BitVec.ofNat 32 (s.opT.toNat / 8)) (extractFrame (s.opT.toNat / 8) s))

theorem exec_extractBits_of_fit {s : State} (hgeom : geomOk s = true) (h8 : s.opT.toNat % 8 = 0)
    (hcap : s.opT.toNat ≤ cap s) (hfit : s.opT.toNat / 8 ≤ s.params.frameBytes) :
    exec .extractBits s = .next (bitsExtracted s) := exec_extractBits_of_checks hgeom h8 hcap hfit

theorem bitsExtracted_frame (s : State) : bitsExtracted s =
    { endedWith 0#4 s with
      fmem := (bitsExtracted s).fmem, flen := (bitsExtracted s).flen, acc := (bitsExtracted s).acc
      bitIdx := (bitsExtracted s).bitIdx } := by
  unfold bitsExtracted
  rw [extractFrame_frame]
  rfl

theorem readF_bitsExtracted (s : State) (a : Nat) :
    readF (bitsExtracted s) a = if a < s.opT.toNat / 8 then slotByte s a else readF s a := by
  have hT := s.opT.isLt
  exact readF_extractFrame s (by omega) a

/-- Settles O21: the extraction loop; `Params.wf` keeps FLEN below 2^32. -/
theorem extractBitsCompletes : Obligations.ExtractBitsCompletes := by
  intro s hwf hgeom h8 hcap hfit
  refine ⟨_, exec_extractBits_of_fit hgeom h8 hcap hfit, bitsExtracted_frame s,
    Nat.mod_eq_of_lt (lt_of_le_frameBytes hwf hfit), fun k m hk hm => ?_, fun a ha => ?_⟩
  · rw [readF_bitsExtracted, if_pos hk, slotByte_getLsbD s k m hm]
  · rw [readF_bitsExtracted, if_neg (Nat.not_lt.2 ha)]

/-- A frame in F whose bytes are those of the slots is what the packer makes of the slots (R96, R108). -/
theorem frame_eq_pack_extract {s t : State} {n : Nat} (h : ∀ k, k < n → readF t k = slotByte s k) :
    frame t n = pack (extract s (8 * n)) := by
  rw [pack_extract]
  exact List.map_congr_left fun k hk => h k (List.mem_range.1 hk)

/-- ExtractBits on the grid of the running command, for whole bytes within the capacity (R97, R100). -/
theorem sourceExtract_gridOf {s : State} {n : Nat} (hcap : n ≤ cap s) :
    sourceExtract s.opH.toNat s.opW.toNat (gridOf s) n = .ok (pack (extract s n)) := by
  rw [sourceExtract, sourceBits_gridOf]
  exact if_pos hcap

theorem sourceExtract_of_capacity {h w n : Nat} (g : Grid) (hcap : h * w * 3 < n) :
    sourceExtract h w g n = .error .indexOutOfBounds :=
  if_neg (Nat.not_le.2 hcap)

theorem exec_extractBits_of_capacity {s : State} (hgeom : geomOk s = true) (h8 : s.opT.toNat % 8 = 0)
    (h : cap s < s.opT.toNat) : exec .extractBits s = .next (raiseError .indexOutOfBounds s) := by
  have hfirst : firstFailing (extractBitsChecks s) = some .indexOutOfBounds := by
    simp [firstFailing, extractBitsChecks, hgeom, h8, Nat.not_le.2 h]
  exact congrArg _ (command_of_some hfirst _ s)

/-- Settles O23: on either side of the capacity the command and the source answer alike. -/
theorem extractBitsRefinesSource : Obligations.ExtractBitsRefinesSource := by
  intro s hgeom h8 hfit
  rcases Nat.lt_or_ge (cap s) s.opT.toNat with hcap | hcap
  · exact ⟨_, exec_extractBits_of_capacity hgeom h8 hcap, (absurd · (CmdError.code_ne_zero .indexOutOfBounds)),
      fun _ => ⟨rfl, sourceExtract_of_capacity _ hcap⟩⟩
  · refine ⟨_, exec_extractBits_of_fit hgeom h8 hcap hfit, fun _ => ?_, (absurd rfl ·)⟩
    have hframe : frame (bitsExtracted s) (s.opT.toNat / 8) = pack (extract s (8 * (s.opT.toNat / 8))) :=
      frame_eq_pack_extract fun k hk => by rw [readF_bitsExtracted, if_pos hk]
    rw [sourceExtract_gridOf hcap, hframe, Nat.mul_div_cancel' (Nat.dvd_of_mod_eq_zero h8)]

/-! ### DECODE -/

/-- A success of DECODE writes F, PLEN and FLEN, hidden fields apart, and nothing else but STATUS. -/
theorem decoded_frame (s : State) : decoded s =
    { endedWith 0#4 s with
      fmem := (decoded s).fmem, plen := (decoded s).plen, flen := (decoded s).flen, acc := (decoded s).acc
      bitIdx := (decoded s).bitIdx } := by
  unfold decoded
  rw [finishDecode_frame, extractFrame_frame, readLength_frame]
  rfl

theorem readF_decoded {s : State} (hcap : 32 + 8 * prefixG s ≤ cap s) (a : Nat) :
    readF (decoded s) a = if a < 4 + prefixG s then slotByte s a else readF s a := by
  rw [decoded, readF_complete, readF_finishDecode, readF_decodeFrame hcap]

theorem decoded_plen_toNat {s : State} (hcap : 32 + 8 * prefixG s ≤ cap s) : (decoded s).plen.toNat = prefixG s := by
  rw [decoded_plen hcap, BitVec.toNat_ofNat, Nat.mod_eq_of_lt (prefixG_lt s)]

/-- Settles O24: the prefix read from the grid is the one found in F, and `Params.wf` keeps FLEN below 2^32. -/
theorem decodeCompletes : Obligations.DecodeCompletes := by
  intro s hwf hgeom hcap hfit
  refine ⟨_, exec_decode_of_fit hgeom hcap hfit, decoded_frame s, decoded_plen_toNat hcap, ?_, fun k m hk hm => ?_,
    fun a ha => ?_⟩
  · rw [decoded_flen hcap, BitVec.toNat_ofNat, Nat.mod_eq_of_lt (lt_of_le_frameBytes hwf hfit)]
  · rw [readF_decoded hcap, if_pos hk, slotByte_getLsbD s k m hm]
  · rw [readF_decoded hcap, if_neg (Nat.not_lt.2 ha)]

theorem sourceLength_gridOf (s : State) : sourceLength s.opW.toNat (gridOf s) = prefixG s := by
  rw [sourceLength, sourceBits_gridOf, prefixG]

/-- Decode on the grid of the running command: deserialize of the packed slots (R101). -/
theorem sourceDecode_gridOf {s : State} (hcap : 32 + 8 * prefixG s ≤ cap s) :
    sourceDecode s.opH.toNat s.opW.toNat (gridOf s) =
      .ok (deserialize (pack (extract s (8 * (4 + prefixG s))))) := by
  have hcount : 32 + prefixG s * 8 = 8 * (4 + prefixG s) := by omega
  have hprefix : 32 ≤ s.opH.toNat * s.opW.toNat * 3 := Nat.le_of_add_right_le hcap
  rw [sourceDecode, if_pos hprefix, sourceLength_gridOf, hcount, sourceExtract_gridOf (by omega)]

/-- Settles O26: the source's frame is the one in F, and deserialize takes its payload whole. -/
theorem decodeRefinesSource : Obligations.DecodeRefinesSource := by
  intro s hgeom hcap hfit
  refine ⟨_, exec_decode_of_fit hgeom hcap hfit, rfl, ?_⟩
  have hframe : frame (decoded s) (4 + prefixG s) = pack (extract s (8 * (4 + prefixG s))) :=
    frame_eq_pack_extract fun k hk => by rw [readF_decoded hcap, if_pos hk]
  rw [sourceDecode_gridOf hcap, ← hframe, deserialize_frame, prefixF_decoded hcap, Nat.min_self,
    decoded_plen_toNat hcap]

end Sys2Proof.Machine
end

section
/-! PROOFS. ENCODE, then DECODE of the grid it left (42_lsb_codec R111). -/

namespace Sys2Proof.Machine

/-- A success of ENCODE writes F, G and FLEN, the bit index apart, and nothing else but STATUS. -/
theorem encoded_frame (s : State) : encoded s =
    { endedWith 0#4 s with
      fmem := (encoded s).fmem, gmem := (encoded s).gmem, flen := (encoded s).flen
      bitIdx := (encoded s).bitIdx } := by
  unfold encoded
  rw [embedFrame_frame, writePrefix_frame]
  rfl

/-- ENCODE keeps the platform, the free values and the geometry, in the registers and in the latches (R112). -/
theorem encoded_accept_keeps (w : Word) (s : State) :
    (encoded (accept w s)).params = s.params ∧ (encoded (accept w s)).epoch = s.epoch ∧
    (encoded (accept w s)).height = s.height ∧ (encoded (accept w s)).width = s.width ∧
    (encoded (accept w s)).channels = s.channels ∧ (encoded (accept w s)).opC = s.channels := by
  rw [encoded_frame]
  exact ⟨rfl, rfl, rfl, rfl, rfl, rfl⟩

/-- The packed slots of the grid ENCODE leaves are the bytes of the frame it embedded (R94, R112). -/
theorem slotByte_encoded {s : State} (h3 : 3 ≤ s.opC.toNat) (hcap : 8 * (4 + s.opL.toNat) < cap s) {k : Nat}
    (hk : k < 4 + s.opL.toNat) : slotByte (encoded s) k = readF (writePrefix s) k := by
  have hC : (writePrefix s).opC = s.opC := by rw [writePrefix_frame]
  have hbits := hcap.trans (cap_lt s)
  exact slotByte_embedFrame (s := writePrefix s) (by rw [hC]; exact h3) (by omega) hk

/-- A grid whose first four packed bytes are the prefix ENCODE writes has L as its prefix (R107, R112). -/
theorem prefixG_of_writePrefix {s d : State} (h : ∀ k, k < 4 → slotByte d k = readF (writePrefix s) k) :
    prefixG d = s.opL.toNat :=
  (prefixG_of_bytes h).trans (prefixF_writePrefix s)

/-- DECODE of a grid whose packed bytes are the frame ENCODE embedded, with its geometry, recovers PLEN and the payload
(R110). -/
theorem decode_of_encoded_slots {s d : State} (hgeom : geomOk d = true) (hcap : 8 * (4 + s.opL.toNat) < cap d)
    (hfit : 4 + s.opL.toNat ≤ d.params.frameBytes)
    (hslots : ∀ k, k < 4 + s.opL.toNat → slotByte d k = readF (writePrefix s) k) :
    exec .decode d = .next (decoded d) ∧ (decoded d).plen = s.opL ∧
      ∀ k, k < s.opL.toNat → readF (decoded d) (4 + k) = readF s (4 + k) := by
  have hprefix : prefixG d = s.opL.toNat := prefixG_of_writePrefix fun k hk => hslots k (by omega)
  have hcapd : 32 + 8 * prefixG d ≤ cap d := by omega
  refine ⟨exec_decode_of_fit hgeom hcapd (by rw [hprefix]; exact hfit), ?_, fun k hk => ?_⟩
  · rw [decoded_plen hcapd, hprefix, BitVec.ofNat_toNat, BitVec.setWidth_eq]
  · rw [readF_decoded hcapd, hprefix, if_pos (by omega), hslots _ (by omega),
      readF_writePrefix_payload s (Nat.le_add_right 4 k)]

/-- Settles O31: DECODE latches ENCODE's geometry, and the packed bytes it finds in the grid are the frame ENCODE
embedded. -/
theorem encodeDecodeRoundTrip : Obligations.EncodeDecodeRoundTrip := by
  intro s t u hwf ht hcode hparams hgmem hepoch hH hW hC
  obtain ⟨hgeom, hcap, hfit, rfl⟩ := exec_encode_of_success ht hcode
  obtain ⟨hparams', hepoch', hH', hW', hC', hopC'⟩ := encoded_accept_keeps (encode .encode) s
  set r := accept (encode .encode) s
  set d := accept (encode .decode) u
  have hdparams : d.params = r.params := hparams.trans hparams'
  have hdH : d.opH = r.opH := hH.trans hH'
  have hdW : d.opW = r.opW := hW.trans hW'
  have hdC : d.opC = r.opC := hC.trans hC'
  have hslots : ∀ k, k < 4 + r.opL.toNat → slotByte d k = readF (writePrefix r) k := fun k hk =>
    (slotByte_congr (t := d) hgmem hepoch (hdC.trans hopC'.symm) k).trans (slotByte_encoded (geomOk_three_le hgeom) hcap hk)
  obtain ⟨hdecode, hplen, hpayload⟩ := decode_of_encoded_slots ((geomOk_congr hdparams hdH hdW hdC).trans hgeom)
    (hcap.trans_eq (cap_congr hdH hdW).symm) (hfit.trans_eq (congrArg Params.frameBytes hdparams).symm) hslots
  exact ⟨_, hdecode, rfl, by rw [decoded_frame]; rfl, hplen, hpayload⟩

end Sys2Proof.Machine
end

section
/-! PROOFS. Which error a grid command raises, and when (42_lsb_codec R104 to R112; 60_exceptions R118, R120). -/

namespace Sys2Proof.Machine

/-- Every grid command checks `geom_ok` first (R103, R120). -/
theorem command_of_geometry {s : State} (h : geomOk s = false) (rest : List (Bool × CmdError))
    (effect : State → State) : command ((geomOk s, .geometry) :: rest) effect s = raiseError .geometry s :=
  command_of_some (by rw [h]; rfl) effect s

theorem exec_embed_of_overflow {s : State} (hgeom : geomOk s = true) (hcap : 8 * s.opN.toNat < cap s)
    (h : s.params.frameBytes < s.opN.toNat) : exec .embed s = .next (raiseError .frameOverflow s) := by
  have hfirst : firstFailing (embedChecks s) = some .frameOverflow := by
    simp [firstFailing, embedChecks, hgeom, hcap, Nat.not_le.2 h]
  exact congrArg _ (command_of_some hfirst _ s)

/-- Settles O17: the first check that fails names the error. -/
theorem embedErrors : Obligations.EmbedErrors :=
  fun _ => ⟨fun hgeom => congrArg _ (command_of_geometry hgeom _ _), exec_embed_of_capacity, exec_embed_of_overflow⟩

/-- Settles O28: as for EMBED, with 4 + L bytes for its N; the check of OUT_OF_RANGE always holds. -/
theorem encodeErrors : Obligations.EncodeErrors :=
  fun _ => ⟨fun hgeom => congrArg _ (command_of_geometry hgeom _ _), exec_encode_of_capacity, exec_encode_of_overflow⟩

/-! ### The two extractions -/

/-- The prefix needs 32 slots (R106, R110). -/
theorem firstFailing_lengthChecks_of_short {s : State} (hgeom : geomOk s = true) (h : cap s < 32) :
    firstFailing (lengthChecks s) = some .indexOutOfBounds := by
  simp [firstFailing, lengthChecks, hgeom, Nat.not_le.2 h]

theorem exec_extractBits_of_operand {s : State} (hgeom : geomOk s = true) (h : s.opT.toNat % 8 ≠ 0) :
    exec .extractBits s = .next (raiseError .badOperand s) := by
  have hfirst : firstFailing (extractBitsChecks s) = some .badOperand := by
    simp [firstFailing, extractBitsChecks, hgeom, h]
  exact congrArg _ (command_of_some hfirst _ s)

theorem exec_extractBits_of_overflow {s : State} (hgeom : geomOk s = true) (h8 : s.opT.toNat % 8 = 0)
    (hcap : s.opT.toNat ≤ cap s) (h : s.params.frameBytes < s.opT.toNat / 8) :
    exec .extractBits s = .next (raiseError .frameOverflow s) := by
  have hfirst : firstFailing (extractBitsChecks s) = some .frameOverflow := by
    simp [firstFailing, extractBitsChecks, hgeom, h8, hcap, Nat.not_le.2 h]
  exact congrArg _ (command_of_some hfirst _ s)

/-- Settles O22: the first check that fails names the error. -/
theorem extractErrors : Obligations.ExtractErrors :=
  fun s => ⟨fun hgeom => congrArg _ (command_of_geometry hgeom _ _),
    fun hgeom hcap => congrArg _ (command_of_some (firstFailing_lengthChecks_of_short hgeom hcap) _ s),
    fun hgeom => congrArg _ (command_of_geometry hgeom _ _), exec_extractBits_of_operand,
    exec_extractBits_of_capacity, exec_extractBits_of_overflow⟩

/-! ### DECODE -/

theorem exec_decode_of_lengthError {s : State} {e : CmdError} (h : firstFailing (lengthChecks s) = some e) :
    exec .decode s = .next (raiseError e s) := by
  change execDecode s = _
  rw [execDecode, h]

/-- A check that fails after the prefix reads ends DECODE with the bit index moved (R110, R120). -/
theorem exec_decode_of_prefixError {s : State} {e : CmdError} (hgeom : geomOk s = true) (hcap : 32 ≤ cap s)
    (h : firstFailing (decodeChecks (prefixG s) s) = some e) :
    exec .decode s = .next (raiseError e (readLength s).2) := by
  rw [← readLength_prefixG] at h
  change execDecode s = _
  simp only [execDecode, (lengthChecks_none s).2 ⟨hgeom, hcap⟩, decodeBody, command_of_some h]

/-- Settles O25: the first two checks fail before the prefix is read, the last two after it, with the hidden bit index
moved. -/
theorem decodeErrors : Obligations.DecodeErrors := by
  refine fun s => ⟨fun hgeom => ?_, fun hgeom hcap => ?_, fun hgeom hlen hcap => ?_, fun hgeom hcap hover => ?_⟩
  · exact exec_decode_of_lengthError (by rw [lengthChecks, hgeom]; rfl)
  · exact exec_decode_of_lengthError (firstFailing_lengthChecks_of_short hgeom hcap)
  · refine ⟨_, exec_decode_of_prefixError (e := .indexOutOfBounds) hgeom hlen ?_, rfl⟩
    simp [firstFailing, decodeChecks, Nat.not_le.2 hcap]
  · refine ⟨_, exec_decode_of_prefixError (e := .frameOverflow) hgeom (by omega) ?_, rfl⟩
    simp [firstFailing, decodeChecks, hcap, Nat.not_le.2 hover]

end Sys2Proof.Machine
end

section
/-! PROOFS. The two ends of a command, completion and accept (60_exceptions R119, R121), the interrupt line (R127), and the
order of a host write and a completion (R129). -/

namespace Sys2Proof.Machine

/-! ### Completion -/

/-- Settles O36, by the two ways a command can end (R121): an error's code is one of R118, success has code 0. -/
theorem everyCommandCompletes : Obligations.EveryCommandCompletes := by
  intro i s
  rcases exec_cases i s with ⟨e, b, h⟩ | ⟨u, h, hu⟩
  · exact ⟨_, h, rfl, rfl, e.code_le, rfl⟩
  · have hhaz : (complete u).haz = s.haz := by rw [hu]; rfl
    exact ⟨_, h, rfl, rfl, Nat.zero_le _, hhaz⟩

/-- At an engine event a busy block's step completes its command, its other inputs pending (R39, R121). -/
theorem step_engine_completes {s : State} {rest : List Event} (hr : s.rst = false) (hb : s.busy = true)
    (hi : s.inputs = .engine :: rest) :
    ∃ t, step s = .next t ∧ t.rst = false ∧ t.busy = false ∧ t.done = true ∧ t.inputs = rest ∧
      t.params = s.params := by
  obtain ⟨t, ht⟩ := runCommandWord_next s.engOp { s with inputs := rest }
  obtain ⟨hp, hbt, _⟩ := runCommandWord_ends ht
  obtain ⟨hrt, _, hdt⟩ := runCommandWord_keeps ht
  have hit : t.inputs = rest := by rw [eq_endUnread_of_run ht]; rfl
  exact ⟨t, (step_engine hr hb hi).trans ht, hrt.trans hr, hbt, hdt, hit, hp⟩

/-! ### The interrupt line -/

theorem irq_eq_true_iff (s : State) : s.irq = true ↔ s.done = true ∧ s.ie = true := Bool.and_eq_true_iff

theorem runCommandWord_irq {w : Word} {s t : State} (h : runCommandWord w s = .next t) : t.irq = s.ie := by
  rw [eq_endUnread_of_run h]
  exact Bool.true_and s.ie

/-- A host access moves irq only by a write of STATUS, by an accept or by a write of IRQEN (R127). -/
theorem AccessEffect.irq_cases {s t : State} {a : Access} (h : AccessEffect s a t) :
    t.irq = s.irq ∨
      (∃ off v, a = .writeReg off v ∧ regAt off = some .status ∧ t.irq = (s.done && !v.getLsbD 1 && s.ie)) ∨
      (∃ off w, a = .writeReg off w ∧ regAt off = some .cmd) ∨
      ∃ off v, a = .writeReg off v ∧ regAt off = some .irqen ∧ t.irq = (s.done && v.getLsbD 0) := by
  cases h with
  | status v h => exact .inr (.inl ⟨_, v, rfl, h, rfl⟩)
  | accept w h _ => exact .inr (.inr (.inl ⟨_, w, rfl, h⟩))
  | irqen v h => exact .inr (.inr (.inr ⟨_, v, rfl, h, rfl⟩))
  | operand _ ht => rw [ht]; exact .inl rfl
  | violation _ _ ht => rw [ht]; exact .inl rfl
  | _ => exact .inl rfl

theorem EventEffect.cause_of_irq_falls {s t : State} {e : Event} (h : EventEffect s e t) (hs : s.irq = true)
    (ht : t.irq = false) :
    (∃ v, e = .host (busWR s.params .status v) ∧ v.getLsbD 1 = true) ∨
      (∃ w, e = .host (busWR s.params .cmd w)) ∨
      (∃ v, e = .host (busWR s.params .irqen v) ∧ v.getLsbD 0 = false) ∨ ∃ m, e = .assertRst m := by
  obtain ⟨hd, hie⟩ := (irq_eq_true_iff s).1 hs
  cases h with
  | idle => cases hs.symm.trans ht
  | command _ _ h => cases hie.symm.trans ((runCommandWord_irq h).symm.trans ht)
  | access ha _ h =>
    rcases h.irq_cases with hirq | ⟨off, v, rfl, hoff, hirq⟩ | ⟨off, w, rfl, hoff⟩ | ⟨off, v, rfl, hoff, hirq⟩
    · cases hs.symm.trans (hirq.symm.trans ht)
    · rw [ht, hd, hie] at hirq
      exact .inl ⟨v, congrArg _ (busWR_of_access ha hoff), by simpa using hirq⟩
    · exact .inr (.inl ⟨w, congrArg _ (busWR_of_access ha hoff)⟩)
    · rw [ht, hd] at hirq
      exact .inr (.inr (.inl ⟨v, congrArg _ (busWR_of_access ha hoff), by simpa using hirq⟩))
  | held => rw [heldAccess_frame] at ht; cases hs.symm.trans ht
  | reset m => exact .inr (.inr (.inr ⟨m, rfl⟩))
  | release => cases hs.symm.trans ht

/-- Settles O54: the level is a conjunction, a completion sets DONE and keeps IE, and of all events only the four lower
the line. -/
theorem interruptLevel : Obligations.InterruptLevel := by
  refine ⟨irq_eq_true_iff, fun w s t h => runCommandWord_irq h, fun s t hs h ht => ?_⟩
  obtain ⟨e, rest, hi, he⟩ := step_effect h
  rcases he.cause_of_irq_falls hs ht with ⟨v, rfl, hv⟩ | ⟨w, rfl⟩ | ⟨v, rfl, hv⟩ | ⟨m, rfl⟩
  · exact .inl ⟨v, rest, hi.resolve_right nofun, hv⟩
  · exact .inr (.inl ⟨w, rest, hi.resolve_right nofun⟩)
  · exact .inr (.inr (.inl ⟨v, rest, hi.resolve_right nofun, hv⟩))
  · exact .inr (.inr (.inr ⟨m, rest, hi.resolve_right nofun⟩))

/-! ### A host write of STATUS against a completion -/

/-- Settles O55: whichever of the two steps comes last decides DONE; neither stops the other (R129, R143). -/
theorem statusWriteAgainstCompletion : Obligations.StatusWriteAgainstCompletion := by
  intro s v hr hb hv
  refine ⟨fun hi => ?_, fun hi => ?_⟩
  · obtain ⟨t, ht, _, hbt, hdt, _⟩ :=
      step_engine_completes (s := writeStatus v { s with inputs := [.engine] }) hr hb rfl
    exact ⟨t, ⟨_, step_busWR hr hi, t, ht, rfl⟩, hdt, hbt⟩
  · obtain ⟨m, hm, hrm, hbm, _, him, hpm⟩ := step_engine_completes hr hb hi
    rw [← hpm] at him
    refine ⟨_, ⟨m, hm, _, step_busWR hrm him, rfl⟩, ?_, hbm⟩
    show (m.done && !v.getLsbD 1) = false
    rw [hv, Bool.not_true, Bool.and_false]

/-! ### An engine with nothing to do -/

theorem react_engine_idle {s : State} (h : s.rst = true ∨ s.busy = false) : react .engine s = .next s := by
  rcases h with h | h <;> simp [react, engineStep, h]

/-- Settles O42: the engine's event, or no event, is the engine's move, which changes nothing. -/
theorem idleEngineDoesNothing : Obligations.IdleEngineDoesNothing :=
  fun s rest h => ⟨fun hi => (step_cons hi).trans (react_engine_idle (s := { s with inputs := rest }) h),
    fun hi => (step_nil hi).trans (react_engine_idle h)⟩

/-! ### Accept -/

/-- Operand T is the number whose upper digit in base 2^32 is XBITS_HI (R68). -/
theorem operandT_toNat (s : State) : (operandT s).toNat = s.xbitsHi.toNat * 2 ^ 32 + s.xbitsLo.toNat := by
  rw [operandT, BitVec.toNat_append, ← Nat.shiftLeft_add_eq_or_of_lt s.xbitsLo.isLt, Nat.shiftLeft_eq]

/-- Settles O44: a write of CMD is the accept while idle, and a dropped write with HAZ while busy (R143). -/
theorem acceptLatchesOperands : Obligations.AcceptLatchesOperands := by
  intro s w rest hr hi
  refine ⟨fun hb => ⟨_, step_accept hr hb hi, rfl, operandT_toNat s⟩, fun hb => (step_busWR hr hi).trans ?_⟩
  exact congrArg Host.Outcome.next (writeReg_busy (r := .cmd) (s := { s with inputs := rest }) nofun nofun w hb)

end Sys2Proof.Machine
end

section
/-! PROOFS. A host access to a busy block, and the running command's completion after it (70_reset R143, R144). -/

namespace Sys2Proof.Machine

/-! ### The running command after an access -/

/-- A completion keeps HAZ, IE, the answer to the last host read and the count of free reads (R121). -/
theorem eq_of_step_engine {s t : State} {rest : List Event} (hr : s.rst = false) (hb : s.busy = true)
    (hi : s.inputs = .engine :: rest) (ht : step s = .next t) :
    t = { t with haz := s.haz, ie := s.ie, rdata := s.rdata, draws := s.draws } := by
  rw [step_engine hr hb hi] at ht
  rw [eq_endUnread_of_run ht]
  rfl

/-- No command reads DONE, HAZ, IE, the last answer or the count of free reads: with other values there the engine's step
completes the command as before, DONE being 1 at the end anyway. -/
theorem step_engine_unread {s t : State} {rest : List Event} (hr : s.rst = false) (hb : s.busy = true)
    (hi : s.inputs = .engine :: rest) (ht : step s = .next t) (d hz ie : Bool) (v : Word) (n : Nat) :
    step { s with done := d, haz := hz, ie := ie, rdata := v, draws := n } =
      .next { t with haz := hz, ie := ie, rdata := v, draws := n } := by
  rw [step_engine hr hb hi] at ht
  have hrun := runCommandWord_withUnread
    { s with inputs := rest, done := d, haz := hz, ie := ie, rdata := v, draws := n } ht
  rw [eq_endUnread_of_run ht]
  exact (step_engine (by exact hr) (by exact hb) (by exact hi)).trans hrun

/-- The running command is not affected by a host access: it completes as without it (R143, R144). -/
theorem step_engine_hostAccess {s t : State} {rest : List Event} (a : Access) (hr : s.rst = false) (hb : s.busy = true)
    (hi : s.inputs = .engine :: rest) (ht : step s = .next t) :
    step (hostAccess a s) = .next { t with
      haz := (hostAccess a s).haz, ie := (hostAccess a s).ie, rdata := (hostAccess a s).rdata,
      draws := (hostAccess a s).draws } :=
  (congrArg step (hostAccess_busy a hb)).trans (step_engine_unread hr hb hi ht _ _ _ _ _)

/-! ### Register writes -/

/-- Settles O48: the step is the write of the register, which while busy is dropped with HAZ but for STATUS and IRQEN;
then the command completes as without it. -/
theorem busyRegisterWrites : Obligations.BusyRegisterWrites := by
  intro s t r v rest hr hb hi ht
  have hkeep := eq_of_step_engine (s := { s with inputs := .engine :: rest }) hr hb rfl ht
  have hnext := step_engine_hostAccess (s := { s with inputs := .engine :: rest }) (.writeReg r.offset v) hr hb rfl ht
  rw [hostAccess_writeReg (regAt_offset r)] at hnext
  refine ⟨_, step_busWR hr hi, fun h1 h2 => ?_, ?_, ?_⟩
  · rw [writeReg_busy h1 h2 v (s := { s with inputs := .engine :: rest }) hb] at hnext ⊢
    exact ⟨rfl, hnext.trans (by rw [hkeep]; rfl)⟩
  · rintro rfl
    exact ⟨rfl, hnext.trans (by rw [hkeep]; rfl)⟩
  · rintro rfl
    exact ⟨rfl, hnext.trans (by rw [hkeep]; rfl)⟩

/-! ### Accesses to F and G -/

theorem hostAccess_writeF_busy {s : State} (h : s.busy = true) (a : Nat) (b : Byte) :
    hostAccess (.writeF a b) s = setHaz s := by
  rw [hostAccess, whenIdle_busy _ h]

theorem hostAccess_writeG_busy {s : State} (h : s.busy = true) (a : Nat) (b : Byte) :
    hostAccess (.writeG a b) s = setHaz s := by
  rw [hostAccess, whenIdle_busy _ h]

/-- A read of F or G of a busy block: the next free byte, and HAZ (R144; logs 8, 11). -/
def busyReadAnswered (s : State) : State :=
  setHaz (nextDraw (answer ((Config.busyRead s.draws).setWidth 32) s))

theorem hostAccess_readF_busy {s : State} (h : s.busy = true) (a : Nat) :
    hostAccess (.readF a) s = busyReadAnswered s := readByte_busy _ h

theorem hostAccess_readG_busy {s : State} (h : s.busy = true) (a : Nat) :
    hostAccess (.readG a) s = busyReadAnswered s := readByte_busy _ h

/-- A host write of a byte inside F or G, to a busy block, is an access that only sets HAZ (R144). -/
theorem busyWrite_access {s : State} {op : BusOp} {a : Nat} {b : Byte} (hwf : s.params.wf = true) (hb : s.busy = true)
    (h : (a < s.params.frameBytes ∧ op = busWRF s.params a b) ∨ (a < s.params.gridBytes ∧ op = busWRG s.params a b)) :
    ∃ acc, busAccess s.params op = .ok acc ∧ hostAccess acc s = setHaz s := by
  rcases h with ⟨ha, rfl⟩ | ⟨ha, rfl⟩
  · exact ⟨_, busAccess_busWRF ha b, hostAccess_writeF_busy hb a b⟩
  · exact ⟨_, busAccess_busWRG hwf ha b, hostAccess_writeG_busy hb a b⟩

/-- A host read of a byte inside F or G, of a busy block, is an access that answers a free byte, whichever byte it
names (R144). -/
theorem busyRead_access {s : State} {op : BusOp} {a : Nat} (hwf : s.params.wf = true) (hb : s.busy = true)
    (h : (a < s.params.frameBytes ∧ op = busRDF s.params a) ∨ (a < s.params.gridBytes ∧ op = busRDG s.params a)) :
    ∃ acc, busAccess s.params op = .ok acc ∧ hostAccess acc s = busyReadAnswered s := by
  rcases h with ⟨ha, rfl⟩ | ⟨ha, rfl⟩
  · exact ⟨_, busAccess_busRDF ha, hostAccess_readF_busy hb a⟩
  · exact ⟨_, busAccess_busRDG hwf ha, hostAccess_readG_busy hb a⟩

/-- Settles O49: the step is the access of the block, which while busy sets HAZ and answers a read with a free byte; then
the command completes as without it. -/
theorem busyMemoryAccesses : Obligations.BusyMemoryAccesses := by
  intro s t op a b rest hwf hr hb hi ht
  have hkeep := eq_of_step_engine (s := { s with inputs := .engine :: rest }) hr hb rfl ht
  have hnext (acc : Access) := step_engine_hostAccess (s := { s with inputs := .engine :: rest }) acc hr hb rfl ht
  refine ⟨fun h => ?_, fun h => ?_⟩
  · obtain ⟨acc, hacc, heffect⟩ := busyWrite_access (s := { s with inputs := .engine :: rest }) hwf hb h
    have hstep := step_host_released hr hi hacc
    specialize hnext acc
    rw [heffect] at hstep hnext
    exact ⟨hstep, hnext.trans (by rw [hkeep]; rfl)⟩
  · obtain ⟨acc, hacc, heffect⟩ := busyRead_access (s := { s with inputs := .engine :: rest }) hwf hb h
    have hstep := step_host_released hr hi hacc
    specialize hnext acc
    rw [heffect] at hstep hnext
    obtain ⟨hlow, hhigh⟩ := setWidth_byte_fields (Config.busyRead s.draws)
    exact ⟨_, hstep, rfl, hlow, hhigh, rfl, hnext.trans (by rw [hkeep]; rfl)⟩

end Sys2Proof.Machine
end

section
/-! PROOFS. A reset in the middle of a command (70_reset R138). -/

namespace Sys2Proof.Machine

/-- Where the new memory lists every address the old one does, the mix is the new memory at the landed addresses and the
old one elsewhere: an address the new one does not list, neither lists. -/
theorem Memory.byteAt_mix_of_listed {old new : Memory} (landed : List Nat) (hw : Memory.wf new = true)
    (hl : ∀ a, (Memory.byteAt old a).isSome → (Memory.byteAt new a).isSome) (a : Nat) :
    Memory.byteAt (Memory.mix old new landed) a =
      if a ∈ landed then Memory.byteAt new a else Memory.byteAt old a := by
  rw [Memory.byteAt_mix new landed hw]
  cases hn : Memory.byteAt new a with
  | some b => simp
  | none =>
    have ho : Memory.byteAt old a = none :=
      Option.not_isSome_iff_eq_none.1 fun h => by simpa [hn] using hl a h
    simp [ho]

/-- A busy block's memories, kept: mixed with those the running command leaves, in the same epoch (R138). -/
theorem assertReset_kept_of_busy (lf lg : List Nat) {s u : State} (h : s.busy = true)
    (hu : runCommandWord s.engOp s = .next u) :
    (assertReset (.kept lf lg) s).fmem = Memory.mix s.fmem u.fmem lf ∧
      (assertReset (.kept lf lg) s).gmem = Memory.mix s.gmem u.gmem lg ∧
      (assertReset (.kept lf lg) s).epoch = s.epoch :=
  ⟨congrArg Prod.fst (abortedMemories_of_busy lf lg h hu), congrArg Prod.snd (abortedMemories_of_busy lf lg h hu), rfl⟩

/-- Settles O58: the reset mixes the memories with those the completed command leaves, and a command takes no byte
back (`exec_keepsListed`), so that a landed byte reads as the command leaves it even where nobody has written it. -/
theorem resetDuringCommand : Obligations.ResetDuringCommand := by
  intro s u i lf lg rest hm hb hd hu hi
  obtain ⟨hf, hg, he⟩ := assertReset_kept_of_busy lf lg (s := { s with inputs := rest }) hb
    ((runCommandWord_of_ok hd _).trans hu)
  obtain ⟨hwf, hwg, _, _⟩ := (memoriesOk_iff u).1 (exec_memoriesOk (s := { s with inputs := rest }) hm hu)
  obtain ⟨hlf, hlg⟩ := exec_keepsListed hu
  have hepoch : u.epoch = s.epoch := by rw [exec_frame hu]
  refine ⟨_, step_assertRst hi, rfl, rfl, fun a => ?_, fun a => ?_⟩
  · simp only [readF, hf, he, hepoch, Memory.byteAt_mix_of_listed lf hwf hlf]
    split <;> rfl
  · simp only [readG, hg, he, hepoch, Memory.byteAt_mix_of_listed lg hwg hlg]
    split <;> rfl

end Sys2Proof.Machine
end
